-- ==== Sys2Proof/Word.lean ====
section
/-! DEFINITION. The word types of the SLP block (spec 00_scope.md R10, R12). -/

namespace Sys2Proof

/-- A byte, 0..255 (R12). -/
abbrev Byte := BitVec 8

/-- A 32-bit register or command word (R10). -/
abbrev Word := BitVec 32

/-- A byte sequence, position 0 first (R12). -/
abbrev Bytes := List Byte

end Sys2Proof
end

