-- ==== Sys2Proof/Syntax.lean ====
section
/-! DEFINITION. The commands of SLP revision 1, one constructor per row of spec/opcode_table.json
(spec 30_encoding.md R107). -/

namespace Sys2Proof

/-- A command with its operand fields as unsigned bit fields (R106). -/
inductive Instr where
  | nop
  | clr
  | getb (idx : BitVec 8)
  | getd (idx : BitVec 8)
  | setb (idx val : BitVec 8)
  | textlen
  | matchp (k : BitVec 4)
  | matchs (k : BitVec 4)
  | patset (idx val : BitVec 8)
  | patlen (n : BitVec 8)
  | clrerr
  | capture
  | drain
  | send (k : BitVec 4) (t : BitVec 16)
  | field (off : BitVec 8)
  | fieldn
  | resp (k : BitVec 4)
  | dstat
  | dcred
  | dword (k : BitVec 4)
  | rdcred (sel idx : BitVec 8)
deriving DecidableEq, Repr

end Sys2Proof
end

