-- ==== Sys2Proof/WellFormed.lean ====
section
/-! DEFINITION. Which operand values are legal (spec 30_encoding.md R108). An index, offset or count out of range is
legal (R109); only a keyword selector 9..14 and a credential selector above 1 are not. -/

namespace Sys2Proof

/-- `validk(k)` of R108. -/
def validKeyword (k : BitVec 4) : Bool := decide (k.toNat ≤ 8) || decide (k.toNat = 15)

/-- The credential selectors of R108: 0 (SSID) and 1 (PASS). -/
def validSelector (sel : BitVec 8) : Bool := decide (sel.toNat ≤ 1)

/-- The operands of a command are legal (R108). -/
def Instr.wellFormed : Instr → Bool
  | .nop => true
  | .clr => true
  | .getb _ => true
  | .getd _ => true
  | .setb _ _ => true
  | .textlen => true
  | .matchp k => validKeyword k
  | .matchs k => validKeyword k
  | .patset _ _ => true
  | .patlen _ => true
  | .clrerr => true
  | .capture => true
  | .drain => true
  | .send k _ => validKeyword k
  | .field _ => true
  | .fieldn => true
  | .resp k => validKeyword k
  | .dstat => true
  | .dcred => true
  | .dword k => validKeyword k
  | .rdcred sel _ => validSelector sel

end Sys2Proof
end

