-- ==== Sys2Proof/Decode.lean ====
section
/-! DEFINITION. Decoding a command word, total and rejecting by name, and the encoder (spec 30_encoding.md R100-R108).
The register port moves whole 32-bit words and has no byte lanes (20_memory.md R72), so both work on words. -/

namespace Sys2Proof

/-- Why a word is illegal (R108). STAT records only that it was (60_exceptions.md R282, R283). -/
inductive DecodeError where
  /-- The opcode is none of R107. -/
  | unassignedOpcode (op : BitVec 8)
  /-- A bit the format fixes at 0 is 1. -/
  | reservedBits (w : Word)
  /-- Keyword selector 9..14. -/
  | illegalKeyword (k : BitVec 4)
  /-- Credential selector 2..255. -/
  | illegalSelector (sel : BitVec 8)
deriving DecidableEq, Repr

/-- `op = w[31:24]` (R100). -/
def opField (w : Word) : BitVec 8 := w.extractLsb' 24 8

/-- `A = w[23:16]` (R100). -/
def aField (w : Word) : BitVec 8 := w.extractLsb' 16 8

/-- `B = w[15:0]` (R100). -/
def bField (w : Word) : BitVec 16 := w.extractLsb' 0 16

/-- `w[23:20]`, zero in formats K and KT (R104, R105). -/
def kZeroField (w : Word) : BitVec 4 := w.extractLsb' 20 4

/-- `k = w[19:16]` (R104, R105). -/
def kField (w : Word) : BitVec 4 := w.extractLsb' 16 4

/-- `w[15:8]`, zero in format IV (R103). -/
def vZeroField (w : Word) : BitVec 8 := w.extractLsb' 8 8

/-- `V = w[7:0]` (R103). -/
def vField (w : Word) : BitVec 8 := w.extractLsb' 0 8

/-- `legal(w)`, as R108 writes it. -/
def legal (w : Word) : Bool :=
  let op := (opField w).toNat
  if op ∈ [0x00, 0x01, 0x05, 0x0F, 0x10, 0x11, 0x22, 0x30, 0x31] then w.extractLsb' 0 24 == 0#24
  else if op ∈ [0x02, 0x03, 0x09, 0x21] then bField w == 0#16
  else if op ∈ [0x04, 0x08] then vZeroField w == 0#8
  else if op = 0x33 then vZeroField w == 0#8 && decide ((aField w).toNat ≤ 1)
  else if op ∈ [0x06, 0x07, 0x23, 0x32] then
    kZeroField w == 0#4 && bField w == 0#16 && validKeyword (kField w)
  else if op = 0x20 then kZeroField w == 0#4 && validKeyword (kField w)
  else false

/-- Format N (R101). -/
def decodeN (w : Word) (i : Instr) : Except DecodeError Instr :=
  if aField w = 0#8 ∧ bField w = 0#16 then .ok i else .error (.reservedBits w)

/-- Format I (R102). -/
def decodeI (w : Word) (mk : BitVec 8 → Instr) : Except DecodeError Instr :=
  if bField w = 0#16 then .ok (mk (aField w)) else .error (.reservedBits w)

/-- Format IV (R103). -/
def decodeIV (w : Word) (mk : BitVec 8 → BitVec 8 → Instr) : Except DecodeError Instr :=
  if vZeroField w = 0#8 then .ok (mk (aField w) (vField w)) else .error (.reservedBits w)

/-- Format IV with a credential selector in A (R103, R108). -/
def decodeSel (w : Word) (mk : BitVec 8 → BitVec 8 → Instr) : Except DecodeError Instr :=
  if vZeroField w = 0#8 then
    if validSelector (aField w) then .ok (mk (aField w) (vField w)) else .error (.illegalSelector (aField w))
  else .error (.reservedBits w)

/-- Format K (R104). -/
def decodeK (w : Word) (mk : BitVec 4 → Instr) : Except DecodeError Instr :=
  if kZeroField w = 0#4 ∧ bField w = 0#16 then
    if validKeyword (kField w) then .ok (mk (kField w)) else .error (.illegalKeyword (kField w))
  else .error (.reservedBits w)

/-- Format KT (R105). -/
def decodeKT (w : Word) (mk : BitVec 4 → BitVec 16 → Instr) : Except DecodeError Instr :=
  if kZeroField w = 0#4 then
    if validKeyword (kField w) then .ok (mk (kField w) (bField w)) else .error (.illegalKeyword (kField w))
  else .error (.reservedBits w)

/-- The opcode map of R107. -/
def decode (w : Word) : Except DecodeError Instr :=
  match (opField w).toNat with
  | 0x00 => decodeN w .nop
  | 0x01 => decodeN w .clr
  | 0x02 => decodeI w .getb
  | 0x03 => decodeI w .getd
  | 0x04 => decodeIV w .setb
  | 0x05 => decodeN w .textlen
  | 0x06 => decodeK w .matchp
  | 0x07 => decodeK w .matchs
  | 0x08 => decodeIV w .patset
  | 0x09 => decodeI w .patlen
  | 0x0F => decodeN w .clrerr
  | 0x10 => decodeN w .capture
  | 0x11 => decodeN w .drain
  | 0x20 => decodeKT w .send
  | 0x21 => decodeI w .field
  | 0x22 => decodeN w .fieldn
  | 0x23 => decodeK w .resp
  | 0x30 => decodeN w .dstat
  | 0x31 => decodeN w .dcred
  | 0x32 => decodeK w .dword
  | 0x33 => decodeSel w .rdcred
  | _ => .error (.unassignedOpcode (opField w))

/-- A command word from its fields `op`, `A`, `B` (R100). -/
def commandWord (op a : BitVec 8) (b : BitVec 16) : Word := op ++ a ++ b

/-- The word of a command, by the format R107 gives it. Total: an ill-formed command has a word too, an illegal one. -/
def encode : Instr → Word
  | .nop => commandWord 0x00#8 0#8 0#16
  | .clr => commandWord 0x01#8 0#8 0#16
  | .getb idx => commandWord 0x02#8 idx 0#16
  | .getd idx => commandWord 0x03#8 idx 0#16
  | .setb idx val => commandWord 0x04#8 idx (0#8 ++ val)
  | .textlen => commandWord 0x05#8 0#8 0#16
  | .matchp k => commandWord 0x06#8 (0#4 ++ k) 0#16
  | .matchs k => commandWord 0x07#8 (0#4 ++ k) 0#16
  | .patset idx val => commandWord 0x08#8 idx (0#8 ++ val)
  | .patlen n => commandWord 0x09#8 n 0#16
  | .clrerr => commandWord 0x0F#8 0#8 0#16
  | .capture => commandWord 0x10#8 0#8 0#16
  | .drain => commandWord 0x11#8 0#8 0#16
  | .send k t => commandWord 0x20#8 (0#4 ++ k) t
  | .field off => commandWord 0x21#8 off 0#16
  | .fieldn => commandWord 0x22#8 0#8 0#16
  | .resp k => commandWord 0x23#8 (0#4 ++ k) 0#16
  | .dstat => commandWord 0x30#8 0#8 0#16
  | .dcred => commandWord 0x31#8 0#8 0#16
  | .dword k => commandWord 0x32#8 (0#4 ++ k) 0#16
  | .rdcred sel idx => commandWord 0x33#8 sel (0#8 ++ idx)

/-- The command word whose table bits are `w`: the bits at and above `nbits` are 0, and there is one word of 32 bits
(R100). -/
def tableWord (nbits w : Nat) : Word := BitVec.ofNat 32 (w % 2 ^ nbits)

/-- What the decoder reads from a word given by the opcode table's bits. -/
def decodeTableWord (nbits w : Nat) : Option Instr := (decode (tableWord nbits w)).toOption

end Sys2Proof
end

