-- ==== Sys2Proof/Config.lean ====
section
/-! DEFINITION. What is fixed for one implementation (spec 00_scope.md R9), the steps an agent can take (R6), and the
two free values of the model: the parameters and the schedule. -/

namespace Sys2Proof

/-- The `state` enumeration of a status triple, numbered in this order from 0 (10_state.md R54). -/
inductive ArmState where
  | disarmed
  | armed
  | alert
deriving DecidableEq, Repr, Inhabited

/-- The `method` enumeration, numbered in this order from 0 (R54). -/
inductive ArmMethod where
  | none
  | stay
  | away
deriving DecidableEq, Repr, Inhabited

/-- The `sensor` enumeration, numbered in this order from 0 (R54). -/
inductive Sensor where
  | noneTriggered
  | oneTriggered
  | multipleTriggered
  | offline
deriving DecidableEq, Repr, Inhabited

/-- A status triple. Every value of the type is legal in the sense of R34. -/
structure Status where
  state  : ArmState
  method : ArmMethod
  sensor : Sensor
deriving DecidableEq, Repr, Inhabited

/-- The implementation's parameters (R9). Each field's type admits exactly the values R9 allows, so the two depths are
stored as offsets from their least values; read them through `rxDepth` and `txDepth`. -/
structure Params where
  /-- CAPACITY_REQUEST: any natural number. -/
  capacityRequest  : Nat
  /-- RX_DEPTH - 1, for RX_DEPTH in 1..65535. -/
  rxDepthAbove1    : Fin 65535
  /-- TX_DEPTH - 257, for TX_DEPTH in 257..65535. -/
  txDepthAbove257  : Fin 65279
  /-- SETTLE_TICKS: 0..65535. -/
  settleTicks      : BitVec 16
  /-- TIMEOUT_UNIT_TICKS: 0..32767. -/
  timeoutUnitTicks : BitVec 15
  /-- STATUS_INIT: a legal triple. -/
  statusInit       : Status
deriving DecidableEq, Repr, Inhabited

/-- CAP = min(CAPACITY_REQUEST, 255) (10_state.md R44). -/
def Params.cap (p : Params) : Nat := min p.capacityRequest 255

/-- RX_DEPTH (R9). -/
def Params.rxDepth (p : Params) : Nat := p.rxDepthAbove1.val + 1

/-- TX_DEPTH (R9). -/
def Params.txDepth (p : Params) : Nat := p.txDepthAbove257.val + 257

/-- One step of one agent (R6). -/
inductive Action where
  /-- The Client writes `w` to register-port offset `off`; offset 0x00 is CMD. -/
  | writeReg (off : BitVec 8) (w : Word)
  /-- The Client reads register-port offset `off`. -/
  | readReg (off : BitVec 8)
  /-- The Client asserts reset (70_reset_and_hazards.md R310). -/
  | reset
  /-- The Sequencer's turn (10_state.md R51). -/
  | sequencer
  /-- PeerRx delivers `b` (20_memory.md R76). -/
  | peerRx (b : Byte)
  /-- PeerTx's turn (20_memory.md R78). -/
  | peerTx
  /-- The Timebase emits one TICK (R172, R203). -/
  | tick
deriving DecidableEq, Repr, Inhabited

/-- The parameters the implementation chose (R9: OPEN). No value of it can be proved. Log 3. -/
opaque Config.params : Params

/-- The agent step that comes `n`-th once no listed step is left: any interleaving is allowed (R7, R84). No value of it
can be proved. DESIGN CHOICE (safe), log 1. -/
opaque Config.freeAction : Nat → Action

end Sys2Proof
end

