-- ==== Sys2Proof/Machine/State.lean ====
section
/-! DEFINITION. The state of the SLP block (spec 10_state.md), what lies outside it, and reset (R60). -/

namespace Sys2Proof.Machine

open Sys2Proof

/-- Why the machine stops with a fault: never. "SLP has no trap and no exception mechanism: no error transfers control,
saves state, or stops the block" (60_exceptions.md R280), so there is no constructor. Log 13. -/
inductive Fault where
deriving DecidableEq, Repr

/-- Why a step is refused. -/
inductive Refusal where
  /-- Raised by an arm of `exec` whose command has no meaning yet; no arm does. Safe: the run stops. -/
  | notModelled (mnemonic : String)
deriving DecidableEq, Repr

/-- The FrameBuffer's storage (R45): (index, byte) cells, indices strictly rising, no cell equal to what an unlisted
index reads as (`Memory.wf`, Machine/Ops.lean). -/
abbrev Memory := List Host.Cell

/-- One credential result register and its length (R47). -/
structure Credential where
  bytes : Vector Byte 16
  len   : Fin 17
deriving DecidableEq, Repr

/-- An empty credential: length 0, all bytes 0 (R47, R60). -/
def Credential.empty : Credential := ⟨Vector.replicate 16 0#8, 0⟩

/-- The stored flags of STAT (R33). BUSY, RXNE and PHASE are live views, computed where STAT is read. -/
structure Flags where
  trunc      : Bool
  noeol      : Bool
  credOvf    : Bool
  errBusy    : Bool
  errIllegal : Bool
  rxOverrun  : Bool
deriving DecidableEq, Repr

/-- Every flag 0 (R60). -/
def Flags.clear : Flags := ⟨false, false, false, false, false, false⟩

/-- The Sequencer's phase and the state it carries (R51, R53). -/
inductive Phase where
  | idle
  /-- `line`: the line to enqueue, with EOL. -/
  | emit (line : Bytes)
  /-- `n`: ticks still to wait. -/
  | settle (n : BitVec 16)
  /-- `p`: marker bytes matched. -/
  | scan (p : Fin 4)
  /-- `w`: next write index, 0..CAP. -/
  | copy (w : Nat)
  /-- `line` with EOL, the acknowledgement pattern, the timeout. -/
  | sendtx (line : Bytes) (pattern : Bytes) (t : BitVec 16)
  /-- `n`: ticks still to wait; the acknowledgement pattern. -/
  | window (n : BitVec 16) (pattern : Bytes)
deriving DecidableEq, Repr

/-- What lies outside the block: the agent steps to come and what the block's two outputs have delivered. The model's
own, not the spec's (logs 1 and 4). -/
structure Env where
  /-- The agent steps still to come, first one first. -/
  schedule : List Action
  /-- The index of the next free agent step, taken when `schedule` is empty. -/
  turn     : Nat
  /-- The bytes PeerTx has put on the wire, oldest first (R78). -/
  wire     : Bytes
  /-- What Client register reads have returned, as (offset, word), oldest first (R41). -/
  reads    : List (BitVec 8 × Word)
deriving DecidableEq, Repr

/-- Nothing listed, nothing delivered. -/
def Env.empty : Env := ⟨[], 0, [], []⟩

/-- The state of the block (R30-R53) with its parameters (`cfg`, which no step changes) and its environment. -/
structure State where
  cfg    : Params
  fb     : Memory
  pat    : Vector Byte 16
  patLen : Fin 17
  ssid   : Credential
  pass   : Credential
  hstat  : Status
  result : BitVec 16
  cursor : BitVec 8
  flags  : Flags
  phase  : Phase
  rx     : Bytes
  tx     : Bytes
  env    : Env
deriving DecidableEq, Repr

/-- The reset state of R60 for given parameters, in a given environment. -/
def State.resetWith (cfg : Params) (env : Env) : State where
  cfg    := cfg
  fb     := []
  pat    := Vector.replicate 16 0#8
  patLen := 0
  ssid   := Credential.empty
  pass   := Credential.empty
  hstat  := cfg.statusInit
  result := 0#16
  cursor := 0#8
  flags  := Flags.clear
  phase  := Phase.idle
  rx     := []
  tx     := []
  env    := env

/-- The machine right after reset (R60, R310), with no agent step listed. -/
def State.reset : State := State.resetWith Config.params Env.empty

end Sys2Proof.Machine
end

