-- ==== Sys2Proof/Machine/Ops.lean ====
section
/-! DEFINITION. The named operations over FrameBuffer, registers and FIFOs (spec 00_scope.md R13, 10_state.md,
20_memory.md), emitting a line (R52), and the two ways a CMD write is turned away (R283, R284), which stand where
another hardware has taking an exception: this one has no exceptions to take or return from (60_exceptions.md R280,
R287, R288). -/

namespace Sys2Proof.Machine

open Sys2Proof

/-! ### One field at a time -/

/-- The state with `fb` replaced. -/
def State.setFb (s : State) (m : Memory) : State := { s with fb := m }
/-- The state with `pat` replaced. -/
def State.setPat (s : State) (v : Vector Byte 16) : State := { s with pat := v }
/-- The state with `patLen` replaced. -/
def State.setPatLen (s : State) (n : Fin 17) : State := { s with patLen := n }
/-- The state with both credential registers replaced. -/
def State.setCredentials (s : State) (ssid pass : Credential) : State := { s with ssid := ssid, pass := pass }
/-- The state with `hstat` replaced. -/
def State.setHstat (s : State) (t : Status) : State := { s with hstat := t }
/-- `RESULT <- r` (R13). -/
def State.setResult (s : State) (r : BitVec 16) : State := { s with result := r }
/-- The state with `cursor` replaced. -/
def State.setCursor (s : State) (c : BitVec 8) : State := { s with cursor := c }
/-- The state with `flags` replaced. -/
def State.setFlags (s : State) (f : Flags) : State := { s with flags := f }
/-- `PHASE <- p` (R13). -/
def State.setPhase (s : State) (p : Phase) : State := { s with phase := p }
/-- The state with the receive FIFO replaced. -/
def State.setRx (s : State) (l : Bytes) : State := { s with rx := l }
/-- The state with the transmit FIFO replaced. -/
def State.setTx (s : State) (l : Bytes) : State := { s with tx := l }
/-- The state with the environment replaced. -/
def State.setEnv (s : State) (e : Env) : State := { s with env := e }

/-- `complete`: PHASE <- IDLE (R13). -/
def State.complete (s : State) : State := s.setPhase .idle

/-- CAP (R44). -/
def State.cap (s : State) : Nat := s.cfg.cap

/-! ### FrameBuffer storage -/

/-- What an unlisted index reads as: the reset contents, 0 (R45, R60). -/
def Memory.unlisted : Byte := 0#8

/-- The byte at index `i`. -/
def Memory.read : Memory → Nat → Byte
  | [], _ => Memory.unlisted
  | (a, v) :: m, i => if a = i then v else Memory.read m i

/-- Store `v` at index `i`, keeping the canonical form: storing what an unlisted index reads as removes the cell. -/
def Memory.write : Memory → Nat → Byte → Memory
  | [], i, v => if v = Memory.unlisted then [] else [(i, v)]
  | (a, x) :: m, i, v =>
    if i < a then (if v = Memory.unlisted then (a, x) :: m else (i, v) :: (a, x) :: m)
    else if i = a then (if v = Memory.unlisted then m else (i, v) :: m)
    else (a, x) :: Memory.write m i v

/-- The canonical form: indices strictly rising, no cell holding what an unlisted index reads as. -/
def Memory.wf : Memory → Bool
  | [] => true
  | (a, v) :: m => v != Memory.unlisted && m.all (fun c => decide (a < c.1)) && Memory.wf m

/-- Every listed index is below `n`. -/
def Memory.below (m : Memory) (n : Nat) : Bool := m.all (fun c => decide (c.1 < n))

/-- `FB[i] <- v` for an index in range; no access reaches storage at or above CAP (R71). -/
def State.fbStore (s : State) (i : Nat) (v : Byte) : State :=
  if i < s.cap then s.setFb (Memory.write s.fb i v) else s

/-- `for i in 0..CAP-1: FB[i] <- 0` (R134, R176, R180). -/
def State.fbClear (s : State) : State := s.setFb []

/-! ### FIFOs -/

/-- `TxFree` (R13). -/
def State.txFree (s : State) : Nat := s.cfg.txDepth - s.tx.length

/-- `TxPush(l)`: append a whole line (R13, R78). -/
def State.txPush (s : State) (l : Bytes) : State := s.setTx (s.tx ++ l)

/-- The line terminator on transmit: CR LF (R80). -/
def eol : Bytes := [0x0D#8, 0x0A#8]

/-- `EmitLine(body)`: enqueue `body ++ EOL` now if it fits, else hold in EMIT (R52). -/
def State.emitLine (s : State) (body : Bytes) : State :=
  let line := body ++ eol
  if line.length ≤ s.txFree then s.txPush line else s.setPhase (.emit line)

/-- PeerRx delivers `b`: appended, or dropped with RX_OVERRUN when the FIFO is full (R76). -/
def State.receive (s : State) (b : Byte) : State :=
  if s.rx.length < s.cfg.rxDepth then s.setRx (s.rx ++ [b])
  else s.setFlags { s.flags with rxOverrun := true }

/-- PeerTx takes the head byte of the transmit FIFO onto the wire; with an empty FIFO it has no step (R78). -/
def State.transmit (s : State) : State :=
  match s.tx with
  | [] => s
  | b :: l => (s.setTx l).setEnv { s.env with wire := s.env.wire ++ [b] }

/-! ### Turning a command away -/

/-- `raise Illegal`: STAT.ERR_ILLEGAL <- 1 and nothing else (R283). -/
def State.raiseIllegal (s : State) : State := s.setFlags { s.flags with errIllegal := true }

/-- A word written while BUSY: STAT.ERR_BUSY <- 1 and nothing else (R284). -/
def State.dropBusy (s : State) : State := s.setFlags { s.flags with errBusy := true }

/-! ### Reset -/

/-- Reset asserted: every piece of the block's state takes the value of R60, whatever PHASE holds; what the block has
already delivered stays delivered, and the agent steps to come still come (R310). -/
def State.hardReset (s : State) : State := State.resetWith s.cfg s.env

end Sys2Proof.Machine
end

