-- ==== Sys2Proof/Machine/Operands.lean ====
section
/-! DEFINITION. Every operand form of the commands: FrameBuffer byte, digit and text view (spec 00_scope.md R13),
keyword (30_encoding.md R110), and the two matches of R12. -/

namespace Sys2Proof.Machine

open Sys2Proof

/-! ### FrameBuffer operands -/

/-- `GetByte(i)`: FB[i], or the sentinel 0 out of range (R13, R131). -/
def State.getByte (s : State) (i : Nat) : Byte := if i < s.cap then Memory.read s.fb i else 0#8

/-- The digit value of a byte, exact: byte - 0x30, in -48..207 (R132). -/
def digitOf (b : Byte) : Int := (b.toNat : Int) - 0x30

/-- `GetDigit(i)`: the digit value of FB[i], or the sentinel -1 out of range (R13, R132). -/
def State.getDigit (s : State) (i : Nat) : Int := if i < s.cap then digitOf (Memory.read s.fb i) else -1

/-- `FB[0..CAP)`. -/
def State.fbBytes (s : State) : Bytes := (List.range s.cap).map (fun i => Memory.read s.fb i)

/-- `Text()`: the bytes of FB before the first zero byte, all of FB if there is none (R13, R135). -/
def State.text (s : State) : Bytes := s.fbBytes.takeWhile (fun b => b != 0#8)

/-- `TL`, the length of the text view (R135). -/
def State.textLen (s : State) : Nat := s.text.length

/-! ### Keyword operands -/

/-- The keyword ROM and the illegal selectors 9..14 (R110). Selector 15 is the pattern register, read by `keyword`. -/
def keywordRom (k : BitVec 4) : Option Bytes :=
  match k.toNat with
  | 0 => some [0x43, 0x4D, 0x44, 0x2B]
  | 1 => some [0x53, 0x54, 0x41, 0x54, 0x55, 0x53, 0x3A]
  | 2 => some [0x43, 0x52, 0x45, 0x44, 0x45, 0x4E, 0x54, 0x49, 0x41, 0x4C, 0x53, 0x3A]
  | 3 => some [0x43, 0x48, 0x41, 0x4E, 0x47, 0x45]
  | 4 => some [0x52, 0x45, 0x53, 0x45, 0x54]
  | 5 => some [0x52, 0x45, 0x54, 0x52, 0x59]
  | 6 => some [0x4F, 0x4B]
  | 7 => some [0x52, 0x53, 0x50, 0x2B, 0x4F, 0x4B]
  | 8 => some [0x52, 0x53, 0x50, 0x2B, 0x42, 0x41, 0x44, 0x5F, 0x56, 0x41, 0x4C, 0x55, 0x45]
  | _ => none

/-- `CMD+`, the line-start marker: keyword 0 (R110). -/
def marker : Bytes := [0x43, 0x4D, 0x44, 0x2B]

/-- `RSP+OK`: keyword 7, the acknowledgement token (R110). -/
def rspOk : Bytes := [0x52, 0x53, 0x50, 0x2B, 0x4F, 0x4B]

/-- `RSP+BAD_VALUE`: keyword 8 (R110). -/
def rspBadValue : Bytes := [0x52, 0x53, 0x50, 0x2B, 0x42, 0x41, 0x44, 0x5F, 0x56, 0x41, 0x4C, 0x55, 0x45]

/-- `PAT[0..PATLEN)` (R46). -/
def State.patBytes (s : State) : Bytes := s.pat.toList.take s.patLen.val

/-- `Keyword(k)`: the pattern register for k = 15, the ROM for k = 0..8, none for an illegal selector (R110, R136). -/
def State.keyword (s : State) (k : BitVec 4) : Option Bytes :=
  if k = 15#4 then some s.patBytes else keywordRom k

/-! ### Matches -/

/-- `occurs(w, l)`: `w` is a contiguous part of `l`; the empty sequence occurs in every one (R12). -/
def occurs (w : Bytes) : Bytes → Bool
  | [] => w.isEmpty
  | b :: l => w.isPrefixOf (b :: l) || occurs w l

/-- The match of MATCHP: `w` against the first |w| bytes of the buffer, false when |w| exceeds CAP (R137). -/
def State.matchesPrefix (s : State) (w : Bytes) : Bool :=
  decide (w.length ≤ s.cap) && w.isPrefixOf s.fbBytes

/-! ### Result values -/

/-- A truth value as RESULT: 1 for true or success, 0 otherwise (R31). -/
def boolResult (b : Bool) : BitVec 16 := if b then 1#16 else 0#16

/-- A digit as RESULT: 16-bit two's complement (R31, R132). -/
def digitResult (d : Int) : BitVec 16 := BitVec.ofInt 16 d

/-- A length or count as RESULT, mod 2^16 (R13). -/
def countResult (n : Nat) : BitVec 16 := BitVec.ofNat 16 n

end Sys2Proof.Machine
end

