-- ==== Sys2Proof/Machine/Matcher.lean ====
section
/-! DEFINITION. Command-prefix matcher and pattern register: MATCHP, MATCHS, PATSET, PATLEN (spec 40_framebuffer.md
R136-R140). -/

namespace Sys2Proof.Machine

open Sys2Proof

/-- A command that uses keyword `k`: `f` of the keyword, or `raise Illegal` for an illegal selector (R14, R108). -/
def State.withKeyword (s : State) (k : BitVec 4) (f : Bytes → State) : State :=
  match s.keyword k with
  | none => s.raiseIllegal
  | some w => f w

/-- MATCHP k (R137). -/
def execMatchp (k : BitVec 4) (s : State) : Host.Outcome State Fault Refusal :=
  .next (s.withKeyword k (fun w => s.setResult (boolResult (s.matchesPrefix w))))

/-- MATCHS k (R138). -/
def execMatchs (k : BitVec 4) (s : State) : Host.Outcome State Fault Refusal :=
  .next (s.withKeyword k (fun w => s.setResult (boolResult (occurs w s.text))))

/-- PATSET idx, val (R139). -/
def execPatset (idx val : BitVec 8) (s : State) : Host.Outcome State Fault Refusal :=
  .next ((s.setPat (s.pat.setIfInBounds idx.toNat val)).setResult (boolResult (decide (idx.toNat < 16))))

/-- PATLEN n (R140). -/
def execPatlen (n : BitVec 8) (s : State) : Host.Outcome State Fault Refusal :=
  .next (if h : n.toNat ≤ 16 then (s.setPatLen ⟨n.toNat, Nat.lt_succ_of_le h⟩).setResult 1#16
    else s.setResult 0#16)

end Sys2Proof.Machine
end

