-- ==== Sys2Proof/Machine/CommandChannel.lean ====
section
/-! DEFINITION. Command channel: SEND with its SENDTX and WINDOW steps, FIELD, FIELDN, RESP
(spec 42_command_channel.md). -/

namespace Sys2Proof.Machine

open Sys2Proof

/-- The line a SEND transmits: the text view and EOL (R201). -/
def State.sendLine (s : State) : Bytes := s.text ++ eol

/-- Enqueue a SEND line and start its window (R201, R202). -/
def State.startWindow (s : State) (line w : Bytes) (t : BitVec 16) : State :=
  (s.txPush line).setPhase (.window t w)

/-- SEND k, T, issue step (R201). -/
def execSend (k : BitVec 4) (t : BitVec 16) (s : State) : Host.Outcome State Fault Refusal :=
  .next (s.withKeyword k (fun w =>
    if s.sendLine.length ≤ s.txFree then s.startWindow s.sendLine w t
    else s.setPhase (.sendtx s.sendLine w t)))

/-- The window close step: take every received byte and search it for the pattern (R205). -/
def State.closeWindow (s : State) (w : Bytes) : State :=
  ((s.setRx []).setResult (boolResult (occurs w s.rx))).complete

/-- FIELD off (R207). -/
def execField (off : BitVec 8) (s : State) : Host.Outcome State Fault Refusal :=
  .next ((s.setResult (digitResult (s.getDigit off.toNat))).setCursor (off + 2#8))

/-- FIELDN (R208). -/
def execFieldn (s : State) : Host.Outcome State Fault Refusal :=
  .next ((s.setResult (digitResult (s.getDigit s.cursor.toNat))).setCursor (s.cursor + 2#8))

/-- RESP k (R209). RESULT unchanged. -/
def execResp (k : BitVec 4) (s : State) : Host.Outcome State Fault Refusal :=
  .next (s.withKeyword k (fun w => s.emitLine w))

end Sys2Proof.Machine
end

