-- ==== Sys2Proof/Machine/Flags.lean ====
section
/-! DEFINITION. Every flag computation of STAT (spec 10_state.md R33, R51): the live fields and the changes of the
stored ones. -/

namespace Sys2Proof.Machine

open Sys2Proof

/-- The PHASE code (R51). Code 7 is never held. -/
def Phase.code : Phase → BitVec 3
  | .idle => 0#3
  | .emit _ => 1#3
  | .settle _ => 2#3
  | .scan _ => 3#3
  | .copy _ => 4#3
  | .sendtx _ _ _ => 5#3
  | .window _ _ => 6#3

/-- STAT.BUSY: 1 iff PHASE ≠ IDLE (R33, R51). -/
def State.busy (s : State) : Bool := decide (s.phase ≠ .idle)

/-- STAT.RXNE: 1 iff the receive FIFO holds a byte (R33). -/
def State.rxne (s : State) : Bool := !s.rx.isEmpty

/-- The STAT word, its fields from bit 31 down to bit 0 (R33). -/
def State.stat (s : State) : Word :=
  0#21 ++ s.phase.code ++ BitVec.ofBool s.flags.rxOverrun ++ BitVec.ofBool s.flags.errIllegal ++
    BitVec.ofBool s.flags.errBusy ++ BitVec.ofBool s.flags.credOvf ++ BitVec.ofBool s.flags.noeol ++
    BitVec.ofBool s.flags.trunc ++ BitVec.ofBool s.rxne ++ BitVec.ofBool s.busy

/-- CLRERR clears the sticky flags and leaves the status flags (R271). -/
def Flags.clearErrors (f : Flags) : Flags := { f with errBusy := false, errIllegal := false, rxOverrun := false }

/-- A capture that finds the marker starts its own TRUNC and NOEOL at 0 (R176). -/
def Flags.startCapture (f : Flags) : Flags := { f with trunc := false, noeol := false }

/-- A byte of the line was discarded for lack of room (R177). -/
def Flags.setTrunc (f : Flags) : Flags := { f with trunc := true }

/-- The copy ended on an empty FIFO (R178). -/
def Flags.setNoeol (f : Flags) : Flags := { f with noeol := true }

/-- Every DCRED writes CRED_OVF (R235). -/
def Flags.putCredOvf (f : Flags) (v : Bool) : Flags := { f with credOvf := v }

end Sys2Proof.Machine
end

