-- ==== Sys2Proof/Machine/Decoders.lean ====
section
/-! DEFINITION. Protocol decoders with range validation: DSTAT, DCRED, DWORD, RDCRED (spec 43_protocol_decoders.md).
RESULT is written in the issue step also when the response line is held (R52 over R31: DEDUCED, unsafe, log 5). -/

namespace Sys2Proof.Machine

open Sys2Proof

/-! ### Status set -/

/-- The `state` value with number 0, 1 or 2 (R54); only reached after the range check. -/
def armStateOf : Nat → ArmState
  | 0 => .disarmed
  | 1 => .armed
  | _ => .alert

/-- The `method` value with number 0, 1 or 2 (R54); only reached after the range check. -/
def armMethodOf : Nat → ArmMethod
  | 0 => .none
  | 1 => .stay
  | _ => .away

/-- The `sensor` value with number 0, 1, 2 or 3 (R54); only reached after the range check. -/
def sensorOf : Nat → Sensor
  | 0 => .noneTriggered
  | 1 => .oneTriggered
  | 2 => .multipleTriggered
  | _ => .offline

/-- The triple at the fixed offsets 7, 9 and 11, if each digit is in its range, compared as integers (R231). -/
def State.decodeStatus (s : State) : Option Status :=
  let st := s.getDigit 7
  let me := s.getDigit 9
  let se := s.getDigit 11
  if 0 ≤ st ∧ st ≤ 2 ∧ 0 ≤ me ∧ me ≤ 2 ∧ 0 ≤ se ∧ se ≤ 3 then
    some ⟨armStateOf st.toNat, armMethodOf me.toNat, sensorOf se.toNat⟩
  else none

/-- DSTAT (R231). -/
def execDstat (s : State) : Host.Outcome State Fault Refusal :=
  .next (match s.decodeStatus with
    | some t => ((s.setHstat t).setResult 1#16).emitLine rspOk
    | none => (s.setResult 0#16).emitLine rspBadValue)

/-! ### Credentials -/

/-- What the credential field scan returns: (ss, ps, ovf) of R234. -/
structure CredScan where
  ssid : Bytes
  pass : Bytes
  ovf  : Bool
deriving DecidableEq, Repr

/-- The second loop of R234: the pass runs to the end of the text view, at most CRED_MAX = 16 bytes (00_scope.md R9). -/
def scanPass (ss ps : Bytes) : Bytes → CredScan
  | [] => ⟨ss, ps, false⟩
  | b :: l => if ps.length = 16 then ⟨ss, ps, true⟩ else scanPass ss (ps ++ [b]) l

/-- The first loop of R234: the ssid ends at the first ',' (0x2C), which is skipped, or at the end of the text view. -/
def scanSsid (ss : Bytes) : Bytes → CredScan
  | [] => ⟨ss, [], false⟩
  | b :: l =>
    if b = 0x2C#8 then scanPass ss [] l
    else if ss.length = 16 then ⟨ss, [], true⟩
    else scanSsid (ss ++ [b]) l

/-- The credential field scan over the text view, from offset 12 (R234). -/
def State.scanCredentials (s : State) : CredScan := scanSsid [] (s.text.drop 12)

/-- A field as a credential register: zero-padded to 16, with its length (R233). -/
def credentialOf (l : Bytes) : Credential := ⟨Vector.ofFn (fun i => l.getD i.val 0#8), Fin.ofNat 17 l.length⟩

/-- DCRED (R233, R235). -/
def execDcred (s : State) : Host.Outcome State Fault Refusal :=
  .next (
    let c := s.scanCredentials
    let ss := if c.ovf then [] else c.ssid
    let ps := if c.ovf then [] else c.pass
    (((s.setCredentials (credentialOf ss) (credentialOf ps)).setFlags (s.flags.putCredOvf c.ovf)).setResult
      (boolResult (!c.ovf))).emitLine rspOk)

/-! ### Single-word commands and credential read-back -/

/-- DWORD k (R240). It only recognises and acknowledges (R241). -/
def execDword (k : BitVec 4) (s : State) : Host.Outcome State Fault Refusal :=
  .next (s.withKeyword k (fun w =>
    if occurs w s.text then (s.setResult 1#16).emitLine rspOk else s.setResult 0#16))

/-- One byte of a credential register, 0 at and above 16 (R242). -/
def Credential.readByte (c : Credential) (i : Nat) : Byte := c.bytes.toList.getD i 0#8

/-- RDCRED sel, idx (R242); `raise Illegal` for sel above 1 (R108). -/
def execRdcred (sel idx : BitVec 8) (s : State) : Host.Outcome State Fault Refusal :=
  .next (
    if sel = 0#8 then s.setResult ((s.ssid.readByte idx.toNat).setWidth 16)
    else if sel = 1#8 then s.setResult ((s.pass.readByte idx.toNat).setWidth 16)
    else s.raiseIllegal)

end Sys2Proof.Machine
end

