-- ==== Sys2Proof/Machine/FrameBuffer.lean ====
section
/-! DEFINITION. FrameBuffer commands: CLR, GETB, GETD, SETB, TEXTLEN (spec 40_framebuffer.md). An index out of range is
a legal operand (R130). -/

namespace Sys2Proof.Machine

open Sys2Proof

/-- CLR (R134). RESULT unchanged. -/
def execClr (s : State) : Host.Outcome State Fault Refusal := .next s.fbClear

/-- GETB idx (R131). -/
def execGetb (idx : BitVec 8) (s : State) : Host.Outcome State Fault Refusal :=
  .next (s.setResult ((s.getByte idx.toNat).setWidth 16))

/-- GETD idx (R132). -/
def execGetd (idx : BitVec 8) (s : State) : Host.Outcome State Fault Refusal :=
  .next (s.setResult (digitResult (s.getDigit idx.toNat)))

/-- SETB idx, val (R133). -/
def execSetb (idx val : BitVec 8) (s : State) : Host.Outcome State Fault Refusal :=
  .next ((s.fbStore idx.toNat val).setResult (boolResult (decide (idx.toNat < s.cap))))

/-- TEXTLEN (R135). -/
def execTextlen (s : State) : Host.Outcome State Fault Refusal :=
  .next (s.setResult (countResult s.textLen))

end Sys2Proof.Machine
end

