-- ==== Sys2Proof/Machine/LineCapture.lean ====
section
/-! DEFINITION. Line capture: CAPTURE with its SETTLE, SCAN and COPY steps, and DRAIN (spec 41_line_capture.md). -/

namespace Sys2Proof.Machine

open Sys2Proof

/-- CAPTURE, issue step (R171). -/
def execCapture (s : State) : Host.Outcome State Fault Refusal :=
  .next (if s.rx.isEmpty then (s.setResult 0#16).complete else s.setPhase (.settle s.cfg.settleTicks))

/-- DRAIN (R180). -/
def execDrain (s : State) : Host.Outcome State Fault Refusal :=
  .next ((s.fbClear.setRx []).setResult (countResult s.rx.length))

/-- The marker progress function `next(p, b)` (R175). -/
def markerNext (p : Fin 4) (b : Byte) : Nat :=
  if b = marker.getD p.val 0#8 then p.val + 1
  else if b = 0x43#8 then 1
  else 0

/-- `marker_found()` (R176). -/
def State.markerFound (s : State) : State :=
  (s.fbClear.setFlags s.flags.startCapture).setPhase (.copy 0)

/-- The Sequencer's step in SCAN(p) (R173, R174). -/
def State.scanStep (s : State) (p : Fin 4) : State :=
  match s.rx with
  | [] => (s.setResult 0#16).complete
  | b :: rest =>
    if markerNext p b = 4 then (s.setRx rest).markerFound
    else (s.setRx rest).setPhase (.scan (Fin.ofNat 4 (markerNext p b)))

/-- `copy_end_noeol()` (R178). -/
def State.copyEndNoeol (s : State) : State :=
  ((s.setFlags s.flags.setNoeol).setResult 1#16).complete

/-- The Sequencer's step in COPY(w) (R177). -/
def State.copyStep (s : State) (w : Nat) : State :=
  match s.rx with
  | [] => s.copyEndNoeol
  | b :: rest =>
    let s' := s.setRx rest
    if b = 0x0A#8 then (s'.setResult 1#16).complete
    else if b = 0x0D#8 then s'.setPhase (.copy w)
    else if w < s.cap then (s'.fbStore w b).setPhase (.copy (w + 1))
    else (s'.setFlags s.flags.setTrunc).setPhase (.copy w)

end Sys2Proof.Machine
end

