-- ==== Sys2Proof/Machine/System.lean ====
section
/-! DEFINITION. System commands: NOP, CLRERR (spec 44_system.md). -/

namespace Sys2Proof.Machine

open Sys2Proof

/-- NOP (R270). -/
def execNop (s : State) : Host.Outcome State Fault Refusal := .next s

/-- CLRERR (R271). -/
def execClrerr (s : State) : Host.Outcome State Fault Refusal := .next (s.setFlags s.flags.clearErrors)

end Sys2Proof.Machine
end

