-- ==== Sys2Proof/Machine/Dispatch.lean ====
section
/-! DEFINITION. The meaning of each command: what its issue step does (spec 30_encoding.md R107). -/

namespace Sys2Proof.Machine

open Sys2Proof

/-- The issue step of command `i` (R14). -/
def exec (i : Instr) (s : State) : Host.Outcome State Fault Refusal :=
  match i with
  | .nop => Sys2Proof.Machine.execNop s
  | .clr => Sys2Proof.Machine.execClr s
  | .getb idx => Sys2Proof.Machine.execGetb idx s
  | .getd idx => Sys2Proof.Machine.execGetd idx s
  | .setb idx val => Sys2Proof.Machine.execSetb idx val s
  | .textlen => Sys2Proof.Machine.execTextlen s
  | .matchp k => Sys2Proof.Machine.execMatchp k s
  | .matchs k => Sys2Proof.Machine.execMatchs k s
  | .patset idx val => Sys2Proof.Machine.execPatset idx val s
  | .patlen n => Sys2Proof.Machine.execPatlen n s
  | .clrerr => Sys2Proof.Machine.execClrerr s
  | .capture => Sys2Proof.Machine.execCapture s
  | .drain => Sys2Proof.Machine.execDrain s
  | .send k t => Sys2Proof.Machine.execSend k t s
  | .field off => Sys2Proof.Machine.execField off s
  | .fieldn => Sys2Proof.Machine.execFieldn s
  | .resp k => Sys2Proof.Machine.execResp k s
  | .dstat => Sys2Proof.Machine.execDstat s
  | .dcred => Sys2Proof.Machine.execDcred s
  | .dword k => Sys2Proof.Machine.execDword k s
  | .rdcred sel idx => Sys2Proof.Machine.execRdcred sel idx s

end Sys2Proof.Machine
end

