-- ==== Sys2Proof/Machine/Registers.lean ====
section
/-! DEFINITION. What a Client read of the register port returns (spec 10_state.md R30-R41). -/

namespace Sys2Proof.Machine

open Sys2Proof

/-- The number of a `state` value (R54). -/
def armStateCode : ArmState → BitVec 2
  | .disarmed => 0#2
  | .armed => 1#2
  | .alert => 2#2

/-- The number of a `method` value (R54). -/
def armMethodCode : ArmMethod → BitVec 2
  | .none => 0#2
  | .stay => 1#2
  | .away => 2#2

/-- The number of a `sensor` value (R54). -/
def sensorCode : Sensor → BitVec 2
  | .noneTriggered => 0#2
  | .oneTriggered => 1#2
  | .multipleTriggered => 2#2
  | .offline => 3#2

/-- HSTAT: bits 1:0 state, 3:2 method, 5:4 sensor (R34). -/
def hstatWord (t : Status) : Word := 0#26 ++ sensorCode t.sensor ++ armMethodCode t.method ++ armStateCode t.state

/-- CREDLEN: bits 4:0 SSID_LEN, bits 12:8 PASS_LEN (R38). -/
def State.credLenWord (s : State) : Word :=
  0#19 ++ BitVec.ofNat 5 s.pass.len.val ++ 0#3 ++ BitVec.ofNat 5 s.ssid.len.val

/-- The word at register-port offset `off`; CMD and the reserved offsets read 0 (R30, R41). -/
def State.readReg (s : State) (off : BitVec 8) : Word :=
  match off.toNat with
  | 0x01 => s.result.setWidth 32
  | 0x02 => s.stat
  | 0x03 => hstatWord s.hstat
  | 0x04 => (BitVec.ofNat 16 s.rx.length).setWidth 32
  | 0x05 => (BitVec.ofNat 16 s.tx.length).setWidth 32
  | 0x06 => (BitVec.ofNat 8 s.cap).setWidth 32
  | 0x07 => s.credLenWord
  | 0x08 => s.cursor.setWidth 32
  | 0x09 => (BitVec.ofNat 5 s.patLen.val).setWidth 32
  | _ => 0#32

end Sys2Proof.Machine
end

