-- ==== Sys2Proof/Machine/Agents.lean ====
section
/-! DEFINITION. The step of each agent (spec 00_scope.md R6): Client, Sequencer, PeerRx, PeerTx, Timebase. -/

namespace Sys2Proof.Machine

open Sys2Proof

/-- The Client writes `w` to CMD: dropped while BUSY, else refused if illegal, else executed (R32, R283-R285). -/
def issue (w : Word) (s : State) : Host.Outcome State Fault Refusal :=
  if s.busy then .next s.dropBusy
  else match decode w with
    | .ok i => exec i s
    | .error _ => .next s.raiseIllegal

/-- The Client writes the register port: offset 0x00 is CMD, every other write is ignored (R32, R41). -/
def clientWrite (off : BitVec 8) (w : Word) (s : State) : Host.Outcome State Fault Refusal :=
  if off = 0#8 then issue w s else .next s

/-- The Client reads the register port: it is given the state before the step, and the block does not change (R41). -/
def State.clientRead (s : State) (off : BitVec 8) : State :=
  s.setEnv { s.env with reads := s.env.reads ++ [(off, s.readReg off)] }

/-- The Sequencer's step of the phase is enabled (R51). -/
def State.sequencerEnabled (s : State) : Bool :=
  match s.phase with
  | .idle => false
  | .emit line => decide (line.length ≤ s.txFree)
  | .settle n => decide (n = 0#16)
  | .scan _ => true
  | .copy _ => true
  | .sendtx line _ _ => decide (line.length ≤ s.txFree)
  | .window n _ => decide (n = 0#16)

/-- The Sequencer's step of the phase (R51). -/
def State.sequencerEffect (s : State) : State :=
  match s.phase with
  | .idle => s
  | .emit line => (s.txPush line).complete
  | .settle _ => s.setPhase (.scan 0)
  | .scan p => s.scanStep p
  | .copy w => s.copyStep w
  | .sendtx line w t => s.startWindow line w t
  | .window _ w => s.closeWindow w

/-- The Sequencer's turn: its step when that is enabled, else nothing (R6, R51; log 2). -/
def State.sequencerStep (s : State) : State := if s.sequencerEnabled then s.sequencerEffect else s

/-- One TICK: it counts down SETTLE and WINDOW above 0 and has no other effect (R51, R172, R203). -/
def State.tick (s : State) : State :=
  match s.phase with
  | .idle => s
  | .emit _ => s
  | .settle n => if n = 0#16 then s else s.setPhase (.settle (n - 1#16))
  | .scan _ => s
  | .copy _ => s
  | .sendtx _ _ _ => s
  | .window n w => if n = 0#16 then s else s.setPhase (.window (n - 1#16) w)

/-- One agent step (R6, R7). -/
def runAction (a : Action) (s : State) : Host.Outcome State Fault Refusal :=
  match a with
  | .writeReg off w => clientWrite off w s
  | .readReg off => .next (s.clientRead off)
  | .reset => .next s.hardReset
  | .sequencer => .next s.sequencerStep
  | .peerRx b => .next (s.receive b)
  | .peerTx => .next s.transmit
  | .tick => .next s.tick

/-- The next agent step, and the environment once it is taken: the first listed step, or a free one (log 1). -/
def Env.nextAction (e : Env) : Action × Env :=
  match e.schedule with
  | a :: rest => (a, { e with schedule := rest })
  | [] => (Config.freeAction e.turn, { e with turn := e.turn + 1 })

/-- The agent steps that make the block run command word `w` next: the Client writes it to CMD. -/
def State.fetchWord (s : State) (w : Word) : State :=
  (s.setEnv { s.env with schedule := .writeReg 0#8 w :: s.env.schedule }).setPhase .idle

end Sys2Proof.Machine
end

