-- ==== Sys2Proof/Machine/Step.lean ====
section
/-! DEFINITION. One step of a run: the next agent's step (spec 00_scope.md R7). -/

namespace Sys2Proof.Machine

open Sys2Proof

/-- The next agent takes its step. -/
def step (s : State) : Host.Outcome State Fault Refusal :=
  runAction s.env.nextAction.1 (s.setEnv s.env.nextAction.2)

/-- `s` with the command word given by the opcode table's bits as the next CMD write, and no command in progress to
drop it (R43, R284; log 8). -/
def State.withFetchWord (s : State) (nbits w : Nat) : State := s.fetchWord (tableWord nbits w)

end Sys2Proof.Machine
end

