-- ==== Sys2Proof/Machine/Assembler.lean ====
section
/-! DEFINITION. The assembler of spec 30_encoding.md R111 and its pseudo-instructions R112: a line of text to the commands
it stands for. Lexical conventions the rules leave open are log 15. -/

namespace Sys2Proof.Machine

open Sys2Proof

/-- The bytes of an ASCII string (00_scope.md R16). -/
def ascii (s : String) : Bytes := s.toList.map (fun c => BitVec.ofNat 8 c.toNat)

/-- A lexical element of a line. -/
inductive Token where
  | word (w : Bytes)
  | char (b : Byte)
  | str (s : Bytes)
  | comma
deriving DecidableEq, Repr

/-- What the lexer is inside of; accumulated bytes are newest first. -/
inductive LexMode where
  | between
  | word (w : Bytes)
  | charOpen
  | charClose (b : Byte)
  | str (s : Bytes)
deriving DecidableEq, Repr

/-- Space and tab. -/
def isBlank (b : Byte) : Bool := b == 0x20#8 || b == 0x09#8

/-- A byte that may stand in a word: it does not separate, quote or start a comment. -/
def isWordByte (b : Byte) : Bool :=
  !isBlank b && b != 0x3B#8 && b != 0x2C#8 && b != 0x27#8 && b != 0x22#8

/-- A text that is one word. -/
def isWord (w : Bytes) : Bool := !w.isEmpty && w.all isWordByte

/-- The tokens of a line, newest first: `;` starts a comment, `'c'` is a character, `"s"` a string, a comma separates,
anything else is a word. A quote left open, or opened inside a word, is refused. A byte of 0x80 or above, which has no
ASCII code, is taken verbatim inside quotes (DESIGN CHOICE, log 15). -/
def lex : LexMode → List Token → Bytes → Option (List Token)
  | .between, ts, [] => some ts
  | .word w, ts, [] => some (.word w.reverse :: ts)
  | .charOpen, _, [] => none
  | .charClose _, _, [] => none
  | .str _, _, [] => none
  | .between, ts, b :: l =>
    if isBlank b then lex .between ts l
    else if b = 0x3B#8 then some ts
    else if b = 0x2C#8 then lex .between (.comma :: ts) l
    else if b = 0x27#8 then lex .charOpen ts l
    else if b = 0x22#8 then lex (.str []) ts l
    else lex (.word [b]) ts l
  | .word w, ts, b :: l =>
    if isBlank b then lex .between (.word w.reverse :: ts) l
    else if b = 0x3B#8 then some (.word w.reverse :: ts)
    else if b = 0x2C#8 then lex .between (.comma :: .word w.reverse :: ts) l
    else if b = 0x27#8 then none
    else if b = 0x22#8 then none
    else lex (.word (b :: w)) ts l
  | .charOpen, ts, b :: l => lex (.charClose b) ts l
  | .charClose c, ts, b :: l => if b = 0x27#8 then lex .between (.char c :: ts) l else none
  | .str s, ts, b :: l => if b = 0x22#8 then lex .between (.str s.reverse :: ts) l else lex (.str (b :: s)) ts l

/-- The operands after the first: each stands behind one comma. -/
def moreOperands : List Token → Option (List Token)
  | [] => some []
  | [_] => none
  | .comma :: t :: ts => if t = .comma then none else (moreOperands ts).map (fun l => t :: l)
  | .word _ :: _ :: _ => none
  | .char _ :: _ :: _ => none
  | .str _ :: _ :: _ => none

/-- `operand, operand`, or none at all (R111). -/
def operandList : List Token → Option (List Token)
  | [] => some []
  | t :: ts => if t = .comma then none else (moreOperands ts).map (fun l => t :: l)

/-! ### Operands (R111) -/

/-- The value of a digit, decimal or hexadecimal. -/
def digitValue (b : Byte) : Nat :=
  let n := b.toNat
  if 0x30 ≤ n ∧ n ≤ 0x39 then n - 0x30
  else if 0x41 ≤ n ∧ n ≤ 0x46 then n - 0x37
  else if 0x61 ≤ n ∧ n ≤ 0x66 then n - 0x57
  else 16

/-- A nonempty digit string in a base. -/
def numberIn (base : Nat) (w : Bytes) : Option Nat :=
  if w = [] then none
  else if w.all (fun b => decide (digitValue b < base)) then
    some (w.foldl (fun n b => n * base + digitValue b) 0)
  else none

/-- An integer, decimal or with the mark `0x` hexadecimal. -/
def number (w : Bytes) : Option Nat :=
  if w.take 2 = [0x30#8, 0x78#8] then numberIn 16 (w.drop 2) else numberIn 10 w

/-- An integer operand of at most `max`. -/
def boundedNumber (max : Nat) : Token → Option Nat
  | .word w => (number w).filter (fun n => decide (n ≤ max))
  | .char _ => none
  | .str _ => none
  | .comma => none

/-- `idx`, `off`, `n`: 0..255. -/
def byteOperand (t : Token) : Option (BitVec 8) := (boundedNumber 255 t).map (BitVec.ofNat 8)

/-- `val`: 0..255 or a character literal. -/
def valOperand : Token → Option (BitVec 8)
  | .char b => some b
  | .word w => byteOperand (.word w)
  | .str _ => none
  | .comma => none

/-- The keyword names of R110. -/
def keywordNames : List (Bytes × BitVec 4) :=
  [(ascii "MARKER", 0), (ascii "KW_STATUS", 1), (ascii "KW_CREDENTIALS", 2), (ascii "KW_CHANGE", 3),
    (ascii "KW_RESET", 4), (ascii "KW_RETRY", 5), (ascii "KW_OK", 6), (ascii "KW_RSP_OK", 7),
    (ascii "KW_RSP_BAD_VALUE", 8), (ascii "PAT", 15)]

/-- `k`: a keyword name, or 0..8 or 15. -/
def keywordOperand (t : Token) : Option (BitVec 4) :=
  match t with
  | .word w =>
    match keywordNames.lookup w with
    | some k => some k
    | none => ((boundedNumber 15 t).map (BitVec.ofNat 4)).filter validKeyword
  | .char _ => none
  | .str _ => none
  | .comma => none

/-- `T`: 0..65535. -/
def timeoutOperand (t : Token) : Option (BitVec 16) := (boundedNumber 65535 t).map (BitVec.ofNat 16)

/-- `sel`: SSID, PASS, or 0..1. -/
def selectorOperand (t : Token) : Option (BitVec 8) :=
  if t = .word (ascii "SSID") then some 0#8
  else if t = .word (ascii "PASS") then some 1#8
  else (boundedNumber 1 t).map (BitVec.ofNat 8)

/-! ### Commands -/

/-- The forms without operands, pseudo-instructions among them (R111, R112). -/
def bareForms : List (Bytes × Instr) :=
  [(ascii "NOP", .nop), (ascii "CLR", .clr), (ascii "TEXTLEN", .textlen), (ascii "CLRERR", .clrerr),
    (ascii "CAPTURE", .capture), (ascii "DRAIN", .drain), (ascii "FIELDN", .fieldn), (ascii "DSTAT", .dstat),
    (ascii "DCRED", .dcred)] ++
  [(ascii "ISSTATUS", .matchp 1), (ascii "ISCRED", .matchp 2), (ascii "DCHANGE", .dword 3), (ascii "DRESET", .dword 4),
    (ascii "DRETRY", .dword 5), (ascii "RSP_OK", .resp 7), (ascii "RSP_BAD", .resp 8)]

/-- The forms with one operand that stand for one command (R111, R112). -/
def unaryForm (m : Bytes) (t : Token) : Option Instr :=
  if m = ascii "GETB" then (byteOperand t).map .getb
  else if m = ascii "GETD" then (byteOperand t).map .getd
  else if m = ascii "MATCHP" then (keywordOperand t).map .matchp
  else if m = ascii "MATCHS" then (keywordOperand t).map .matchs
  else if m = ascii "PATLEN" then (byteOperand t).map .patlen
  else if m = ascii "FIELD" then (byteOperand t).map .field
  else if m = ascii "RESP" then (keywordOperand t).map .resp
  else if m = ascii "DWORD" then (keywordOperand t).map .dword
  else if m = ascii "AWAIT_OK" then (timeoutOperand t).map (.send 6)
  else none

/-- The forms with two operands (R111). -/
def binaryForm (m : Bytes) (t u : Token) : Option Instr :=
  if m = ascii "SETB" then (byteOperand t).bind (fun a => (valOperand u).map (.setb a))
  else if m = ascii "PATSET" then (byteOperand t).bind (fun a => (valOperand u).map (.patset a))
  else if m = ascii "SEND" then (keywordOperand t).bind (fun a => (timeoutOperand u).map (.send a))
  else if m = ascii "RDCRED" then (selectorOperand t).bind (fun a => (byteOperand u).map (.rdcred a))
  else none

/-- One command per byte of `s`, from index `i` up. -/
def byteCommands (mk : BitVec 8 → BitVec 8 → Instr) : Nat → Bytes → List Instr
  | _, [] => []
  | i, b :: s => mk (BitVec.ofNat 8 i) b :: byteCommands mk (i + 1) s

/-- `LDPAT "s"` (R112). -/
def loadPattern (s : Bytes) : Option (List Instr) :=
  if s.length ≤ 16 then some (byteCommands .patset 0 s ++ [.patlen (BitVec.ofNat 8 s.length)]) else none

/-- `LDLINE "s"` for a block of capacity `cap` (R112). -/
def loadLine (cap : Nat) (s : Bytes) : Option (List Instr) :=
  if s.length ≤ cap ∧ s.all (fun b => b != 0#8) = true then some (.clr :: byteCommands .setb 0 s) else none

/-- A mnemonic with its operands. -/
def assembleForm (cap : Nat) (m : Bytes) : List Token → Option (List Instr)
  | [] => (bareForms.lookup m).map (fun i => [i])
  | [.str s] =>
    if m = ascii "LDPAT" then loadPattern s
    else if m = ascii "LDLINE" then loadLine cap s
    else none
  | [t] => (unaryForm m t).map (fun i => [i])
  | [t, u] => (binaryForm m t u).map (fun i => [i])
  | _ :: _ :: _ :: _ => none

/-- The commands of one line, for a block of capacity `cap`; a blank line or a comment has none, and a line that is not
of a form of R111 or R112, or has an operand outside its range, is refused. -/
def assembleLine (cap : Nat) (line : Bytes) : Option (List Instr) :=
  match (lex .between [] line).map List.reverse with
  | none => none
  | some [] => some []
  | some (.word m :: ts) => (operandList ts).bind (assembleForm cap m)
  | some (.char _ :: _) => none
  | some (.str _ :: _) => none
  | some (.comma :: _) => none

/-- The command words of a program, one line per element: the order of CMD writes, each issued only after the previous
one has completed (R112). -/
def assemble (cap : Nat) : List Bytes → Option (List Word)
  | [] => some []
  | l :: ls =>
    match assembleLine cap l with
    | none => none
    | some is => (assemble cap ls).map (fun ws => is.map encode ++ ws)

end Sys2Proof.Machine
end

