-- ==== Sys2Proof/Machine/Catalog.lean ====
section
/-! DEFINITION. The wire formats of the protocol catalog (spec 43_protocol_decoders.md R232, R249, R250). The client
composes these lines and the block sends them verbatim; the renderings of the fields are open, so a field is a byte
string the client gives (log 14). -/

namespace Sys2Proof.Machine

open Sys2Proof

/-- The ASCII digit of a 2-bit enumeration number: '0' + value (R232). -/
def digitByte (c : BitVec 2) : Byte := 0x30#8 + c.setWidth 8

/-- The status line of R232, without marker and EOL: `STATUS:`, state, ',', method, ',', sensor. -/
def statusLine (t : Status) : Bytes :=
  [0x53, 0x54, 0x41, 0x54, 0x55, 0x53, 0x3A, digitByte (armStateCode t.state), 0x2C,
    digitByte (armMethodCode t.method), 0x2C, digitByte (sensorCode t.sensor)]

/-- The credentials line of R230, without marker and EOL: `CREDENTIALS:`, ssid, ',', pass. -/
def credentialsLine (ssid pass : Bytes) : Bytes :=
  [0x43, 0x52, 0x45, 0x44, 0x45, 0x4E, 0x54, 0x49, 0x41, 0x4C, 0x53, 0x3A] ++ ssid ++ [0x2C#8] ++ pass

/-- The outbound messages of R249, with their rendered fields. -/
inductive Outbound where
  | deviceIdentity (id : Bytes)
  | networkInfo (ssid rssi ip : Bytes)
  | notConnected
  | scanStart (count : Bytes)
  | scanEntry (ssid rssi encryption : Bytes)
  | scanEnd
  | statusPush (t : Status)
deriving DecidableEq, Repr

/-- The line the client composes for a message, without EOL (R249). -/
def Outbound.line : Outbound → Bytes
  | .deviceIdentity i => marker ++ [0x44, 0x45, 0x56, 0x49, 0x43, 0x45, 0x5F, 0x49, 0x44, 0x3A] ++ i
  | .networkInfo a b c => marker ++ [0x49, 0x4E, 0x46, 0x4F, 0x3A] ++ a ++ [0x2C#8] ++ b ++ [0x2C#8] ++ c
  | .notConnected =>
    marker ++ [0x44, 0x49, 0x53, 0x43, 0x4F, 0x4E, 0x4E, 0x45, 0x43, 0x54, 0x45, 0x44]
  | .scanStart n => marker ++ [0x53, 0x54, 0x41, 0x52, 0x54, 0x5F, 0x4C, 0x49, 0x53, 0x54, 0x3A] ++ n
  | .scanEntry a b c =>
    marker ++ [0x4E, 0x45, 0x54, 0x57, 0x4F, 0x52, 0x4B, 0x3A] ++ a ++ [0x2C#8] ++ b ++ [0x2C#8] ++ c
  | .scanEnd => marker ++ [0x45, 0x4E, 0x44, 0x5F, 0x4C, 0x49, 0x53, 0x54]
  | .statusPush t => marker ++ statusLine t

/-- The keyword every outbound message awaits: KW_OK (R249). -/
def awaitedKeyword : BitVec 4 := 6#4

/-- The message is a list transfer (start, entry, end), whose timeout is doubled (R250). -/
def Outbound.isListTransfer : Outbound → Bool
  | .deviceIdentity _ => false
  | .networkInfo _ _ _ => false
  | .notConnected => false
  | .scanStart _ => true
  | .scanEntry _ _ _ => true
  | .scanEnd => true
  | .statusPush _ => false

/-- The timeout in ticks: one unit, two for a list transfer (R250). -/
def Outbound.timeout (p : Params) (m : Outbound) : BitVec 16 :=
  if m.isListTransfer then p.timeoutUnitTicks.setWidth 16 * 2#16 else p.timeoutUnitTicks.setWidth 16

end Sys2Proof.Machine
end

