-- ==== Sys2Proof/Safety.lean ====
section
/-! DEFINITION. The terms claims use: the invariant of every step, runs of listed agent steps, infinite runs and their
fairness (spec 00_scope.md R7, R8), and what a piece of source text stands for (30_encoding.md R111). -/

namespace Sys2Proof.Machine

open Sys2Proof

/-- Bytes at and above the length are 0 (10_state.md R47). -/
def Credential.Padded (c : Credential) : Prop := ∀ i : Fin 16, c.len.val ≤ i.val → c.bytes[i] = 0#8

/-- The state a phase carries is one a command can have put there: lines end with EOL and fit an empty transmit FIFO,
the settle counter started at SETTLE_TICKS, the copy index is at most CAP with nothing stored at or above it, patterns
are at most 16 bytes (10_state.md R51; 20_memory.md R78; 41_line_capture.md R172, R176, R177). -/
def State.PhaseOk (s : State) : Prop :=
  match s.phase with
  | .idle => True
  | .emit line => line.length ≤ 18 ∧ eol <:+ line
  | .settle n => n.toNat ≤ s.cfg.settleTicks.toNat
  | .scan _ => True
  | .copy w => w ≤ s.cap ∧ Memory.below s.fb w = true
  | .sendtx line w _ => line.length ≤ s.cap + 2 ∧ eol <:+ line ∧ w.length ≤ 16
  | .window _ w => w.length ≤ 16

/-- What every step keeps. -/
structure State.Inv (s : State) : Prop where
  /-- The FrameBuffer's storage is in canonical form. -/
  memory_wf : Memory.wf s.fb = true
  /-- Nothing is stored at or above CAP (R45, R71). -/
  memory_below : Memory.below s.fb s.cap = true
  /-- The receive FIFO holds at most RX_DEPTH bytes (R49). -/
  rx_fits : s.rx.length ≤ s.cfg.rxDepth
  /-- The transmit FIFO holds at most TX_DEPTH bytes (R50). -/
  tx_fits : s.tx.length ≤ s.cfg.txDepth
  /-- CRED_SSID is zero-padded (R47). -/
  ssid_padded : s.ssid.Padded
  /-- CRED_PASS is zero-padded (R47). -/
  pass_padded : s.pass.Padded
  /-- The phase's carried state is one the spec's steps can produce. -/
  phase_ok : s.PhaseOk

/-- The agent steps `l`, first one first (00_scope.md R7). -/
def runActions : List Action → State → Host.Outcome State Fault Refusal
  | [], s => .next s
  | a :: l, s =>
    match runAction a s with
    | .next t => runActions l t
    | .fault r => .fault r
    | .refused r => .refused r

/-- The byte an agent step delivers to the block, if it delivers one (R76). -/
def actionReceived : Action → Option Byte
  | .peerRx b => some b
  | .writeReg _ _ => none
  | .readReg _ => none
  | .reset => none
  | .sequencer => none
  | .peerTx => none
  | .tick => none

/-- `n` turns of the Sequencer. -/
def State.sequencerSteps : Nat → State → State
  | 0, s => s
  | n + 1, s => State.sequencerSteps n s.sequencerStep

/-- `n` TICKs. -/
def State.ticks : Nat → State → State
  | 0, s => s
  | n + 1, s => State.ticks n s.tick

/-! ### Infinite runs and fairness (R6, R7, R8) -/

/-- The five agents (R6). -/
inductive Agent where
  | client
  | sequencer
  | peerRx
  | peerTx
  | timebase
deriving DecidableEq, Repr

/-- The agent that takes a step (R6). -/
def actionAgent : Action → Agent
  | .writeReg _ _ => .client
  | .readReg _ => .client
  | .reset => .client
  | .sequencer => .sequencer
  | .peerRx _ => .peerRx
  | .peerTx => .peerTx
  | .tick => .timebase

/-- The agent has a step in this state: the Sequencer's by R51, PeerTx's by R78, the others always. -/
def State.agentEnabled (s : State) : Agent → Bool
  | .client => true
  | .sequencer => s.sequencerEnabled
  | .peerRx => true
  | .peerTx => !s.tx.isEmpty
  | .timebase => true

/-- The agent steps `acts` lead through the states `r`, in any interleaving (R7). Which steps State lists as coming is the
model's own and may change freely between them, so that a run of `step` is a run (Laws/Fairness.lean; log 1). -/
def IsRun (acts : Nat → Action) (r : Nat → State) : Prop :=
  ∀ n, ∃ (schedule : List Action) (turn : Nat),
    runAction (acts n) ((r n).setEnv { (r n).env with schedule := schedule, turn := turn }) = .next (r (n + 1))

/-- Weak fairness of one agent: if its step stays enabled, it eventually takes one (R8). -/
def FairFor (g : Agent) (acts : Nat → Action) (r : Nat → State) : Prop :=
  ∀ n, (∀ m, n ≤ m → (r m).agentEnabled g = true) → ∃ m, n ≤ m ∧ actionAgent (acts m) = g

/-- The liveness assumption of R8: weak fairness of the agents it does not except. The Timebase, PeerRx and PeerTx are
not required ever to step (log 18). -/
def WeaklyFair (acts : Nat → Action) (r : Nat → State) : Prop :=
  FairFor .client acts r ∧ FairFor .sequencer acts r

/-! ### What source text stands for (R111) -/

/-- `idx`, `off`, `n` and an integer `val`: 0..255. -/
def ByteText (w : Bytes) (b : BitVec 8) : Prop := ∃ n, number w = some n ∧ n ≤ 255 ∧ b.toNat = n

/-- `T`: 0..65535. -/
def TimeText (w : Bytes) (t : BitVec 16) : Prop := ∃ n, number w = some n ∧ n ≤ 65535 ∧ t.toNat = n

/-- `k`: a keyword name of R110, or an integer 0..8 or 15. -/
def KeywordText (w : Bytes) (k : BitVec 4) : Prop :=
  (∃ p ∈ [("MARKER", 0), ("KW_STATUS", 1), ("KW_CREDENTIALS", 2), ("KW_CHANGE", 3), ("KW_RESET", 4), ("KW_RETRY", 5),
      ("KW_OK", 6), ("KW_RSP_OK", 7), ("KW_RSP_BAD_VALUE", 8), ("PAT", 15)], w = ascii p.1 ∧ k.toNat = p.2) ∨
  ∃ n, number w = some n ∧ (n ≤ 8 ∨ n = 15) ∧ k.toNat = n

/-- `sel`: SSID, PASS, or 0..1. -/
def SelectorText (w : Bytes) (sel : BitVec 8) : Prop :=
  (w = ascii "SSID" ∧ sel = 0#8) ∨ (w = ascii "PASS" ∧ sel = 1#8) ∨ ∃ n, number w = some n ∧ n ≤ 1 ∧ sel.toNat = n

/-- A form with one operand: a text that stands for an operand value gives the command, any other is refused. -/
def UnaryForm {α : Type} (m : String) (text : Bytes → α → Prop) (mk : α → Instr) : Prop :=
  ∀ (cap : Nat) (w : Bytes), isWord w = true →
    (∀ a, text w a → assembleLine cap (ascii m ++ 0x20#8 :: w) = some [mk a]) ∧
    ((∀ a, ¬ text w a) → assembleLine cap (ascii m ++ 0x20#8 :: w) = none)

/-- A form with two operands, separated by a comma. -/
def BinaryForm {α β : Type} (m : String) (text : Bytes → α → Prop) (text' : Bytes → β → Prop) (mk : α → β → Instr) :
    Prop :=
  ∀ (cap : Nat) (w w' : Bytes), isWord w = true → isWord w' = true →
    (∀ a b, text w a → text' w' b →
      assembleLine cap (ascii m ++ 0x20#8 :: (w ++ 0x2C#8 :: 0x20#8 :: w')) = some [mk a b]) ∧
    ((∀ a, ¬ text w a) ∨ (∀ b, ¬ text' w' b) →
      assembleLine cap (ascii m ++ 0x20#8 :: (w ++ 0x2C#8 :: 0x20#8 :: w')) = none)

/-- A form with an index and a character literal. -/
def CharForm (m : String) (mk : BitVec 8 → BitVec 8 → Instr) : Prop :=
  ∀ (cap : Nat) (w : Bytes) (c : Byte), isWord w = true →
    (∀ a, ByteText w a → assembleLine cap (ascii m ++ 0x20#8 :: (w ++ [0x2C#8, 0x20#8, 0x27#8, c, 0x27#8])) =
      some [mk a c]) ∧
    ((∀ a, ¬ ByteText w a) →
      assembleLine cap (ascii m ++ 0x20#8 :: (w ++ [0x2C#8, 0x20#8, 0x27#8, c, 0x27#8])) = none)

end Sys2Proof.Machine
end

