-- ==== Sys2Proof/Certificates/Slice0/Obligations.lean ====
section
/-! DEFINITION. The statements about the SLP model. Each docstring names the rules of spec/ it formalises. A state
update written `{ s with … }` says that every other field of State keeps its value; FrameBuffer contents are said
through `Memory.read`, one byte at a time. -/

open Sys2Proof Sys2Proof.Machine

/-! ### Encoding -/

/-- Decoding the word of a well-formed command gives it back, for every command and every operand value
(R101-R108). -/
def Obligations.DecodeOfEncode : Prop :=
  ∀ i : Instr, i.wellFormed = true → decode (encode i) = .ok i

/-- Each legal word is the word of exactly the command it decodes to, and that command is well formed (R101-R108). -/
def Obligations.EncodeOfDecode : Prop :=
  ∀ (w : Word) (i : Instr), decode w = .ok i → encode i = w ∧ i.wellFormed = true

/-- The decoder accepts a word exactly when `legal(w)` holds, written here as R108 writes it: opcode by opcode, the
fields that must be 0, `validk(k)` and the selector bound. -/
def Obligations.DecoderAcceptsExactlyLegalWords : Prop :=
  ∀ w : Word,
    (∃ i, decode w = .ok i) ↔
      (∃ n, n ∈ [0x00, 0x01, 0x05, 0x0F, 0x10, 0x11, 0x22, 0x30, 0x31] ∧ w.toNat / 2 ^ 24 = n ∧
          w.toNat % 2 ^ 24 = 0) ∨
      (∃ n, n ∈ [0x02, 0x03, 0x09, 0x21] ∧ w.toNat / 2 ^ 24 = n ∧ w.toNat % 2 ^ 16 = 0) ∨
      (∃ n, n ∈ [0x04, 0x08] ∧ w.toNat / 2 ^ 24 = n ∧ w.toNat / 2 ^ 8 % 2 ^ 8 = 0) ∨
      (w.toNat / 2 ^ 24 = 0x33 ∧ w.toNat / 2 ^ 8 % 2 ^ 8 = 0 ∧ w.toNat / 2 ^ 16 % 2 ^ 8 ≤ 1) ∨
      (∃ n, n ∈ [0x06, 0x07, 0x23, 0x32] ∧ w.toNat / 2 ^ 24 = n ∧ w.toNat / 2 ^ 20 % 2 ^ 4 = 0 ∧
          w.toNat % 2 ^ 16 = 0 ∧ (w.toNat / 2 ^ 16 % 2 ^ 4 ≤ 8 ∨ w.toNat / 2 ^ 16 % 2 ^ 4 = 15)) ∨
      (w.toNat / 2 ^ 24 = 0x20 ∧ w.toNat / 2 ^ 20 % 2 ^ 4 = 0 ∧
          (w.toNat / 2 ^ 16 % 2 ^ 4 ≤ 8 ∨ w.toNat / 2 ^ 16 % 2 ^ 4 = 15))

/-- The encoding examples of R113, legal and illegal. -/
def Obligations.EncodingExamples : Prop :=
  decode 0x00000000#32 = .ok .nop ∧ decode 0x01000000#32 = .ok .clr ∧
  decode 0x02050000#32 = .ok (.getb 5) ∧ decode 0x03070000#32 = .ok (.getd 7) ∧
  decode 0x04030041#32 = .ok (.setb 3 0x41) ∧ decode 0x05000000#32 = .ok .textlen ∧
  decode 0x06010000#32 = .ok (.matchp 1) ∧ decode 0x07030000#32 = .ok (.matchs 3) ∧
  decode 0x0801004B#32 = .ok (.patset 1 0x4B) ∧ decode 0x09020000#32 = .ok (.patlen 2) ∧
  decode 0x0F000000#32 = .ok .clrerr ∧ decode 0x10000000#32 = .ok .capture ∧
  decode 0x11000000#32 = .ok .drain ∧ decode 0x200601F4#32 = .ok (.send 6 500) ∧
  decode 0x200F0000#32 = .ok (.send 15 0) ∧ decode 0x21070000#32 = .ok (.field 7) ∧
  decode 0x22000000#32 = .ok .fieldn ∧ decode 0x23070000#32 = .ok (.resp 7) ∧
  decode 0x30000000#32 = .ok .dstat ∧ decode 0x31000000#32 = .ok .dcred ∧
  decode 0x32040000#32 = .ok (.dword 4) ∧ decode 0x33010003#32 = .ok (.rdcred 1 3) ∧
  (∀ w ∈ [0x01000001#32, 0x06090000#32, 0x33020000#32, 0x40000000#32], ∀ i, decode w ≠ .ok i)

/-- `Keyword(k)` is the byte string of R110 for k = 0..8, `PAT[0..PATLEN)` for k = 15, and nothing for 9..14. -/
def Obligations.KeywordBytes : Prop :=
  ∀ s : State,
    s.keyword 0 = some [0x43, 0x4D, 0x44, 0x2B] ∧
    s.keyword 1 = some [0x53, 0x54, 0x41, 0x54, 0x55, 0x53, 0x3A] ∧
    s.keyword 2 = some [0x43, 0x52, 0x45, 0x44, 0x45, 0x4E, 0x54, 0x49, 0x41, 0x4C, 0x53, 0x3A] ∧
    s.keyword 3 = some [0x43, 0x48, 0x41, 0x4E, 0x47, 0x45] ∧
    s.keyword 4 = some [0x52, 0x45, 0x53, 0x45, 0x54] ∧
    s.keyword 5 = some [0x52, 0x45, 0x54, 0x52, 0x59] ∧
    s.keyword 6 = some [0x4F, 0x4B] ∧
    s.keyword 7 = some [0x52, 0x53, 0x50, 0x2B, 0x4F, 0x4B] ∧
    s.keyword 8 = some [0x52, 0x53, 0x50, 0x2B, 0x42, 0x41, 0x44, 0x5F, 0x56, 0x41, 0x4C, 0x55, 0x45] ∧
    (∃ w, s.keyword 15 = some w ∧ w.length = s.patLen.val ∧ ∀ j : Fin 16, j.val < s.patLen.val → w[j.val]? = some s.pat[j]) ∧
    (∀ k : BitVec 4, 9 ≤ k.toNat → k.toNat ≤ 14 → s.keyword k = none)

/-- The assembler's forms and refusals (R111, R112; what a line may look like beyond R111's words is the model's, log 15).
What it emits is always well formed and legal. Integers are decimal digits, or hexadecimal digits after `0x`. Each form
of R111, and each pseudo-instruction of R112, gives the commands its table row names; an operand outside its range is
refused: an integer above 255 (idx, off, n, val) or 65535 (T), a keyword or selector that is none, an LDPAT of more than
16 bytes, an LDLINE of more than CAP bytes or with a zero byte. A word that is no form without operands is refused alone,
and a form without operands refuses one. A comment is not read. -/
def Obligations.AssemblerFormsAndRefusals : Prop :=
  (∀ (cap : Nat) (line : Bytes) (is : List Instr), assembleLine cap line = some is →
    ∀ i ∈ is, i.wellFormed = true ∧ legal (encode i) = true) ∧
  (∀ ds : List (Fin 10), ds ≠ [] →
    number (ds.map (fun d => BitVec.ofNat 8 (0x30 + d.val))) = some (Nat.ofDigits 10 (ds.reverse.map Fin.val))) ∧
  (∀ ds : List (Fin 16), ds ≠ [] →
    number (ascii "0x" ++ ds.map (fun d => BitVec.ofNat 8 (if d.val < 10 then 0x30 + d.val else 0x57 + d.val))) =
      some (Nat.ofDigits 16 (ds.reverse.map Fin.val))) ∧
  (∀ (cap : Nat) (m : Bytes), isWord m = true →
    (∀ i, (m, i) ∈ [(ascii "NOP", Instr.nop), (ascii "CLR", .clr), (ascii "TEXTLEN", .textlen),
        (ascii "CLRERR", .clrerr), (ascii "CAPTURE", .capture), (ascii "DRAIN", .drain), (ascii "FIELDN", .fieldn),
        (ascii "DSTAT", .dstat), (ascii "DCRED", .dcred), (ascii "ISSTATUS", .matchp 1), (ascii "ISCRED", .matchp 2),
        (ascii "DCHANGE", .dword 3), (ascii "DRESET", .dword 4), (ascii "DRETRY", .dword 5), (ascii "RSP_OK", .resp 7),
        (ascii "RSP_BAD", .resp 8)] →
      assembleLine cap m = some [i] ∧ ∀ w, isWord w = true → assembleLine cap (m ++ 0x20#8 :: w) = none) ∧
    (m ∉ ["NOP", "CLR", "TEXTLEN", "CLRERR", "CAPTURE", "DRAIN", "FIELDN", "DSTAT", "DCRED", "ISSTATUS", "ISCRED",
        "DCHANGE", "DRESET", "DRETRY", "RSP_OK", "RSP_BAD"].map ascii →
      assembleLine cap m = none)) ∧
  UnaryForm "GETB" ByteText .getb ∧ UnaryForm "GETD" ByteText .getd ∧ UnaryForm "PATLEN" ByteText .patlen ∧
  UnaryForm "FIELD" ByteText .field ∧ UnaryForm "MATCHP" KeywordText .matchp ∧
  UnaryForm "MATCHS" KeywordText .matchs ∧ UnaryForm "RESP" KeywordText .resp ∧ UnaryForm "DWORD" KeywordText .dword ∧
  UnaryForm "AWAIT_OK" TimeText (.send 6) ∧
  BinaryForm "SETB" ByteText ByteText .setb ∧ CharForm "SETB" .setb ∧
  BinaryForm "PATSET" ByteText ByteText .patset ∧ CharForm "PATSET" .patset ∧
  BinaryForm "SEND" KeywordText TimeText .send ∧ BinaryForm "RDCRED" SelectorText ByteText .rdcred ∧
  (∀ (cap : Nat) (s : Bytes), 0x22#8 ∉ s →
    (s.length ≤ 16 → ∃ is, assembleLine cap (ascii "LDPAT " ++ 0x22#8 :: (s ++ [0x22#8])) = some is ∧
      is.length = s.length + 1 ∧ is[s.length]? = some (.patlen (BitVec.ofNat 8 s.length)) ∧
      ∀ j, (h : j < s.length) → is[j]? = some (.patset (BitVec.ofNat 8 j) s[j])) ∧
    (16 < s.length → assembleLine cap (ascii "LDPAT " ++ 0x22#8 :: (s ++ [0x22#8])) = none)) ∧
  (∀ (cap : Nat) (s : Bytes), 0x22#8 ∉ s →
    (s.length ≤ cap → 0x00#8 ∉ s → ∃ is, assembleLine cap (ascii "LDLINE " ++ 0x22#8 :: (s ++ [0x22#8])) = some is ∧
      is.length = s.length + 1 ∧ is[0]? = some .clr ∧
      ∀ j, (h : j < s.length) → is[j + 1]? = some (.setb (BitVec.ofNat 8 j) s[j])) ∧
    (cap < s.length ∨ 0x00#8 ∈ s → assembleLine cap (ascii "LDLINE " ++ 0x22#8 :: (s ++ [0x22#8])) = none)) ∧
  (∀ (cap : Nat) (l c : Bytes), 0x27#8 ∉ l → 0x22#8 ∉ l → 0x3B#8 ∉ l →
    assembleLine cap (l ++ 0x3B#8 :: c) = assembleLine cap l)

/-! ### Reset and runs -/

/-- After reset every piece of state holds the value of R60. -/
def Obligations.ResetValues : Prop :=
  State.reset.cap = min Config.params.capacityRequest 255 ∧
  (∀ i, Memory.read State.reset.fb i = 0#8) ∧
  (∀ j : Fin 16, State.reset.pat[j] = 0#8) ∧ State.reset.patLen.val = 0 ∧
  (∀ j : Fin 16, State.reset.ssid.bytes[j] = 0#8) ∧ State.reset.ssid.len.val = 0 ∧
  (∀ j : Fin 16, State.reset.pass.bytes[j] = 0#8) ∧ State.reset.pass.len.val = 0 ∧
  State.reset.hstat = Config.params.statusInit ∧
  State.reset.result = 0#16 ∧ State.reset.cursor = 0#8 ∧
  State.reset.flags.trunc = false ∧ State.reset.flags.noeol = false ∧ State.reset.flags.credOvf = false ∧
  State.reset.flags.errBusy = false ∧ State.reset.flags.errIllegal = false ∧ State.reset.flags.rxOverrun = false ∧
  State.reset.phase = .idle ∧ State.reset.rx = [] ∧ State.reset.tx = []

/-- Reset asserted in any state, whatever PHASE holds: FB zeroed, both FIFOs empty, PHASE IDLE, every flag and register
at its value of R60; the bytes already on the wire stay sent (R310).
The model's own fields (coming agent steps, past reads, `env.wire`) and the parameters stay as they are (log 17). -/
def Obligations.ResetStep : Prop :=
  ∀ s : State, ∃ t, runAction .reset s = .next t ∧
    (∀ i, Memory.read t.fb i = 0#8) ∧ t.rx = [] ∧ t.tx = [] ∧ t.phase = .idle ∧
    t.flags = ⟨false, false, false, false, false, false⟩ ∧
    (∀ j : Fin 16, t.pat[j] = 0#8) ∧ t.patLen.val = 0 ∧
    (∀ j : Fin 16, t.ssid.bytes[j] = 0#8 ∧ t.pass.bytes[j] = 0#8) ∧ t.ssid.len.val = 0 ∧ t.pass.len.val = 0 ∧
    t.hstat = s.cfg.statusInit ∧ t.result = 0#16 ∧ t.cursor = 0#8 ∧ t.cap = s.cap ∧ t.cfg = s.cfg ∧ t.env = s.env

/-- The invariant holds at reset, whatever the parameters and the environment are. -/
def Obligations.InvAtReset : Prop :=
  State.reset.Inv ∧ ∀ (cfg : Params) (env : Env), (State.resetWith cfg env).Inv

/-- Every step keeps the invariant and the parameters: FB's storage stays canonical and below CAP, the FIFOs stay within
their depths, the credential registers stay zero-padded, and the phase's carried state stays one the rules produce. -/
def Obligations.StepKeepsInv : Prop :=
  ∀ s t : State, s.Inv → step s = .next t → t.Inv ∧ t.cfg = s.cfg

/-- No step ends in a fault or a refusal: no error stops the block (R280). Every command in every state gives a next
state, and no command changes the parameters or anything outside the block. -/
def Obligations.EveryStepAndCommandCompletes : Prop :=
  (∀ s : State, ∃ t, step s = .next t) ∧
  ∀ (i : Instr) (s : State), ∃ t, exec i s = .next t ∧ t.cfg = s.cfg ∧ t.env = s.env

/-- A step takes the first listed agent step; a Client write of a legal word to CMD with PHASE = IDLE runs the decoded
command, with nothing added around it but the step's removal from the list (R7, R32; the list of coming agent steps is the
model's, log 1). -/
def Obligations.StepRunsTheDecodedCommand : Prop :=
  (∀ (s : State) (a : Action) (rest : List Action), s.env.schedule = a :: rest →
    step s = runAction a { s with env := { s.env with schedule := rest } }) ∧
  (∀ (s : State) (w : Word) (i : Instr) (rest : List Action), s.env.schedule = .writeReg 0#8 w :: rest →
    s.phase = .idle → decode w = .ok i → step s = exec i { s with env := { s.env with schedule := rest } })

/-! ### FrameBuffer -/

/-- GETB: the byte at idx, or the sentinel 0 out of range, in RESULT (R131). GETD: byte - 0x30 as 16-bit two's
complement, or the sentinel -1 (0xFFFF) out of range (R132). Nothing else changes. -/
def Obligations.GetbAndGetdResults : Prop :=
  ∀ (s : State) (idx : BitVec 8),
    (idx.toNat < s.cap →
      exec (.getb idx) s = .next { s with result := BitVec.ofNat 16 (Memory.read s.fb idx.toNat).toNat }) ∧
    (s.cap ≤ idx.toNat → exec (.getb idx) s = .next { s with result := 0#16 }) ∧
    (idx.toNat < s.cap → ∃ r : BitVec 16, exec (.getd idx) s = .next { s with result := r } ∧
      r.toInt = ((Memory.read s.fb idx.toNat).toNat : Int) - 48) ∧
    (s.cap ≤ idx.toNat → exec (.getd idx) s = .next { s with result := 0xFFFF#16 })

/-- SETB: in range, FB[idx] becomes val, every other byte keeps its value and RESULT is 1; out of range nothing is
stored and RESULT is 0 (R133). The canonical form of FB's storage is an invariant (StepKeepsInv). -/
def Obligations.SetbStoresOneByte : Prop :=
  ∀ (s : State) (idx val : BitVec 8), Memory.wf s.fb = true →
    (idx.toNat < s.cap → ∃ m, exec (.setb idx val) s = .next { s with fb := m, result := 1#16 } ∧
      Memory.read m idx.toNat = val ∧ ∀ a, a ≠ idx.toNat → Memory.read m a = Memory.read s.fb a) ∧
    (s.cap ≤ idx.toNat → exec (.setb idx val) s = .next { s with result := 0#16 })

/-- CLR: every byte of FB becomes 0 and nothing else changes, RESULT included (R134). -/
def Obligations.ClrZeroesFb : Prop :=
  ∀ s : State, ∃ m, exec .clr s = .next { s with fb := m } ∧ ∀ a, Memory.read m a = 0#8

/-- TEXTLEN: RESULT is the least index below CAP that holds 0, or CAP when there is none; nothing else changes
(R135). -/
def Obligations.TextlenResult : Prop :=
  ∀ s : State, ∃ tl : Nat, exec .textlen s = .next { s with result := BitVec.ofNat 16 tl } ∧ tl ≤ s.cap ∧
    (∀ i, i < tl → Memory.read s.fb i ≠ 0#8) ∧ (tl < s.cap → Memory.read s.fb tl = 0#8)

/-- The text view is FB[0..TL) (R13): its bytes are FB's, none of them is 0, and it ends at CAP or before a 0. -/
def Obligations.TextIsFbUpToFirstZero : Prop :=
  ∀ s : State, s.text.length ≤ s.cap ∧ (∀ j, (h : j < s.text.length) → s.text[j] = Memory.read s.fb j) ∧
    (∀ b ∈ s.text, b ≠ 0#8) ∧ (s.text.length < s.cap → Memory.read s.fb s.text.length = 0#8)

/-! ### Matcher and pattern register -/

/-- MATCHP: RESULT is 1 exactly when the keyword is no longer than CAP and each of its bytes is FB's at that index, else
0; nothing else changes (R137). A command term with an illegal selector only sets ERR_ILLEGAL (log 6). -/
def Obligations.MatchpResult : Prop :=
  ∀ (s : State) (k : BitVec 4),
    (∀ w, s.keyword k = some w → ∃ r : BitVec 16, exec (.matchp k) s = .next { s with result := r } ∧
      (r = 1#16 ∨ r = 0#16) ∧
      (r = 1#16 ↔ w.length ≤ s.cap ∧ ∀ j, (h : j < w.length) → Memory.read s.fb j = w[j])) ∧
    (s.keyword k = none → exec (.matchp k) s = .next { s with flags := { s.flags with errIllegal := true } })

/-- MATCHS: RESULT is 1 exactly when the keyword is a contiguous part of the text view, else 0; nothing else changes.
Rule R138. A command term with an illegal selector only sets ERR_ILLEGAL (log 6). -/
def Obligations.MatchsResult : Prop :=
  ∀ (s : State) (k : BitVec 4),
    (∀ w, s.keyword k = some w → ∃ r : BitVec 16, exec (.matchs k) s = .next { s with result := r } ∧
      (r = 1#16 ∨ r = 0#16) ∧ (r = 1#16 ↔ ∃ p q, s.text = p ++ w ++ q)) ∧
    (s.keyword k = none → exec (.matchs k) s = .next { s with flags := { s.flags with errIllegal := true } })

/-- PATSET: for idx below 16, PAT[idx] becomes val, every other byte of PAT keeps its value and RESULT is 1; otherwise
only RESULT becomes 0 (R139). PATLEN: for n at most 16, PATLEN becomes n and RESULT is 1; otherwise only RESULT becomes 0
(R140). Nothing else changes. -/
def Obligations.PatsetAndPatlenResults : Prop :=
  (∀ (s : State) (idx val : BitVec 8),
    (idx.toNat < 16 → ∃ v : Vector Byte 16, exec (.patset idx val) s = .next { s with pat := v, result := 1#16 } ∧
      ∀ j : Fin 16, v[j] = if j.val = idx.toNat then val else s.pat[j]) ∧
    (16 ≤ idx.toNat → exec (.patset idx val) s = .next { s with result := 0#16 })) ∧
  (∀ (s : State) (n : BitVec 8),
    (n.toNat ≤ 16 → ∃ l : Fin 17, exec (.patlen n) s = .next { s with patLen := l, result := 1#16 } ∧
      l.val = n.toNat) ∧
    (16 < n.toNat → exec (.patlen n) s = .next { s with result := 0#16 }))

/-! ### Line capture -/

/-- CAPTURE, issue step: with an empty receive FIFO it completes with RESULT 0 and changes nothing else; otherwise it
only enters SETTLE with SETTLE_TICKS (R171). -/
def Obligations.CaptureIssue : Prop :=
  ∀ s : State,
    (s.rx = [] → exec .capture s = .next { s with result := 0#16, phase := .idle }) ∧
    (s.rx ≠ [] → exec .capture s = .next { s with phase := .settle s.cfg.settleTicks })

/-- SETTLE(n): a TICK above 0 counts down; the Sequencer's turn does nothing above 0 (log 2) and at 0 enters SCAN(0)
(R172, R51). A TICK has no effect in any phase but SETTLE and WINDOW above 0 (R51). In IDLE the Sequencer has no step: its
turn does nothing (R51, log 2). -/
def Obligations.SettlePhaseAndTicksElsewhere : Prop :=
  (∀ (s : State) (n : BitVec 16), s.phase = .settle n →
    (n ≠ 0#16 → runAction .tick s = .next { s with phase := .settle (n - 1#16) } ∧ runAction .sequencer s = .next s) ∧
    (n = 0#16 → runAction .sequencer s = .next { s with phase := .scan 0 })) ∧
  (∀ s : State, (∀ n, n ≠ 0#16 → s.phase ≠ .settle n) → (∀ n w, n ≠ 0#16 → s.phase ≠ .window n w) →
    runAction .tick s = .next s) ∧
  (∀ s : State, s.phase = .idle → runAction .sequencer s = .next s)

/-- SCAN(p), one Sequencer step: an empty FIFO ends the capture with RESULT 0; otherwise one byte is removed, and the
progress is `next(p, b)` of R175: p + 1 on the marker's next byte, else 1 on 'C', else 0; at 4 FB is zeroed, TRUNC and
NOEOL become 0 and COPY(0) is entered (R173, R175, R176). -/
def Obligations.ScanStep : Prop :=
  ∀ (s : State) (p : Fin 4), s.phase = .scan p →
    (s.rx = [] → runAction .sequencer s = .next { s with result := 0#16, phase := .idle }) ∧
    (∀ b rest, s.rx = b :: rest → ∃ q : Nat,
      ([0x43#8, 0x4D#8, 0x44#8, 0x2B#8][p.val]? = some b → q = p.val + 1) ∧
      ([0x43#8, 0x4D#8, 0x44#8, 0x2B#8][p.val]? ≠ some b → b = 0x43#8 → q = 1) ∧
      ([0x43#8, 0x4D#8, 0x44#8, 0x2B#8][p.val]? ≠ some b → b ≠ 0x43#8 → q = 0) ∧
      (∀ q' : Fin 4, q'.val = q → runAction .sequencer s = .next { s with rx := rest, phase := .scan q' }) ∧
      (q = 4 → ∃ m, runAction .sequencer s = .next { s with
          rx := rest, fb := m, phase := .copy 0, flags := { s.flags with trunc := false, noeol := false } } ∧ ∀ a, Memory.read m a = 0#8))

/-- COPY(w), one Sequencer step: an empty FIFO ends the capture with RESULT 1 and NOEOL; otherwise one byte is removed:
LF ends it with RESULT 1, CR is skipped, any other byte is stored at w when w is below CAP, else discarded with TRUNC
(R177, R178). -/
def Obligations.CopyStep : Prop :=
  ∀ (s : State) (w : Nat), s.phase = .copy w → Memory.wf s.fb = true →
    (s.rx = [] → runAction .sequencer s =
      .next { s with result := 1#16, phase := .idle, flags := { s.flags with noeol := true } }) ∧
    (∀ b rest, s.rx = b :: rest →
      (b = 0x0A#8 → runAction .sequencer s = .next { s with rx := rest, result := 1#16, phase := .idle }) ∧
      (b = 0x0D#8 → runAction .sequencer s = .next { s with rx := rest }) ∧
      (b ≠ 0x0A#8 → b ≠ 0x0D#8 → w < s.cap → ∃ m,
        runAction .sequencer s = .next { s with rx := rest, fb := m, phase := .copy (w + 1) } ∧
        Memory.read m w = b ∧ ∀ a, a ≠ w → Memory.read m a = Memory.read s.fb a) ∧
      (b ≠ 0x0A#8 → b ≠ 0x0D#8 → s.cap ≤ w →
        runAction .sequencer s = .next { s with rx := rest, flags := { s.flags with trunc := true } }))

/-- The marker is found exactly when the last four bytes removed by the scan are `CMD+`: while the bytes removed do not
yet end in the marker the scan goes on and only the receive FIFO and the progress have changed; with the byte that
completes the marker for the first time the copy begins (R175, R176). -/
def Obligations.MarkerFoundExactlyAtCmdPlus : Prop :=
  ∀ (s : State) (bs rest : Bytes), s.phase = .scan 0 → s.rx = bs ++ rest →
    (∀ p, p <+: bs → p ≠ bs → ¬ marker <:+ p) →
    (¬ marker <:+ bs → ∃ p : Fin 4,
      State.sequencerSteps bs.length s = { s with rx := rest, phase := .scan p }) ∧
    (marker <:+ bs → ∃ m,
      State.sequencerSteps bs.length s = { s with
        rx := rest, fb := m, phase := .copy 0, flags := { s.flags with trunc := false, noeol := false } } ∧ ∀ a, Memory.read m a = 0#8)

/-- CAPTURE of a complete line, from issue to completion, with nothing arriving meanwhile: SETTLE_TICKS TICKs, then one
Sequencer step, then one per byte removed. RESULT is 1; FB holds the line's bytes with every CR stripped, the first CAP
of them, then zeros; TRUNC says whether any was discarded; NOEOL is 0; what follows the LF stays in the FIFO; nothing
else changes (R170-R179, R330). `noise` is what precedes the first marker, `line` the bytes up to the LF. -/
def Obligations.CaptureOfACompleteLine : Prop :=
  ∀ (s : State) (noise line rest : Bytes), s.phase = .idle →
    s.rx = noise ++ marker ++ line ++ 0x0A#8 :: rest →
    (∀ p, p <+: noise ++ marker → p ≠ noise ++ marker → ¬ marker <:+ p) →
    0x0A#8 ∉ line →
    ∃ s' m, exec .capture s = .next s' ∧
      State.sequencerSteps (1 + (noise ++ marker ++ line).length + 1) (State.ticks s.cfg.settleTicks.toNat s') =
        { s with
          rx := rest, fb := m, result := 1#16
          flags := { s.flags with
            trunc := decide (s.cap < (line.filter (fun b => b != 0x0D#8)).length), noeol := false } } ∧
      (∀ a, Memory.read m a =
        if a < s.cap then (line.filter (fun b => b != 0x0D#8)).getD a 0#8 else 0#8)

/-- A capture whose receive FIFO runs empty during the copy completes with RESULT 1, NOEOL 1 and the bytes so far; one
whose FIFO runs empty during the scan completes with RESULT 0 and FB, TRUNC and NOEOL unchanged, its scanned bytes lost
(R174, R178, R179). -/
def Obligations.CaptureOnAnEmptyFifo : Prop :=
  (∀ (s : State) (bs : Bytes), s.phase = .scan 0 → s.rx = bs → (∀ p, p <+: bs → ¬ marker <:+ p) →
    State.sequencerSteps (bs.length + 1) s = { s with rx := [], result := 0#16, phase := .idle }) ∧
  (∀ (s : State) (line : Bytes), s.phase = .copy 0 → s.fb = [] → s.flags.trunc = false → s.rx = line →
    0x0A#8 ∉ line → ∃ m,
      State.sequencerSteps (line.length + 1) s = { s with
        rx := [], fb := m, result := 1#16, phase := .idle
        flags := { s.flags with
          trunc := decide (s.cap < (line.filter (fun b => b != 0x0D#8)).length), noeol := true } } ∧
      (∀ a, Memory.read m a = if a < s.cap then (line.filter (fun b => b != 0x0D#8)).getD a 0#8 else 0#8))

/-- DRAIN: FB zeroed, the receive FIFO emptied, RESULT the number of bytes removed (at most RX_DEPTH, which is at most
65535); nothing else changes, flags included (R180). -/
def Obligations.DrainEmptiesTheFifo : Prop :=
  ∀ s : State, s.rx.length ≤ s.cfg.rxDepth → ∃ m r, exec .drain s = .next { s with fb := m, rx := [], result := r } ∧
    (∀ a, Memory.read m a = 0#8) ∧ r.toNat = s.rx.length

/-! ### Command channel -/

/-- SEND, issue step: the line is the text view and CR LF; it is enqueued and the window of T ticks starts when it fits
the transmit FIFO's free space, else line, pattern and timeout are held in SENDTX; nothing else changes (R201). A command
term with an illegal selector only sets ERR_ILLEGAL (log 6). -/
def Obligations.SendIssue : Prop :=
  ∀ (s : State) (k : BitVec 4) (t : BitVec 16),
    (∀ w, s.keyword k = some w →
      (s.text.length + 2 + s.tx.length ≤ s.cfg.txDepth → exec (.send k t) s =
        .next { s with tx := s.tx ++ (s.text ++ [0x0D#8, 0x0A#8]), phase := .window t w }) ∧
      (s.cfg.txDepth < s.text.length + 2 + s.tx.length → exec (.send k t) s =
        .next { s with phase := .sendtx (s.text ++ [0x0D#8, 0x0A#8]) w t })) ∧
    (s.keyword k = none → exec (.send k t) s = .next { s with flags := { s.flags with errIllegal := true } })

/-- SENDTX(line, W, T): a TICK does nothing; the Sequencer enqueues the line and starts the window when the line fits,
and its turn does nothing while it does not (R202; a turn without a step is the model's, log 2). The line is not empty:
it ends in CR LF. WINDOW(n, W) with n above 0: a TICK counts down and the Sequencer has no step (R203, log 2). -/
def Obligations.SendtxHoldAndWindowCount : Prop :=
  (∀ (s : State) (line w : Bytes) (t : BitVec 16), s.phase = .sendtx line w t → line ≠ [] →
    runAction .tick s = .next s ∧
    (line.length + s.tx.length ≤ s.cfg.txDepth →
      runAction .sequencer s = .next { s with tx := s.tx ++ line, phase := .window t w }) ∧
    (s.cfg.txDepth < line.length + s.tx.length → runAction .sequencer s = .next s)) ∧
  (∀ (s : State) (n : BitVec 16) (w : Bytes), s.phase = .window n w → n ≠ 0#16 →
    runAction .tick s = .next { s with phase := .window (n - 1#16) w } ∧ runAction .sequencer s = .next s)

/-- The close, the Sequencer step in WINDOW(0, W): every received byte is removed, RESULT is 1 exactly when W is a
contiguous part of them, and the SEND completes; nothing else changes (R205). -/
def Obligations.WindowClose : Prop :=
  ∀ (s : State) (w : Bytes), s.phase = .window 0#16 w → ∃ r : BitVec 16,
    runAction .sequencer s = .next { s with rx := [], result := r, phase := .idle } ∧
    (r = 1#16 ∨ r = 0#16) ∧ (r = 1#16 ↔ ∃ p q, s.rx = p ++ w ++ q)

/-- The window holds for exactly T TICKs whatever else happens: after any agent steps without a reset and with fewer
than n TICKs the SEND is still in its window, n less those TICKs to go, its pattern and RESULT unchanged and no received
byte removed (R203, R204). -/
def Obligations.WindowHoldsUntilTheLastTick : Prop :=
  ∀ (l : List Action) (s : State) (n : BitVec 16) (w : Bytes), s.phase = .window n w → .reset ∉ l →
    l.count .tick < n.toNat →
    ∃ t, runActions l s = .next t ∧ t.phase = .window (n - BitVec.ofNat 16 (l.count .tick)) w ∧
      t.result = s.result ∧ s.rx <+: t.rx ∧ t.fb = s.fb

/-- A SEND from issue to close, when its line fits at once and the receive FIFO has room for all that comes: after T
TICKs, interleaved in any way with PeerRx and PeerTx steps, the next Sequencer step completes it; RESULT is 1 exactly when
the pattern is a contiguous part of the bytes that were pending at issue followed by those that arrived; all of them are
consumed; the text view and CR LF have followed what was sent and queued before (R200-R205). What was sent is the
model's `env.wire` (log 4). -/
def Obligations.SendSucceedsExactlyWhenTheTokenArrived : Prop :=
  ∀ (s : State) (k : BitVec 4) (T : BitVec 16) (w : Bytes) (l : List Action), s.keyword k = some w →
    s.text.length + 2 + s.tx.length ≤ s.cfg.txDepth →
    (∀ a ∈ l, a = .tick ∨ a = .peerTx ∨ ∃ b, a = .peerRx b) → l.count .tick = T.toNat →
    s.rx.length + l.length ≤ s.cfg.rxDepth →
    ∃ s' t, exec (.send k T) s = .next s' ∧ runActions (l ++ [.sequencer]) s' = .next t ∧
      t.phase = .idle ∧ t.rx = [] ∧ (t.result = 1#16 ∨ t.result = 0#16) ∧
      (t.result = 1#16 ↔ ∃ p q, s.rx ++ l.filterMap actionReceived = p ++ w ++ q) ∧
      t.env.wire ++ t.tx = s.env.wire ++ s.tx ++ (s.text ++ [0x0D#8, 0x0A#8]) ∧ t.fb = s.fb

/-- Weak fairness of the Sequencer alone ends a SEND whose window has run out (R8, R204; 95_test_vectors.md V1.9): in
every run fair to it, WINDOW(0, W) is held until a Sequencer step closes it, with RESULT 1 exactly when W is then a
contiguous part of the received bytes, or a reset ends it; with nothing received and none arriving, no reset and a
non-empty W, RESULT is 0. A run in which the Timebase never ticks holds a SEND in its window for ever, fair or not, unless
reset. Runs are sequences of agent steps in any interleaving (R7); which of them `step` takes is log 1, how fairness is stated
log 18. -/
def Obligations.FairRunsCloseTheWindow : Prop :=
  (∀ (acts : Nat → Action) (r : Nat → State) (n : Nat) (w : Bytes), IsRun acts r → FairFor .sequencer acts r →
    (r n).phase = .window 0#16 w →
    ∃ m, n ≤ m ∧ (∀ j, n ≤ j → j ≤ m → (r j).phase = .window 0#16 w) ∧ (r (m + 1)).phase = .idle ∧
      (acts m = .reset ∨ (acts m = .sequencer ∧ (r (m + 1)).rx = [] ∧
        ((r (m + 1)).result = 1#16 ∨ (r (m + 1)).result = 0#16) ∧
        ((r (m + 1)).result = 1#16 ↔ ∃ p q, (r m).rx = p ++ w ++ q)))) ∧
  (∀ (acts : Nat → Action) (r : Nat → State) (n : Nat) (w : Bytes), IsRun acts r → FairFor .sequencer acts r →
    (r n).phase = .window 0#16 w → (r n).rx = [] → w ≠ [] →
    (∀ m, n ≤ m → acts m ≠ .reset ∧ ∀ b, acts m ≠ .peerRx b) →
    ∃ m, n ≤ m ∧ (r m).phase = .idle ∧ (r m).result = 0#16) ∧
  (∀ (acts : Nat → Action) (r : Nat → State) (n : Nat) (t : BitVec 16) (w : Bytes), IsRun acts r →
    (r n).phase = .window t w → t ≠ 0#16 → (∀ m, n ≤ m → acts m ≠ .reset ∧ acts m ≠ .tick) →
    ∀ m, n ≤ m → (r m).phase = .window t w)

/-- FIELD off and FIELDN: RESULT is the digit at off, or at CURSOR (-1 out of range), and CURSOR becomes that offset + 2
mod 256, out of range too; nothing else changes (R207, R208). -/
def Obligations.FieldWalker : Prop :=
  ∀ (s : State) (off : BitVec 8),
    (∃ r c, exec (.field off) s = .next { s with result := r, cursor := c } ∧
      (off.toNat < s.cap → r.toInt = ((Memory.read s.fb off.toNat).toNat : Int) - 48) ∧
      (s.cap ≤ off.toNat → r.toInt = -1) ∧ c.toNat = (off.toNat + 2) % 256) ∧
    (∃ r c, exec .fieldn s = .next { s with result := r, cursor := c } ∧
      (s.cursor.toNat < s.cap → r.toInt = ((Memory.read s.fb s.cursor.toNat).toNat : Int) - 48) ∧
      (s.cap ≤ s.cursor.toNat → r.toInt = -1) ∧ c.toNat = (s.cursor.toNat + 2) % 256)

/-- EmitLine(body): the line `body ++ CR LF` is appended to the transmit FIFO whole when it fits, else only PHASE becomes
EMIT of that line; in EMIT the Sequencer enqueues the line and completes when it fits, and its turn does nothing until
then (R52, R51; a turn without a step is the model's, log 2). A TICK in EMIT does nothing (R51). -/
def Obligations.EmitLineAndHold : Prop :=
  (∀ (s : State) (body : Bytes),
    (body.length + 2 + s.tx.length ≤ s.cfg.txDepth →
      s.emitLine body = { s with tx := s.tx ++ (body ++ [0x0D#8, 0x0A#8]) }) ∧
    (s.cfg.txDepth < body.length + 2 + s.tx.length →
      s.emitLine body = { s with phase := .emit (body ++ [0x0D#8, 0x0A#8]) })) ∧
  (∀ (s : State) (line : Bytes), s.phase = .emit line → line ≠ [] →
    runAction .tick s = .next s ∧
    (line.length + s.tx.length ≤ s.cfg.txDepth →
      runAction .sequencer s = .next { s with tx := s.tx ++ line, phase := .idle }) ∧
    (s.cfg.txDepth < line.length + s.tx.length → runAction .sequencer s = .next s))

/-- RESP k: the keyword's line is emitted, RESULT unchanged (R209). A command term with an illegal selector only sets
ERR_ILLEGAL (log 6). -/
def Obligations.RespEmitsTheKeyword : Prop :=
  ∀ (s : State) (k : BitVec 4),
    (∀ w, s.keyword k = some w →
      (w.length + 2 + s.tx.length ≤ s.cfg.txDepth →
        exec (.resp k) s = .next { s with tx := s.tx ++ (w ++ [0x0D#8, 0x0A#8]) }) ∧
      (s.cfg.txDepth < w.length + 2 + s.tx.length →
        exec (.resp k) s = .next { s with phase := .emit (w ++ [0x0D#8, 0x0A#8]) })) ∧
    (s.keyword k = none → exec (.resp k) s = .next { s with flags := { s.flags with errIllegal := true } })

/-- A hold ends once PeerTx has drained the FIFO: in a state that meets the invariant, with an empty transmit FIFO, the
Sequencer's step in EMIT and in SENDTX enqueues the line (R78). -/
def Obligations.EveryLineFitsAnEmptyFifo : Prop :=
  ∀ s : State, s.Inv → s.tx = [] →
    (∀ line, s.phase = .emit line → runAction .sequencer s = .next { s with tx := line, phase := .idle }) ∧
    (∀ line w t, s.phase = .sendtx line w t →
      runAction .sequencer s = .next { s with tx := line, phase := .window t w })

/-! ### Decoders -/

/-- DSTAT: with the digits at offsets 7, 9 and 11 (or -1 out of range) in 0..2, 0..2 and 0..3, HSTAT becomes that triple,
RESULT 1 and `RSP+OK` is emitted; otherwise HSTAT is unchanged, RESULT 0 and `RSP+BAD_VALUE` is emitted; nothing else
changes (R231). EmitLine is EmitLineAndHold's. RESULT is written at issue also when the line is held (log 5). -/
def Obligations.DstatValidates : Prop :=
  ∀ (s : State), ∃ d : Nat → Int,
    (∀ i, d i = if i < s.cap then ((Memory.read s.fb i).toNat : Int) - 48 else -1) ∧
    (0 ≤ d 7 ∧ d 7 ≤ 2 ∧ 0 ≤ d 9 ∧ d 9 ≤ 2 ∧ 0 ≤ d 11 ∧ d 11 ≤ 3 → ∃ t : Status,
      exec .dstat s = .next (({ s with hstat := t, result := 1#16 } : State).emitLine
        [0x52, 0x53, 0x50, 0x2B, 0x4F, 0x4B]) ∧
      ((armStateCode t.state).toNat : Int) = d 7 ∧ ((armMethodCode t.method).toNat : Int) = d 9 ∧
      ((sensorCode t.sensor).toNat : Int) = d 11) ∧
    (¬(0 ≤ d 7 ∧ d 7 ≤ 2 ∧ 0 ≤ d 9 ∧ d 9 ≤ 2 ∧ 0 ≤ d 11 ∧ d 11 ≤ 3) →
      exec .dstat s = .next (({ s with result := 0#16 } : State).emitLine
        [0x52, 0x53, 0x50, 0x2B, 0x42, 0x41, 0x44, 0x5F, 0x56, 0x41, 0x4C, 0x55, 0x45]))

/-- Round trip: with a status line of R232 in FB, DSTAT yields the identical triple and acknowledges it, for every triple
(R232, and the range rules of R231). RESULT is written at issue also when the line is held (log 5). -/
def Obligations.StatusRoundTrip : Prop :=
  ∀ (s : State) (t : Status), 12 ≤ s.cap → (∀ j, (h : j < (statusLine t).length) → Memory.read s.fb j = (statusLine t)[j]) →
    exec .dstat s = .next (({ s with hstat := t, result := 1#16 } : State).emitLine rspOk)

/-- DCRED: from offset 12 of the text view, the ssid runs to the first ',' or the end, the pass from after that ',' to
the end; if either has more than 16 bytes both registers become empty, CRED_OVF 1 and RESULT 0, else they hold the
fields zero-padded with their lengths, CRED_OVF 0 and RESULT 1; `RSP+OK` is emitted either way; nothing else changes
(R233, R234, R235). RESULT is written at issue also when the line is held (log 5). -/
def Obligations.DcredDecodesTheFields : Prop :=
  ∀ s : State, ∃ ss ps : Bytes, ∃ c d : Credential,
    ss = (s.text.drop 12).takeWhile (fun b => b != 0x2C#8) ∧
    ps = ((s.text.drop 12).dropWhile (fun b => b != 0x2C#8)).drop 1 ∧
    (ss.length ≤ 16 ∧ ps.length ≤ 16 →
      exec .dcred s = .next (({ s with
        ssid := c, pass := d, flags := { s.flags with credOvf := false }, result := 1#16 } : State).emitLine [0x52, 0x53, 0x50, 0x2B, 0x4F, 0x4B]) ∧
      c.len.val = ss.length ∧ (∀ j : Fin 16, c.bytes[j] = ss.getD j.val 0#8) ∧
      d.len.val = ps.length ∧ (∀ j : Fin 16, d.bytes[j] = ps.getD j.val 0#8)) ∧
    (16 < ss.length ∨ 16 < ps.length →
      exec .dcred s = .next (({ s with
        ssid := c, pass := d, flags := { s.flags with credOvf := true }, result := 0#16 } : State).emitLine [0x52, 0x53, 0x50, 0x2B, 0x4F, 0x4B]) ∧
      c.len.val = 0 ∧ (∀ j : Fin 16, c.bytes[j] = 0#8) ∧ d.len.val = 0 ∧ (∀ j : Fin 16, d.bytes[j] = 0#8))

/-- Round trip: with the credentials line of an ssid (without ',') and a pass in FB, each at most 16 bytes, DCRED then
RDCRED give back every byte of both; with 17 bytes or more in either, RDCRED reads 0 everywhere (95_test_vectors.md V1.6;
R233, R242). DCRED's response line of 8 bytes fits, so that the block is IDLE again and accepts the RDCRED (R284). -/
def Obligations.CredentialsRoundTrip : Prop :=
  ∀ (s : State) (ssid pass : Bytes), s.phase = .idle → 8 + s.tx.length ≤ s.cfg.txDepth →
    s.text = credentialsLine ssid pass → 0x2C#8 ∉ ssid →
    ∃ t, exec .dcred s = .next t ∧ t.phase = .idle ∧ ∀ idx : BitVec 8, idx.toNat < 16 →
      (ssid.length ≤ 16 → pass.length ≤ 16 →
        exec (.rdcred 0 idx) t = .next { t with result := BitVec.ofNat 16 (ssid.getD idx.toNat 0#8).toNat } ∧
        exec (.rdcred 1 idx) t = .next { t with result := BitVec.ofNat 16 (pass.getD idx.toNat 0#8).toNat }) ∧
      (16 < ssid.length ∨ 16 < pass.length →
        exec (.rdcred 0 idx) t = .next { t with result := 0#16 } ∧
        exec (.rdcred 1 idx) t = .next { t with result := 0#16 })

/-- DWORD k: when the keyword is a contiguous part of the text view, RESULT is 1 and `RSP+OK` is emitted; otherwise only
RESULT becomes 0 and nothing is transmitted (R240). RESULT is written at issue also when the line is held (log 5). A
command term with an illegal selector only sets ERR_ILLEGAL (log 6). -/
def Obligations.DwordRecognises : Prop :=
  ∀ (s : State) (k : BitVec 4),
    (∀ w, s.keyword k = some w →
      ((∃ p q, s.text = p ++ w ++ q) → exec (.dword k) s =
        .next (({ s with result := 1#16 } : State).emitLine [0x52, 0x53, 0x50, 0x2B, 0x4F, 0x4B])) ∧
      ((¬∃ p q, s.text = p ++ w ++ q) → exec (.dword k) s = .next { s with result := 0#16 })) ∧
    (s.keyword k = none → exec (.dword k) s = .next { s with flags := { s.flags with errIllegal := true } })

/-- RDCRED: RESULT is byte idx of CRED_SSID (sel 0) or CRED_PASS (sel 1), 0 for idx at or above 16; nothing else
changes (R242). A command term with a selector above 1 only sets ERR_ILLEGAL (log 6). -/
def Obligations.RdcredResult : Prop :=
  ∀ (s : State) (sel idx : BitVec 8),
    (∀ j : Fin 16, j.val = idx.toNat →
      exec (.rdcred 0 idx) s = .next { s with result := BitVec.ofNat 16 s.ssid.bytes[j].toNat } ∧
      exec (.rdcred 1 idx) s = .next { s with result := BitVec.ofNat 16 s.pass.bytes[j].toNat }) ∧
    (16 ≤ idx.toNat → sel.toNat ≤ 1 → exec (.rdcred sel idx) s = .next { s with result := 0#16 }) ∧
    (2 ≤ sel.toNat → exec (.rdcred sel idx) s = .next { s with flags := { s.flags with errIllegal := true } })

/-! ### System commands, errors -/

/-- NOP changes nothing (R270); CLRERR clears ERR_BUSY, ERR_ILLEGAL and RX_OVERRUN and changes nothing else (R271). -/
def Obligations.NopAndClrerr : Prop :=
  ∀ s : State, exec .nop s = .next s ∧
    exec .clrerr s =
      .next { s with flags := { s.flags with errBusy := false, errIllegal := false, rxOverrun := false } }

/-- An illegal word written to CMD while PHASE = IDLE sets ERR_ILLEGAL and does nothing else (R283). -/
def Obligations.IllegalWordSetsOnlyErrIllegal : Prop :=
  ∀ (s : State) (w : Word), s.phase = .idle → legal w = false →
    runAction (.writeReg 0#8 w) s = .next { s with flags := { s.flags with errIllegal := true } }

/-- Any word written to CMD while PHASE ≠ IDLE, legal or not, sets ERR_BUSY and does nothing else (R284). -/
def Obligations.WordWhileBusyIsDropped : Prop :=
  ∀ (s : State) (w : Word), s.phase ≠ .idle →
    runAction (.writeReg 0#8 w) s = .next { s with flags := { s.flags with errBusy := true } }

/-- ERR_BUSY, ERR_ILLEGAL and RX_OVERRUN are sticky: a step that takes one from 1 to 0 is a reset or an accepted CLRERR
(R282). -/
def Obligations.StickyFlagsClearedOnlyByClrerrOrReset : Prop :=
  ∀ (a : Action) (s t : State), runAction a s = .next t →
    (s.flags.errBusy = true ∧ t.flags.errBusy = false) ∨ (s.flags.errIllegal = true ∧ t.flags.errIllegal = false) ∨
      (s.flags.rxOverrun = true ∧ t.flags.rxOverrun = false) →
    a = .reset ∨ (a = .writeReg 0#8 0x0F000000#32 ∧ s.phase = .idle)

/-- HSTAT is written only by an accepted DSTAT, or by reset (R34). -/
def Obligations.HstatWrittenOnlyByDstat : Prop :=
  ∀ (a : Action) (s t : State), runAction a s = .next t → t.hstat ≠ s.hstat →
    a = .reset ∨ (a = .writeReg 0#8 0x30000000#32 ∧ s.phase = .idle)

/-- The credential registers and CRED_OVF are written only by an accepted DCRED, or by reset (R47, R235). -/
def Obligations.CredentialsWrittenOnlyByDcred : Prop :=
  ∀ (a : Action) (s t : State), runAction a s = .next t →
    t.ssid ≠ s.ssid ∨ t.pass ≠ s.pass ∨ t.flags.credOvf ≠ s.flags.credOvf →
    a = .reset ∨ (a = .writeReg 0#8 0x31000000#32 ∧ s.phase = .idle)

/-- PAT is written only by PATSET, PATLEN only by PATLEN, and CURSOR only by FIELD and FIELDN, each accepted, or by reset
(R46, R39). -/
def Obligations.PatAndCursorWriters : Prop :=
  ∀ (a : Action) (s t : State), runAction a s = .next t → a ≠ .reset →
    (t.pat ≠ s.pat → ∃ idx val, a = .writeReg 0#8 (encode (.patset idx val)) ∧ s.phase = .idle) ∧
    (t.patLen ≠ s.patLen → ∃ n, a = .writeReg 0#8 (encode (.patlen n)) ∧ s.phase = .idle) ∧
    (t.cursor ≠ s.cursor → ((∃ off, a = .writeReg 0#8 (encode (.field off))) ∨ a = .writeReg 0#8 (encode .fieldn)) ∧
      s.phase = .idle)

/-- FB is written only by an accepted SETB, CLR or DRAIN, by the Sequencer in SCAN or COPY (CAPTURE), or by reset
(R45). TRUNC and NOEOL become 0 only in a scan step that finds the marker, or by reset; TRUNC becomes 1 only in a copy
step that discards a byte, the FIFO not empty and no room left; NOEOL becomes 1 only in a copy step that finds the FIFO
empty (R33, R176-R178). -/
def Obligations.FbTruncAndNoeolWriters : Prop :=
  ∀ (a : Action) (s t : State), runAction a s = .next t →
    (t.fb ≠ s.fb → a = .reset ∨
      (a = .sequencer ∧ ((∃ p, s.phase = .scan p) ∨ (∃ w, s.phase = .copy w))) ∨
      (s.phase = .idle ∧ (a = .writeReg 0#8 (encode .clr) ∨ a = .writeReg 0#8 (encode .drain) ∨
        ∃ idx val, a = .writeReg 0#8 (encode (.setb idx val))))) ∧
    ((s.flags.trunc = true ∧ t.flags.trunc = false) ∨ (s.flags.noeol = true ∧ t.flags.noeol = false) →
      a = .reset ∨ (a = .sequencer ∧ s.phase = .scan 3 ∧ t.phase = .copy 0)) ∧
    (s.flags.trunc = false → t.flags.trunc = true →
      a = .sequencer ∧ ∃ w, s.phase = .copy w ∧ s.cap ≤ w ∧ s.rx ≠ []) ∧
    (s.flags.noeol = false → t.flags.noeol = true →
      a = .sequencer ∧ s.rx = [] ∧ ∃ w, s.phase = .copy w)

/-- RESULT is written only by an accepted value-returning command, by the Sequencer's step that completes a CAPTURE or a
SEND, or by reset: while BUSY it keeps its value until the completing step (R31), in EMIT through that step too, where
RESULT was written at issue (log 5). NOP, CLR, RESP, CLRERR, SEND's issue step, words dropped or illegal, and a CAPTURE
that finds the FIFO not empty leave it (R31, R283, R284). A command that writes RESULT and does not complete at once is
a decoder that holds its line (log 5). -/
def Obligations.ResultWriters : Prop :=
  ∀ (a : Action) (s t : State), runAction a s = .next t → t.result ≠ s.result → a ≠ .reset →
    (s.phase ≠ .idle → a = .sequencer ∧ t.phase = .idle ∧
      ((∃ p, s.phase = .scan p) ∨ (∃ w, s.phase = .copy w) ∨ ∃ w, s.phase = .window 0#16 w)) ∧
    (s.phase = .idle → ∃ i, a = .writeReg 0#8 (encode i) ∧ decode (encode i) = .ok i ∧ i ≠ .nop ∧ i ≠ .clr ∧
      i ≠ .clrerr ∧ (∀ k, i ≠ .resp k) ∧ (∀ k T, i ≠ .send k T) ∧ (i = .capture → s.rx = []) ∧
      (t.phase = .idle ∨ ((i = .dstat ∨ i = .dcred ∨ ∃ k, i = .dword k) ∧ ∃ line, t.phase = .emit line)))

/-! ### Register port -/

/-- A Client read returns the register of R30 at its offset and changes nothing in the block, in any phase; CMD and the
reserved offsets read 0; a write to any offset but CMD changes nothing and sets no flag (R30, R34-R41). STAT, offset 2,
is StatBits'. The word the Client is given is the model's `env.reads` (log 4). RXCOUNT and TXCOUNT are the
plain counts in every state that meets the invariant (R35, R36), else those mod 2^16 (log 16). -/
def Obligations.RegisterReads : Prop :=
  ∀ (s : State) (off : BitVec 8), ∃ v : Word,
    runAction (.readReg off) s = .next { s with env := { s.env with reads := s.env.reads ++ [(off, v)] } } ∧
    (off.toNat = 0 ∨ 0x0A ≤ off.toNat → v.toNat = 0) ∧
    (off.toNat = 1 → v.toNat = s.result.toNat) ∧
    (off.toNat = 3 → v.toNat = (armStateCode s.hstat.state).toNat + 4 * (armMethodCode s.hstat.method).toNat +
      16 * (sensorCode s.hstat.sensor).toNat) ∧
    (off.toNat = 4 → v.toNat = s.rx.length % 2 ^ 16 ∧ (s.Inv → v.toNat = s.rx.length)) ∧
    (off.toNat = 5 → v.toNat = s.tx.length % 2 ^ 16 ∧ (s.Inv → v.toNat = s.tx.length)) ∧
    (off.toNat = 6 → v.toNat = s.cap) ∧
    (off.toNat = 7 → v.toNat = s.ssid.len.val + 2 ^ 8 * s.pass.len.val) ∧
    (off.toNat = 8 → v.toNat = s.cursor.toNat) ∧
    (off.toNat = 9 → v.toNat = s.patLen.val) ∧
    (∀ w : Word, off ≠ 0#8 → runAction (.writeReg off w) s = .next s)

/-- STAT, bit by bit: BUSY iff PHASE ≠ IDLE, RXNE iff the receive FIFO holds a byte, the six flags, the phase code of R51,
and zeros above; code 7 is never held (R33, R51). -/
def Obligations.StatBits : Prop :=
  ∀ s : State, s.readReg 2 = s.stat ∧
    (s.stat.getLsbD 0 = true ↔ s.phase ≠ .idle) ∧ (s.stat.getLsbD 1 = true ↔ s.rx ≠ []) ∧
    s.stat.getLsbD 2 = s.flags.trunc ∧ s.stat.getLsbD 3 = s.flags.noeol ∧ s.stat.getLsbD 4 = s.flags.credOvf ∧
    s.stat.getLsbD 5 = s.flags.errBusy ∧ s.stat.getLsbD 6 = s.flags.errIllegal ∧
    s.stat.getLsbD 7 = s.flags.rxOverrun ∧
    s.stat.toNat / 2 ^ 8 = (match s.phase with
      | .idle => 0 | .emit _ => 1 | .settle _ => 2 | .scan _ => 3 | .copy _ => 4 | .sendtx _ _ _ => 5 | .window _ _ => 6)

/-! ### FIFOs -/

/-- PeerRx: in any phase a byte is appended when the FIFO holds fewer than RX_DEPTH bytes, else dropped with RX_OVERRUN;
nothing else changes (R76). PeerTx: the head byte leaves the transmit FIFO onto the wire; with an empty FIFO it has no
step and its turn does nothing (log 2); nothing else changes (R78). What is on the wire is the model's `env.wire` (log 4). -/
def Obligations.PeerSteps : Prop :=
  (∀ (s : State) (b : Byte),
    (s.rx.length < s.cfg.rxDepth → runAction (.peerRx b) s = .next { s with rx := s.rx ++ [b] }) ∧
    (s.cfg.rxDepth ≤ s.rx.length →
      runAction (.peerRx b) s = .next { s with flags := { s.flags with rxOverrun := true } })) ∧
  (∀ s : State,
    (∀ b rest, s.tx = b :: rest →
      runAction .peerTx s = .next { s with tx := rest, env := { s.env with wire := s.env.wire ++ [b] } }) ∧
    (s.tx = [] → runAction .peerTx s = .next s))

/-- The receive FIFO is first-in first-out: every step removes bytes from its head only and appends at most the one byte
PeerRx delivers; only an accepted DRAIN, a Sequencer step and reset remove any (R77, R49). -/
def Obligations.ReceiveFifoOrder : Prop :=
  ∀ (a : Action) (s t : State), runAction a s = .next t → ∃ n l, t.rx = s.rx.drop n ++ l ∧
    (l ≠ [] → ∃ b, a = .peerRx b ∧ l = [b]) ∧
    (n ≠ 0 → a = .reset ∨ a = .sequencer ∨ (a = .writeReg 0#8 0x11000000#32 ∧ s.phase = .idle))

/-- The transmit FIFO is first-in first-out and holds whole lines: from a state that meets the invariant, every step but
reset leaves the bytes on the wire followed by those in the FIFO as they were, or appends one whole line ending in CR LF
(R79, R80). -/
def Obligations.TransmitFifoOrder : Prop :=
  ∀ (a : Action) (s t : State), s.Inv → a ≠ .reset → runAction a s = .next t →
    ∃ l : Bytes, t.env.wire ++ t.tx = s.env.wire ++ s.tx ++ l ∧ (l = [] ∨ [0x0D#8, 0x0A#8] <:+ l)

/-- Which commands are immediate (R330): issued with PHASE = IDLE, a well-formed command is complete after its issue step,
PHASE IDLE, exactly in the cases of R330's table. SEND never is; CAPTURE when the receive FIFO is empty; RESP, DSTAT,
DCRED and a DWORD that matches when their own line with EOL fits (RSP+OK: 8 bytes, RSP+BAD_VALUE: 15), a DWORD that does
not match always; every other command always. -/
def Obligations.ImmediateCommands : Prop :=
  ∀ (i : Instr) (s t : State), i.wellFormed = true → s.phase = .idle → exec i s = .next t →
    (t.phase = .idle ↔ match i with
      | .send _ _ => False
      | .capture => s.rx = []
      | .resp k => ∃ w, s.keyword k = some w ∧ w.length + 2 + s.tx.length ≤ s.cfg.txDepth
      | .dstat =>
        (if 0 ≤ s.getDigit 7 ∧ s.getDigit 7 ≤ 2 ∧ 0 ≤ s.getDigit 9 ∧ s.getDigit 9 ≤ 2 ∧ 0 ≤ s.getDigit 11 ∧
            s.getDigit 11 ≤ 3 then 8 else 15) + s.tx.length ≤ s.cfg.txDepth
      | .dcred => 8 + s.tx.length ≤ s.cfg.txDepth
      | .dword k => ∃ w, s.keyword k = some w ∧
          ((∃ p q, s.text = p ++ w ++ q) → 8 + s.tx.length ≤ s.cfg.txDepth)
      | .nop => True | .clr => True | .getb _ => True | .getd _ => True | .setb _ _ => True | .textlen => True
      | .matchp _ => True | .matchs _ => True | .patset _ _ => True | .patlen _ => True | .clrerr => True
      | .drain => True | .field _ => True | .fieldn => True | .rdcred _ _ => True)

/-- A send of an outbound message awaits one unit, a list transfer (start, entry, end) two, in ticks; the doubled unit
does not wrap (R250). -/
def Obligations.OutboundTimeouts : Prop :=
  ∀ (p : Params) (m : Outbound),
    (m.timeout p).toNat = (match m with
      | .deviceIdentity _ => 1 | .networkInfo _ _ _ => 1 | .notConnected => 1 | .scanStart _ => 2
      | .scanEntry _ _ _ => 2 | .scanEnd => 2 | .statusPush _ => 1) * p.timeoutUnitTicks.toNat
end

