-- ==== Sys2Proof/Laws/Memory.lean ====
section
/-! SUPPORT. The laws of the FrameBuffer's storage: read after write, the canonical form is kept, bounds are kept, and
equal contents are equal data. -/

namespace Sys2Proof.Machine

open Sys2Proof

theorem Memory.wf_cons {a : Nat} {v : Byte} {m : Memory} :
    Memory.wf ((a, v) :: m) = true ↔ v ≠ Memory.unlisted ∧ (∀ c ∈ m, a < c.1) ∧ Memory.wf m = true := by
  simp [Memory.wf, and_assoc]

theorem Memory.below_cons {a n : Nat} {v : Byte} {m : Memory} :
    Memory.below ((a, v) :: m) n = true ↔ a < n ∧ Memory.below m n = true := by
  simp [Memory.below]

@[simp] theorem Memory.below_nil (n : Nat) : Memory.below [] n = true := rfl

@[simp] theorem Memory.wf_nil : Memory.wf [] = true := rfl

@[simp] theorem Memory.read_nil (i : Nat) : Memory.read [] i = Memory.unlisted := rfl

/-- An index that no cell lists reads as an unlisted one. -/
theorem Memory.read_of_unlisted {m : Memory} {i : Nat} (h : ∀ c ∈ m, c.1 ≠ i) : Memory.read m i = Memory.unlisted := by
  induction m with
  | nil => rfl
  | cons c m ih =>
    obtain ⟨a, v⟩ := c
    have ha : a ≠ i := h (a, v) (by simp)
    simp only [Memory.read, if_neg ha]
    exact ih fun c hc => h c (by simp [hc])

theorem Memory.read_of_lt {m : Memory} {i : Nat} (h : ∀ c ∈ m, i < c.1) : Memory.read m i = Memory.unlisted :=
  Memory.read_of_unlisted fun c hc => (h c hc).ne'

/-- At and above a bound of the listed indices every index reads 0. -/
theorem Memory.read_of_below {m : Memory} {n i : Nat} (h : Memory.below m n = true) (hi : n ≤ i) :
    Memory.read m i = 0#8 :=
  Memory.read_of_unlisted fun c hc => by
    have := (List.all_eq_true.mp h) c hc
    simp at this; omega

/-- Read after write: the index written gives the value written, every other index what it gave before. -/
theorem Memory.read_write {m : Memory} (hm : Memory.wf m = true) (i j : Nat) (v : Byte) :
    Memory.read (Memory.write m i v) j = if j = i then v else Memory.read m j := by
  induction m with
  | nil =>
    by_cases hv : v = Memory.unlisted
    · simp [Memory.write, hv, Memory.read]
    · simp [Memory.write, hv, Memory.read, eq_comm (a := i)]
  | cons c m ih =>
    obtain ⟨a, x⟩ := c
    obtain ⟨-, hlt, hm'⟩ := Memory.wf_cons.mp hm
    have hun {k : Nat} (hk : k ≤ a) : Memory.read m k = Memory.unlisted :=
      Memory.read_of_lt fun c hc => Nat.lt_of_le_of_lt hk (hlt c hc)
    by_cases h1 : i < a
    · by_cases hv : v = Memory.unlisted
      · by_cases hj : j = i
        · subst hj; simp [Memory.write, h1, hv, Memory.read, h1.ne', hun h1.le]
        · simp [Memory.write, h1, hv, hj]
      · simp only [Memory.write, if_pos h1, if_neg hv]
        rw [Memory.read]; simp only [eq_comm (a := i)]
    · by_cases h2 : i = a
      · subst h2
        by_cases hv : v = Memory.unlisted
        · by_cases hj : j = i
          · subst hj; simp [Memory.write, hv, hun le_rfl]
          · simp [Memory.write, hv, hj, Memory.read, Ne.symm hj]
        · by_cases hj : j = i
          · subst hj; simp [Memory.write, hv, Memory.read]
          · simp [Memory.write, hv, hj, Memory.read, Ne.symm hj]
      · simp only [Memory.write, if_neg h1, if_neg h2, Memory.read]
        by_cases hj : a = j
        · subst hj; simp [Ne.symm h2]
        · simp [hj, ih hm']

/-- A write lists no index but its own and those already listed. -/
theorem Memory.mem_write {m : Memory} {i : Nat} {v : Byte} {c : Host.Cell} (h : c ∈ Memory.write m i v) :
    c.1 = i ∨ c ∈ m := by
  induction m with
  | nil => by_cases hv : v = Memory.unlisted <;> simp_all [Memory.write]
  | cons d m ih =>
    obtain ⟨a, x⟩ := d
    unfold Memory.write at h
    split at h <;> split at h <;> (try split at h) <;> simp only [List.mem_cons] at h ⊢
    · exact .inr h
    · rcases h with rfl | h
      · exact .inl rfl
      · exact .inr h
    · exact .inr (.inr h)
    · rcases h with rfl | h
      · exact .inl rfl
      · exact .inr (.inr h)
    · rcases h with rfl | h
      · exact .inr (.inl rfl)
      · exact (ih h).imp id .inr

/-- A write keeps the canonical form. -/
theorem Memory.wf_write {m : Memory} (hm : Memory.wf m = true) (i : Nat) (v : Byte) :
    Memory.wf (Memory.write m i v) = true := by
  induction m with
  | nil => by_cases hv : v = Memory.unlisted <;> simp [Memory.write, hv, Memory.wf]
  | cons c m ih =>
    obtain ⟨a, x⟩ := c
    obtain ⟨hx, hlt, hm'⟩ := Memory.wf_cons.mp hm
    by_cases h1 : i < a
    · by_cases hv : v = Memory.unlisted
      · simpa [Memory.write, h1, hv] using hm
      · simp only [Memory.write, if_pos h1, if_neg hv]
        refine Memory.wf_cons.mpr ⟨hv, ?_, hm⟩
        rintro c (- | ⟨_, hc⟩)
        · exact h1
        · exact h1.trans (hlt c hc)
    · by_cases h2 : i = a
      · subst h2
        by_cases hv : v = Memory.unlisted
        · simpa [Memory.write, hv] using hm'
        · simpa [Memory.write, hv] using Memory.wf_cons.mpr ⟨hv, hlt, hm'⟩
      · simp only [Memory.write, if_neg h1, if_neg h2]
        refine Memory.wf_cons.mpr ⟨hx, ?_, ih hm'⟩
        intro c hc
        rcases Memory.mem_write hc with h | h
        · omega
        · exact hlt c h

/-- A write below a bound keeps the bound. -/
theorem Memory.below_write {m : Memory} {n i : Nat} (hm : Memory.below m n = true) (hi : i < n) (v : Byte) :
    Memory.below (Memory.write m i v) n = true := by
  simp only [Memory.below, List.all_eq_true, decide_eq_true_eq] at hm ⊢
  intro c hc
  rcases Memory.mem_write hc with h | h
  · omega
  · exact hm c h

theorem Memory.below_mono {m : Memory} {n k : Nat} (hm : Memory.below m n = true) (h : n ≤ k) :
    Memory.below m k = true := by
  simp only [Memory.below, List.all_eq_true, decide_eq_true_eq] at hm ⊢
  exact fun c hc => lt_of_lt_of_le (hm c hc) h

/-- In canonical form, memories that read alike at every index are the same data. -/
theorem Memory.ext_of_read {m m' : Memory} (hm : Memory.wf m = true) (hm' : Memory.wf m' = true)
    (h : ∀ i, Memory.read m i = Memory.read m' i) : m = m' := by
  induction m generalizing m' with
  | nil =>
    cases m' with
    | nil => rfl
    | cons c m' =>
      obtain ⟨a, v⟩ := c
      have := h a
      simp only [Memory.read, if_true] at this
      exact absurd this.symm (Memory.wf_cons.mp hm').1
  | cons c m ih =>
    obtain ⟨a, v⟩ := c
    obtain ⟨hv, hlt, hmt⟩ := Memory.wf_cons.mp hm
    cases m' with
    | nil =>
      have := h a
      simp only [Memory.read, if_true] at this
      exact absurd this hv
    | cons c' m' =>
      obtain ⟨b, x⟩ := c'
      obtain ⟨hx, hlt', hmt'⟩ := Memory.wf_cons.mp hm'
      have hab : a = b := by
        rcases Nat.lt_trichotomy a b with hab | hab | hab
        · have := h a
          simp only [Memory.read, if_true, if_neg hab.ne'] at this
          rw [Memory.read_of_lt fun c hc => hab.trans (hlt' c hc)] at this
          exact absurd this hv
        · exact hab
        · have := h b
          simp only [Memory.read, if_true, if_neg hab.ne'] at this
          rw [Memory.read_of_lt fun c hc => hab.trans (hlt c hc)] at this
          exact absurd this.symm hx
      subst hab
      have hvx : v = x := by simpa [Memory.read] using h a
      subst hvx
      have : m = m' := ih hmt hmt' fun i => by
        by_cases hi : a = i
        · subst hi
          rw [Memory.read_of_lt hlt, Memory.read_of_lt hlt']
        · simpa [Memory.read, hi] using h i
      rw [this]

@[simp] theorem Memory.unlisted_eq : Memory.unlisted = 0#8 := rfl

end Sys2Proof.Machine
end

