-- ==== Sys2Proof/Laws/State.lean ====
section
/-! SUPPORT. One lemma per field per one-field update of State, each by rfl, and the same for the flag changes. -/

namespace Sys2Proof.Machine

open Sys2Proof

variable (s : State)

@[simp] theorem State.setFb_cfg (m : Memory) : (s.setFb m).cfg = s.cfg := rfl
@[simp] theorem State.setFb_fb (m : Memory) : (s.setFb m).fb = m := rfl
@[simp] theorem State.setFb_pat (m : Memory) : (s.setFb m).pat = s.pat := rfl
@[simp] theorem State.setFb_patLen (m : Memory) : (s.setFb m).patLen = s.patLen := rfl
@[simp] theorem State.setFb_ssid (m : Memory) : (s.setFb m).ssid = s.ssid := rfl
@[simp] theorem State.setFb_pass (m : Memory) : (s.setFb m).pass = s.pass := rfl
@[simp] theorem State.setFb_hstat (m : Memory) : (s.setFb m).hstat = s.hstat := rfl
@[simp] theorem State.setFb_result (m : Memory) : (s.setFb m).result = s.result := rfl
@[simp] theorem State.setFb_cursor (m : Memory) : (s.setFb m).cursor = s.cursor := rfl
@[simp] theorem State.setFb_flags (m : Memory) : (s.setFb m).flags = s.flags := rfl
@[simp] theorem State.setFb_phase (m : Memory) : (s.setFb m).phase = s.phase := rfl
@[simp] theorem State.setFb_rx (m : Memory) : (s.setFb m).rx = s.rx := rfl
@[simp] theorem State.setFb_tx (m : Memory) : (s.setFb m).tx = s.tx := rfl
@[simp] theorem State.setFb_env (m : Memory) : (s.setFb m).env = s.env := rfl

@[simp] theorem State.setPat_cfg (v : Vector Byte 16) : (s.setPat v).cfg = s.cfg := rfl
@[simp] theorem State.setPat_fb (v : Vector Byte 16) : (s.setPat v).fb = s.fb := rfl
@[simp] theorem State.setPat_pat (v : Vector Byte 16) : (s.setPat v).pat = v := rfl
@[simp] theorem State.setPat_patLen (v : Vector Byte 16) : (s.setPat v).patLen = s.patLen := rfl
@[simp] theorem State.setPat_ssid (v : Vector Byte 16) : (s.setPat v).ssid = s.ssid := rfl
@[simp] theorem State.setPat_pass (v : Vector Byte 16) : (s.setPat v).pass = s.pass := rfl
@[simp] theorem State.setPat_hstat (v : Vector Byte 16) : (s.setPat v).hstat = s.hstat := rfl
@[simp] theorem State.setPat_result (v : Vector Byte 16) : (s.setPat v).result = s.result := rfl
@[simp] theorem State.setPat_cursor (v : Vector Byte 16) : (s.setPat v).cursor = s.cursor := rfl
@[simp] theorem State.setPat_flags (v : Vector Byte 16) : (s.setPat v).flags = s.flags := rfl
@[simp] theorem State.setPat_phase (v : Vector Byte 16) : (s.setPat v).phase = s.phase := rfl
@[simp] theorem State.setPat_rx (v : Vector Byte 16) : (s.setPat v).rx = s.rx := rfl
@[simp] theorem State.setPat_tx (v : Vector Byte 16) : (s.setPat v).tx = s.tx := rfl
@[simp] theorem State.setPat_env (v : Vector Byte 16) : (s.setPat v).env = s.env := rfl

@[simp] theorem State.setPatLen_cfg (n : Fin 17) : (s.setPatLen n).cfg = s.cfg := rfl
@[simp] theorem State.setPatLen_fb (n : Fin 17) : (s.setPatLen n).fb = s.fb := rfl
@[simp] theorem State.setPatLen_pat (n : Fin 17) : (s.setPatLen n).pat = s.pat := rfl
@[simp] theorem State.setPatLen_patLen (n : Fin 17) : (s.setPatLen n).patLen = n := rfl
@[simp] theorem State.setPatLen_ssid (n : Fin 17) : (s.setPatLen n).ssid = s.ssid := rfl
@[simp] theorem State.setPatLen_pass (n : Fin 17) : (s.setPatLen n).pass = s.pass := rfl
@[simp] theorem State.setPatLen_hstat (n : Fin 17) : (s.setPatLen n).hstat = s.hstat := rfl
@[simp] theorem State.setPatLen_result (n : Fin 17) : (s.setPatLen n).result = s.result := rfl
@[simp] theorem State.setPatLen_cursor (n : Fin 17) : (s.setPatLen n).cursor = s.cursor := rfl
@[simp] theorem State.setPatLen_flags (n : Fin 17) : (s.setPatLen n).flags = s.flags := rfl
@[simp] theorem State.setPatLen_phase (n : Fin 17) : (s.setPatLen n).phase = s.phase := rfl
@[simp] theorem State.setPatLen_rx (n : Fin 17) : (s.setPatLen n).rx = s.rx := rfl
@[simp] theorem State.setPatLen_tx (n : Fin 17) : (s.setPatLen n).tx = s.tx := rfl
@[simp] theorem State.setPatLen_env (n : Fin 17) : (s.setPatLen n).env = s.env := rfl

@[simp] theorem State.setHstat_cfg (t : Status) : (s.setHstat t).cfg = s.cfg := rfl
@[simp] theorem State.setHstat_fb (t : Status) : (s.setHstat t).fb = s.fb := rfl
@[simp] theorem State.setHstat_pat (t : Status) : (s.setHstat t).pat = s.pat := rfl
@[simp] theorem State.setHstat_patLen (t : Status) : (s.setHstat t).patLen = s.patLen := rfl
@[simp] theorem State.setHstat_ssid (t : Status) : (s.setHstat t).ssid = s.ssid := rfl
@[simp] theorem State.setHstat_pass (t : Status) : (s.setHstat t).pass = s.pass := rfl
@[simp] theorem State.setHstat_hstat (t : Status) : (s.setHstat t).hstat = t := rfl
@[simp] theorem State.setHstat_result (t : Status) : (s.setHstat t).result = s.result := rfl
@[simp] theorem State.setHstat_cursor (t : Status) : (s.setHstat t).cursor = s.cursor := rfl
@[simp] theorem State.setHstat_flags (t : Status) : (s.setHstat t).flags = s.flags := rfl
@[simp] theorem State.setHstat_phase (t : Status) : (s.setHstat t).phase = s.phase := rfl
@[simp] theorem State.setHstat_rx (t : Status) : (s.setHstat t).rx = s.rx := rfl
@[simp] theorem State.setHstat_tx (t : Status) : (s.setHstat t).tx = s.tx := rfl
@[simp] theorem State.setHstat_env (t : Status) : (s.setHstat t).env = s.env := rfl

@[simp] theorem State.setResult_cfg (r : BitVec 16) : (s.setResult r).cfg = s.cfg := rfl
@[simp] theorem State.setResult_fb (r : BitVec 16) : (s.setResult r).fb = s.fb := rfl
@[simp] theorem State.setResult_pat (r : BitVec 16) : (s.setResult r).pat = s.pat := rfl
@[simp] theorem State.setResult_patLen (r : BitVec 16) : (s.setResult r).patLen = s.patLen := rfl
@[simp] theorem State.setResult_ssid (r : BitVec 16) : (s.setResult r).ssid = s.ssid := rfl
@[simp] theorem State.setResult_pass (r : BitVec 16) : (s.setResult r).pass = s.pass := rfl
@[simp] theorem State.setResult_hstat (r : BitVec 16) : (s.setResult r).hstat = s.hstat := rfl
@[simp] theorem State.setResult_result (r : BitVec 16) : (s.setResult r).result = r := rfl
@[simp] theorem State.setResult_cursor (r : BitVec 16) : (s.setResult r).cursor = s.cursor := rfl
@[simp] theorem State.setResult_flags (r : BitVec 16) : (s.setResult r).flags = s.flags := rfl
@[simp] theorem State.setResult_phase (r : BitVec 16) : (s.setResult r).phase = s.phase := rfl
@[simp] theorem State.setResult_rx (r : BitVec 16) : (s.setResult r).rx = s.rx := rfl
@[simp] theorem State.setResult_tx (r : BitVec 16) : (s.setResult r).tx = s.tx := rfl
@[simp] theorem State.setResult_env (r : BitVec 16) : (s.setResult r).env = s.env := rfl

@[simp] theorem State.setCursor_cfg (c : BitVec 8) : (s.setCursor c).cfg = s.cfg := rfl
@[simp] theorem State.setCursor_fb (c : BitVec 8) : (s.setCursor c).fb = s.fb := rfl
@[simp] theorem State.setCursor_pat (c : BitVec 8) : (s.setCursor c).pat = s.pat := rfl
@[simp] theorem State.setCursor_patLen (c : BitVec 8) : (s.setCursor c).patLen = s.patLen := rfl
@[simp] theorem State.setCursor_ssid (c : BitVec 8) : (s.setCursor c).ssid = s.ssid := rfl
@[simp] theorem State.setCursor_pass (c : BitVec 8) : (s.setCursor c).pass = s.pass := rfl
@[simp] theorem State.setCursor_hstat (c : BitVec 8) : (s.setCursor c).hstat = s.hstat := rfl
@[simp] theorem State.setCursor_result (c : BitVec 8) : (s.setCursor c).result = s.result := rfl
@[simp] theorem State.setCursor_cursor (c : BitVec 8) : (s.setCursor c).cursor = c := rfl
@[simp] theorem State.setCursor_flags (c : BitVec 8) : (s.setCursor c).flags = s.flags := rfl
@[simp] theorem State.setCursor_phase (c : BitVec 8) : (s.setCursor c).phase = s.phase := rfl
@[simp] theorem State.setCursor_rx (c : BitVec 8) : (s.setCursor c).rx = s.rx := rfl
@[simp] theorem State.setCursor_tx (c : BitVec 8) : (s.setCursor c).tx = s.tx := rfl
@[simp] theorem State.setCursor_env (c : BitVec 8) : (s.setCursor c).env = s.env := rfl

@[simp] theorem State.setFlags_cfg (f : Flags) : (s.setFlags f).cfg = s.cfg := rfl
@[simp] theorem State.setFlags_fb (f : Flags) : (s.setFlags f).fb = s.fb := rfl
@[simp] theorem State.setFlags_pat (f : Flags) : (s.setFlags f).pat = s.pat := rfl
@[simp] theorem State.setFlags_patLen (f : Flags) : (s.setFlags f).patLen = s.patLen := rfl
@[simp] theorem State.setFlags_ssid (f : Flags) : (s.setFlags f).ssid = s.ssid := rfl
@[simp] theorem State.setFlags_pass (f : Flags) : (s.setFlags f).pass = s.pass := rfl
@[simp] theorem State.setFlags_hstat (f : Flags) : (s.setFlags f).hstat = s.hstat := rfl
@[simp] theorem State.setFlags_result (f : Flags) : (s.setFlags f).result = s.result := rfl
@[simp] theorem State.setFlags_cursor (f : Flags) : (s.setFlags f).cursor = s.cursor := rfl
@[simp] theorem State.setFlags_flags (f : Flags) : (s.setFlags f).flags = f := rfl
@[simp] theorem State.setFlags_phase (f : Flags) : (s.setFlags f).phase = s.phase := rfl
@[simp] theorem State.setFlags_rx (f : Flags) : (s.setFlags f).rx = s.rx := rfl
@[simp] theorem State.setFlags_tx (f : Flags) : (s.setFlags f).tx = s.tx := rfl
@[simp] theorem State.setFlags_env (f : Flags) : (s.setFlags f).env = s.env := rfl

@[simp] theorem State.setPhase_cfg (p : Phase) : (s.setPhase p).cfg = s.cfg := rfl
@[simp] theorem State.setPhase_fb (p : Phase) : (s.setPhase p).fb = s.fb := rfl
@[simp] theorem State.setPhase_pat (p : Phase) : (s.setPhase p).pat = s.pat := rfl
@[simp] theorem State.setPhase_patLen (p : Phase) : (s.setPhase p).patLen = s.patLen := rfl
@[simp] theorem State.setPhase_ssid (p : Phase) : (s.setPhase p).ssid = s.ssid := rfl
@[simp] theorem State.setPhase_pass (p : Phase) : (s.setPhase p).pass = s.pass := rfl
@[simp] theorem State.setPhase_hstat (p : Phase) : (s.setPhase p).hstat = s.hstat := rfl
@[simp] theorem State.setPhase_result (p : Phase) : (s.setPhase p).result = s.result := rfl
@[simp] theorem State.setPhase_cursor (p : Phase) : (s.setPhase p).cursor = s.cursor := rfl
@[simp] theorem State.setPhase_flags (p : Phase) : (s.setPhase p).flags = s.flags := rfl
@[simp] theorem State.setPhase_phase (p : Phase) : (s.setPhase p).phase = p := rfl
@[simp] theorem State.setPhase_rx (p : Phase) : (s.setPhase p).rx = s.rx := rfl
@[simp] theorem State.setPhase_tx (p : Phase) : (s.setPhase p).tx = s.tx := rfl
@[simp] theorem State.setPhase_env (p : Phase) : (s.setPhase p).env = s.env := rfl

@[simp] theorem State.setRx_cfg (l : Bytes) : (s.setRx l).cfg = s.cfg := rfl
@[simp] theorem State.setRx_fb (l : Bytes) : (s.setRx l).fb = s.fb := rfl
@[simp] theorem State.setRx_pat (l : Bytes) : (s.setRx l).pat = s.pat := rfl
@[simp] theorem State.setRx_patLen (l : Bytes) : (s.setRx l).patLen = s.patLen := rfl
@[simp] theorem State.setRx_ssid (l : Bytes) : (s.setRx l).ssid = s.ssid := rfl
@[simp] theorem State.setRx_pass (l : Bytes) : (s.setRx l).pass = s.pass := rfl
@[simp] theorem State.setRx_hstat (l : Bytes) : (s.setRx l).hstat = s.hstat := rfl
@[simp] theorem State.setRx_result (l : Bytes) : (s.setRx l).result = s.result := rfl
@[simp] theorem State.setRx_cursor (l : Bytes) : (s.setRx l).cursor = s.cursor := rfl
@[simp] theorem State.setRx_flags (l : Bytes) : (s.setRx l).flags = s.flags := rfl
@[simp] theorem State.setRx_phase (l : Bytes) : (s.setRx l).phase = s.phase := rfl
@[simp] theorem State.setRx_rx (l : Bytes) : (s.setRx l).rx = l := rfl
@[simp] theorem State.setRx_tx (l : Bytes) : (s.setRx l).tx = s.tx := rfl
@[simp] theorem State.setRx_env (l : Bytes) : (s.setRx l).env = s.env := rfl

@[simp] theorem State.setTx_cfg (l : Bytes) : (s.setTx l).cfg = s.cfg := rfl
@[simp] theorem State.setTx_fb (l : Bytes) : (s.setTx l).fb = s.fb := rfl
@[simp] theorem State.setTx_pat (l : Bytes) : (s.setTx l).pat = s.pat := rfl
@[simp] theorem State.setTx_patLen (l : Bytes) : (s.setTx l).patLen = s.patLen := rfl
@[simp] theorem State.setTx_ssid (l : Bytes) : (s.setTx l).ssid = s.ssid := rfl
@[simp] theorem State.setTx_pass (l : Bytes) : (s.setTx l).pass = s.pass := rfl
@[simp] theorem State.setTx_hstat (l : Bytes) : (s.setTx l).hstat = s.hstat := rfl
@[simp] theorem State.setTx_result (l : Bytes) : (s.setTx l).result = s.result := rfl
@[simp] theorem State.setTx_cursor (l : Bytes) : (s.setTx l).cursor = s.cursor := rfl
@[simp] theorem State.setTx_flags (l : Bytes) : (s.setTx l).flags = s.flags := rfl
@[simp] theorem State.setTx_phase (l : Bytes) : (s.setTx l).phase = s.phase := rfl
@[simp] theorem State.setTx_rx (l : Bytes) : (s.setTx l).rx = s.rx := rfl
@[simp] theorem State.setTx_tx (l : Bytes) : (s.setTx l).tx = l := rfl
@[simp] theorem State.setTx_env (l : Bytes) : (s.setTx l).env = s.env := rfl

@[simp] theorem State.setEnv_cfg (e : Env) : (s.setEnv e).cfg = s.cfg := rfl
@[simp] theorem State.setEnv_fb (e : Env) : (s.setEnv e).fb = s.fb := rfl
@[simp] theorem State.setEnv_pat (e : Env) : (s.setEnv e).pat = s.pat := rfl
@[simp] theorem State.setEnv_patLen (e : Env) : (s.setEnv e).patLen = s.patLen := rfl
@[simp] theorem State.setEnv_ssid (e : Env) : (s.setEnv e).ssid = s.ssid := rfl
@[simp] theorem State.setEnv_pass (e : Env) : (s.setEnv e).pass = s.pass := rfl
@[simp] theorem State.setEnv_hstat (e : Env) : (s.setEnv e).hstat = s.hstat := rfl
@[simp] theorem State.setEnv_result (e : Env) : (s.setEnv e).result = s.result := rfl
@[simp] theorem State.setEnv_cursor (e : Env) : (s.setEnv e).cursor = s.cursor := rfl
@[simp] theorem State.setEnv_flags (e : Env) : (s.setEnv e).flags = s.flags := rfl
@[simp] theorem State.setEnv_phase (e : Env) : (s.setEnv e).phase = s.phase := rfl
@[simp] theorem State.setEnv_rx (e : Env) : (s.setEnv e).rx = s.rx := rfl
@[simp] theorem State.setEnv_tx (e : Env) : (s.setEnv e).tx = s.tx := rfl
@[simp] theorem State.setEnv_env (e : Env) : (s.setEnv e).env = e := rfl

@[simp] theorem State.setCredentials_cfg (a b : Credential) : (s.setCredentials a b).cfg = s.cfg := rfl
@[simp] theorem State.setCredentials_fb (a b : Credential) : (s.setCredentials a b).fb = s.fb := rfl
@[simp] theorem State.setCredentials_pat (a b : Credential) : (s.setCredentials a b).pat = s.pat := rfl
@[simp] theorem State.setCredentials_patLen (a b : Credential) : (s.setCredentials a b).patLen = s.patLen := rfl
@[simp] theorem State.setCredentials_ssid (a b : Credential) : (s.setCredentials a b).ssid = a := rfl
@[simp] theorem State.setCredentials_pass (a b : Credential) : (s.setCredentials a b).pass = b := rfl
@[simp] theorem State.setCredentials_hstat (a b : Credential) : (s.setCredentials a b).hstat = s.hstat := rfl
@[simp] theorem State.setCredentials_result (a b : Credential) : (s.setCredentials a b).result = s.result := rfl
@[simp] theorem State.setCredentials_cursor (a b : Credential) : (s.setCredentials a b).cursor = s.cursor := rfl
@[simp] theorem State.setCredentials_flags (a b : Credential) : (s.setCredentials a b).flags = s.flags := rfl
@[simp] theorem State.setCredentials_phase (a b : Credential) : (s.setCredentials a b).phase = s.phase := rfl
@[simp] theorem State.setCredentials_rx (a b : Credential) : (s.setCredentials a b).rx = s.rx := rfl
@[simp] theorem State.setCredentials_tx (a b : Credential) : (s.setCredentials a b).tx = s.tx := rfl
@[simp] theorem State.setCredentials_env (a b : Credential) : (s.setCredentials a b).env = s.env := rfl

@[simp] theorem State.complete_cfg : s.complete.cfg = s.cfg := rfl
@[simp] theorem State.complete_fb : s.complete.fb = s.fb := rfl
@[simp] theorem State.complete_pat : s.complete.pat = s.pat := rfl
@[simp] theorem State.complete_patLen : s.complete.patLen = s.patLen := rfl
@[simp] theorem State.complete_ssid : s.complete.ssid = s.ssid := rfl
@[simp] theorem State.complete_pass : s.complete.pass = s.pass := rfl
@[simp] theorem State.complete_hstat : s.complete.hstat = s.hstat := rfl
@[simp] theorem State.complete_result : s.complete.result = s.result := rfl
@[simp] theorem State.complete_cursor : s.complete.cursor = s.cursor := rfl
@[simp] theorem State.complete_flags : s.complete.flags = s.flags := rfl
@[simp] theorem State.complete_phase : s.complete.phase = .idle := rfl
@[simp] theorem State.complete_rx : s.complete.rx = s.rx := rfl
@[simp] theorem State.complete_tx : s.complete.tx = s.tx := rfl
@[simp] theorem State.complete_env : s.complete.env = s.env := rfl

@[simp] theorem State.fbClear_cfg : s.fbClear.cfg = s.cfg := rfl
@[simp] theorem State.fbClear_fb : s.fbClear.fb = [] := rfl
@[simp] theorem State.fbClear_pat : s.fbClear.pat = s.pat := rfl
@[simp] theorem State.fbClear_patLen : s.fbClear.patLen = s.patLen := rfl
@[simp] theorem State.fbClear_ssid : s.fbClear.ssid = s.ssid := rfl
@[simp] theorem State.fbClear_pass : s.fbClear.pass = s.pass := rfl
@[simp] theorem State.fbClear_hstat : s.fbClear.hstat = s.hstat := rfl
@[simp] theorem State.fbClear_result : s.fbClear.result = s.result := rfl
@[simp] theorem State.fbClear_cursor : s.fbClear.cursor = s.cursor := rfl
@[simp] theorem State.fbClear_flags : s.fbClear.flags = s.flags := rfl
@[simp] theorem State.fbClear_phase : s.fbClear.phase = s.phase := rfl
@[simp] theorem State.fbClear_rx : s.fbClear.rx = s.rx := rfl
@[simp] theorem State.fbClear_tx : s.fbClear.tx = s.tx := rfl
@[simp] theorem State.fbClear_env : s.fbClear.env = s.env := rfl

@[simp] theorem State.txPush_cfg (l : Bytes) : (s.txPush l).cfg = s.cfg := rfl
@[simp] theorem State.txPush_fb (l : Bytes) : (s.txPush l).fb = s.fb := rfl
@[simp] theorem State.txPush_pat (l : Bytes) : (s.txPush l).pat = s.pat := rfl
@[simp] theorem State.txPush_patLen (l : Bytes) : (s.txPush l).patLen = s.patLen := rfl
@[simp] theorem State.txPush_ssid (l : Bytes) : (s.txPush l).ssid = s.ssid := rfl
@[simp] theorem State.txPush_pass (l : Bytes) : (s.txPush l).pass = s.pass := rfl
@[simp] theorem State.txPush_hstat (l : Bytes) : (s.txPush l).hstat = s.hstat := rfl
@[simp] theorem State.txPush_result (l : Bytes) : (s.txPush l).result = s.result := rfl
@[simp] theorem State.txPush_cursor (l : Bytes) : (s.txPush l).cursor = s.cursor := rfl
@[simp] theorem State.txPush_flags (l : Bytes) : (s.txPush l).flags = s.flags := rfl
@[simp] theorem State.txPush_phase (l : Bytes) : (s.txPush l).phase = s.phase := rfl
@[simp] theorem State.txPush_rx (l : Bytes) : (s.txPush l).rx = s.rx := rfl
@[simp] theorem State.txPush_tx (l : Bytes) : (s.txPush l).tx = s.tx ++ l := rfl
@[simp] theorem State.txPush_env (l : Bytes) : (s.txPush l).env = s.env := rfl

@[simp] theorem State.raiseIllegal_cfg : s.raiseIllegal.cfg = s.cfg := rfl
@[simp] theorem State.raiseIllegal_fb : s.raiseIllegal.fb = s.fb := rfl
@[simp] theorem State.raiseIllegal_pat : s.raiseIllegal.pat = s.pat := rfl
@[simp] theorem State.raiseIllegal_patLen : s.raiseIllegal.patLen = s.patLen := rfl
@[simp] theorem State.raiseIllegal_ssid : s.raiseIllegal.ssid = s.ssid := rfl
@[simp] theorem State.raiseIllegal_pass : s.raiseIllegal.pass = s.pass := rfl
@[simp] theorem State.raiseIllegal_hstat : s.raiseIllegal.hstat = s.hstat := rfl
@[simp] theorem State.raiseIllegal_result : s.raiseIllegal.result = s.result := rfl
@[simp] theorem State.raiseIllegal_cursor : s.raiseIllegal.cursor = s.cursor := rfl
@[simp] theorem State.raiseIllegal_flags : s.raiseIllegal.flags = ⟨s.flags.trunc, s.flags.noeol, s.flags.credOvf, s.flags.errBusy, true, s.flags.rxOverrun⟩ := rfl
@[simp] theorem State.raiseIllegal_phase : s.raiseIllegal.phase = s.phase := rfl
@[simp] theorem State.raiseIllegal_rx : s.raiseIllegal.rx = s.rx := rfl
@[simp] theorem State.raiseIllegal_tx : s.raiseIllegal.tx = s.tx := rfl
@[simp] theorem State.raiseIllegal_env : s.raiseIllegal.env = s.env := rfl

@[simp] theorem State.dropBusy_cfg : s.dropBusy.cfg = s.cfg := rfl
@[simp] theorem State.dropBusy_fb : s.dropBusy.fb = s.fb := rfl
@[simp] theorem State.dropBusy_pat : s.dropBusy.pat = s.pat := rfl
@[simp] theorem State.dropBusy_patLen : s.dropBusy.patLen = s.patLen := rfl
@[simp] theorem State.dropBusy_ssid : s.dropBusy.ssid = s.ssid := rfl
@[simp] theorem State.dropBusy_pass : s.dropBusy.pass = s.pass := rfl
@[simp] theorem State.dropBusy_hstat : s.dropBusy.hstat = s.hstat := rfl
@[simp] theorem State.dropBusy_result : s.dropBusy.result = s.result := rfl
@[simp] theorem State.dropBusy_cursor : s.dropBusy.cursor = s.cursor := rfl
@[simp] theorem State.dropBusy_flags : s.dropBusy.flags = ⟨s.flags.trunc, s.flags.noeol, s.flags.credOvf, true, s.flags.errIllegal, s.flags.rxOverrun⟩ := rfl
@[simp] theorem State.dropBusy_phase : s.dropBusy.phase = s.phase := rfl
@[simp] theorem State.dropBusy_rx : s.dropBusy.rx = s.rx := rfl
@[simp] theorem State.dropBusy_tx : s.dropBusy.tx = s.tx := rfl
@[simp] theorem State.dropBusy_env : s.dropBusy.env = s.env := rfl

@[simp] theorem State.resetWith_cfg (c : Params) (e : Env) : (State.resetWith c e).cfg = c := rfl
@[simp] theorem State.resetWith_fb (c : Params) (e : Env) : (State.resetWith c e).fb = [] := rfl
@[simp] theorem State.resetWith_pat (c : Params) (e : Env) : (State.resetWith c e).pat = Vector.replicate 16 0#8 := rfl
@[simp] theorem State.resetWith_patLen (c : Params) (e : Env) : (State.resetWith c e).patLen = 0 := rfl
@[simp] theorem State.resetWith_ssid (c : Params) (e : Env) : (State.resetWith c e).ssid = Credential.empty := rfl
@[simp] theorem State.resetWith_pass (c : Params) (e : Env) : (State.resetWith c e).pass = Credential.empty := rfl
@[simp] theorem State.resetWith_hstat (c : Params) (e : Env) : (State.resetWith c e).hstat = c.statusInit := rfl
@[simp] theorem State.resetWith_result (c : Params) (e : Env) : (State.resetWith c e).result = 0#16 := rfl
@[simp] theorem State.resetWith_cursor (c : Params) (e : Env) : (State.resetWith c e).cursor = 0#8 := rfl
@[simp] theorem State.resetWith_flags (c : Params) (e : Env) : (State.resetWith c e).flags = Flags.clear := rfl
@[simp] theorem State.resetWith_phase (c : Params) (e : Env) : (State.resetWith c e).phase = .idle := rfl
@[simp] theorem State.resetWith_rx (c : Params) (e : Env) : (State.resetWith c e).rx = [] := rfl
@[simp] theorem State.resetWith_tx (c : Params) (e : Env) : (State.resetWith c e).tx = [] := rfl
@[simp] theorem State.resetWith_env (c : Params) (e : Env) : (State.resetWith c e).env = e := rfl

@[simp] theorem Flags.clearErrors_trunc (f : Flags) : f.clearErrors.trunc = f.trunc := rfl
@[simp] theorem Flags.clearErrors_noeol (f : Flags) : f.clearErrors.noeol = f.noeol := rfl
@[simp] theorem Flags.clearErrors_credOvf (f : Flags) : f.clearErrors.credOvf = f.credOvf := rfl
@[simp] theorem Flags.clearErrors_errBusy (f : Flags) : f.clearErrors.errBusy = false := rfl
@[simp] theorem Flags.clearErrors_errIllegal (f : Flags) : f.clearErrors.errIllegal = false := rfl
@[simp] theorem Flags.clearErrors_rxOverrun (f : Flags) : f.clearErrors.rxOverrun = false := rfl

@[simp] theorem Flags.startCapture_trunc (f : Flags) : f.startCapture.trunc = false := rfl
@[simp] theorem Flags.startCapture_noeol (f : Flags) : f.startCapture.noeol = false := rfl
@[simp] theorem Flags.startCapture_credOvf (f : Flags) : f.startCapture.credOvf = f.credOvf := rfl
@[simp] theorem Flags.startCapture_errBusy (f : Flags) : f.startCapture.errBusy = f.errBusy := rfl
@[simp] theorem Flags.startCapture_errIllegal (f : Flags) : f.startCapture.errIllegal = f.errIllegal := rfl
@[simp] theorem Flags.startCapture_rxOverrun (f : Flags) : f.startCapture.rxOverrun = f.rxOverrun := rfl

@[simp] theorem Flags.setTrunc_trunc (f : Flags) : f.setTrunc.trunc = true := rfl
@[simp] theorem Flags.setTrunc_noeol (f : Flags) : f.setTrunc.noeol = f.noeol := rfl
@[simp] theorem Flags.setTrunc_credOvf (f : Flags) : f.setTrunc.credOvf = f.credOvf := rfl
@[simp] theorem Flags.setTrunc_errBusy (f : Flags) : f.setTrunc.errBusy = f.errBusy := rfl
@[simp] theorem Flags.setTrunc_errIllegal (f : Flags) : f.setTrunc.errIllegal = f.errIllegal := rfl
@[simp] theorem Flags.setTrunc_rxOverrun (f : Flags) : f.setTrunc.rxOverrun = f.rxOverrun := rfl

@[simp] theorem Flags.setNoeol_trunc (f : Flags) : f.setNoeol.trunc = f.trunc := rfl
@[simp] theorem Flags.setNoeol_noeol (f : Flags) : f.setNoeol.noeol = true := rfl
@[simp] theorem Flags.setNoeol_credOvf (f : Flags) : f.setNoeol.credOvf = f.credOvf := rfl
@[simp] theorem Flags.setNoeol_errBusy (f : Flags) : f.setNoeol.errBusy = f.errBusy := rfl
@[simp] theorem Flags.setNoeol_errIllegal (f : Flags) : f.setNoeol.errIllegal = f.errIllegal := rfl
@[simp] theorem Flags.setNoeol_rxOverrun (f : Flags) : f.setNoeol.rxOverrun = f.rxOverrun := rfl

@[simp] theorem Flags.putCredOvf_trunc (f : Flags) (v : Bool) : (f.putCredOvf v).trunc = f.trunc := rfl
@[simp] theorem Flags.putCredOvf_noeol (f : Flags) (v : Bool) : (f.putCredOvf v).noeol = f.noeol := rfl
@[simp] theorem Flags.putCredOvf_credOvf (f : Flags) (v : Bool) : (f.putCredOvf v).credOvf = v := rfl
@[simp] theorem Flags.putCredOvf_errBusy (f : Flags) (v : Bool) : (f.putCredOvf v).errBusy = f.errBusy := rfl
@[simp] theorem Flags.putCredOvf_errIllegal (f : Flags) (v : Bool) : (f.putCredOvf v).errIllegal = f.errIllegal := rfl
@[simp] theorem Flags.putCredOvf_rxOverrun (f : Flags) (v : Bool) : (f.putCredOvf v).rxOverrun = f.rxOverrun := rfl

/-! CAP depends on the parameters alone. -/

@[simp] theorem State.setFb_cap (m : Memory) : (s.setFb m).cap = s.cap := rfl
@[simp] theorem State.setPat_cap (v : Vector Byte 16) : (s.setPat v).cap = s.cap := rfl
@[simp] theorem State.setPatLen_cap (n : Fin 17) : (s.setPatLen n).cap = s.cap := rfl
@[simp] theorem State.setHstat_cap (t : Status) : (s.setHstat t).cap = s.cap := rfl
@[simp] theorem State.setResult_cap (r : BitVec 16) : (s.setResult r).cap = s.cap := rfl
@[simp] theorem State.setCursor_cap (c : BitVec 8) : (s.setCursor c).cap = s.cap := rfl
@[simp] theorem State.setFlags_cap (f : Flags) : (s.setFlags f).cap = s.cap := rfl
@[simp] theorem State.setPhase_cap (p : Phase) : (s.setPhase p).cap = s.cap := rfl
@[simp] theorem State.setRx_cap (l : Bytes) : (s.setRx l).cap = s.cap := rfl
@[simp] theorem State.setTx_cap (l : Bytes) : (s.setTx l).cap = s.cap := rfl
@[simp] theorem State.setEnv_cap (e : Env) : (s.setEnv e).cap = s.cap := rfl
@[simp] theorem State.txPush_cap (l : Bytes) : (s.txPush l).cap = s.cap := rfl
@[simp] theorem State.setCredentials_cap (a b : Credential) : (s.setCredentials a b).cap = s.cap := rfl
@[simp] theorem State.complete_cap : s.complete.cap = s.cap := rfl
@[simp] theorem State.fbClear_cap : s.fbClear.cap = s.cap := rfl
@[simp] theorem State.raiseIllegal_cap : s.raiseIllegal.cap = s.cap := rfl
@[simp] theorem State.dropBusy_cap : s.dropBusy.cap = s.cap := rfl
@[simp] theorem State.resetWith_cap (c : Params) (e : Env) : (State.resetWith c e).cap = c.cap := rfl

end Sys2Proof.Machine
end

