-- ==== Sys2Proof/Laws/Operands.lean ====
section
/-! SUPPORT. The operand forms said in index terms: FB's bytes, the text view, keywords, matches, RESULT values. -/

namespace Sys2Proof.Machine

open Sys2Proof

/-! ### FB and the text view -/

@[simp] theorem State.fbBytes_length (s : State) : s.fbBytes.length = s.cap := by simp [State.fbBytes]

theorem State.fbBytes_getElem (s : State) {j : Nat} (h : j < s.fbBytes.length) :
    s.fbBytes[j] = Memory.read s.fb j := by simp [State.fbBytes]

theorem State.cap_le (s : State) : s.cap ≤ 255 := Nat.min_le_right _ _

theorem State.text_prefix (s : State) : s.text <+: s.fbBytes := List.takeWhile_prefix _

theorem State.textLen_le (s : State) : s.text.length ≤ s.cap := by
  simpa using s.text_prefix.length_le

theorem State.text_getElem (s : State) {j : Nat} (h : j < s.text.length) : s.text[j] = Memory.read s.fb j := by
  rw [s.text_prefix.getElem h, State.fbBytes_getElem]

theorem State.text_ne_zero (s : State) {b : Byte} (h : b ∈ s.text) : b ≠ 0#8 := by
  simpa using List.mem_takeWhile_imp h

/-- The element that ends a `takeWhile` fails its test. -/
theorem getElem_takeWhile_length {α : Type} (p : α → Bool) (l : List α) (h : (l.takeWhile p).length < l.length) :
    p l[(l.takeWhile p).length] = false := by
  induction l with
  | nil => simp at h
  | cons a l ih =>
    by_cases ha : p a
    · simp only [List.takeWhile_cons, ha, if_true, List.length_cons, List.getElem_cons_succ] at h ⊢
      exact ih (by omega)
    · simp [ha]

/-- The text view ends at CAP or before a zero byte. -/
theorem State.read_textLen (s : State) (h : s.text.length < s.cap) : Memory.read s.fb s.text.length = 0#8 := by
  have h' : s.text.length < s.fbBytes.length := by simpa using h
  rw [← State.fbBytes_getElem s h']
  have := getElem_takeWhile_length (fun b : Byte => b != 0#8) s.fbBytes h'
  exact bne_eq_false_iff_eq.mp this

/-- FB's contents and CAP determine the text view. -/
theorem State.text_congr {s t : State} (hfb : t.fb = s.fb) (hcfg : t.cfg = s.cfg) : t.text = s.text := by
  simp [State.text, State.fbBytes, State.cap, hfb, hcfg]

/-! ### Keywords -/

/-- A legal selector has a keyword, an illegal one has none. -/
theorem State.keyword_isSome (s : State) (k : BitVec 4) : (s.keyword k).isSome = validKeyword k := by
  unfold State.keyword keywordRom validKeyword
  split
  · subst k; rfl
  · rename_i hk
    have hk' : k.toNat ≠ 15 := fun h => hk (BitVec.eq_of_toNat_eq h)
    split <;> (simp_all; try omega)

/-- No keyword is longer than PAT. -/
theorem State.keyword_length_le {s : State} {k : BitVec 4} {w : Bytes} (h : s.keyword k = some w) : w.length ≤ 16 := by
  unfold State.keyword keywordRom at h
  split at h
  · cases h; simp [State.patBytes]
  · split at h <;> cases h <;> decide

/-- A command with keyword operand `k` runs on the keyword. -/
theorem State.withKeyword_some {s : State} {k : BitVec 4} {w : Bytes} (h : s.keyword k = some w) (f : Bytes → State) :
    s.withKeyword k f = f w := by simp [State.withKeyword, h]

/-- A command with an illegal selector raises Illegal. -/
theorem State.withKeyword_none {s : State} {k : BitVec 4} (h : s.keyword k = none) (f : Bytes → State) :
    s.withKeyword k f = s.raiseIllegal := by simp [State.withKeyword, h]

/-- Everything a command with a keyword operand can do. -/
theorem State.withKeyword_cases (s : State) (k : BitVec 4) (f : Bytes → State) :
    s.withKeyword k f = s.raiseIllegal ∨ ∃ w, s.keyword k = some w ∧ s.withKeyword k f = f w := by
  cases h : s.keyword k with
  | none => exact .inl (State.withKeyword_none h f)
  | some w => exact .inr ⟨w, rfl, State.withKeyword_some h f⟩

/-! ### Matches -/

/-- `occurs` is "contiguous part of". -/
theorem occurs_iff (w l : Bytes) : occurs w l = true ↔ ∃ p q, l = p ++ w ++ q := by
  have key : occurs w l = true ↔ w <:+: l := by
    induction l with
    | nil => simp [occurs]
    | cons b l ih => simp [occurs, ih, List.infix_cons_iff]
  rw [key]
  constructor
  · rintro ⟨p, q, h⟩; exact ⟨p, q, h.symm⟩
  · rintro ⟨p, q, h⟩; exact ⟨p, q, h.symm⟩

/-- The match of MATCHP, byte by byte. -/
theorem State.matchesPrefix_iff (s : State) (w : Bytes) :
    s.matchesPrefix w = true ↔ w.length ≤ s.cap ∧ ∀ j, (h : j < w.length) → Memory.read s.fb j = w[j] := by
  simp only [State.matchesPrefix, Bool.and_eq_true, decide_eq_true_eq, List.isPrefixOf_iff_prefix]
  refine and_congr_right fun hle => ?_
  rw [List.prefix_iff_getElem]
  constructor
  · rintro ⟨_, h⟩ j hj
    rw [h j hj, State.fbBytes_getElem]
  · intro h
    refine ⟨by simpa using hle, fun j hj => ?_⟩
    rw [State.fbBytes_getElem, h j hj]

/-! ### RESULT values -/

theorem boolResult_cases (b : Bool) : boolResult b = 1#16 ∨ boolResult b = 0#16 := by cases b <;> simp [boolResult]

theorem boolResult_eq_one (b : Bool) : boolResult b = 1#16 ↔ b = true := by cases b <;> simp [boolResult]

/-- A digit value of a byte, and the sentinel, are exact in RESULT. -/
theorem digitResult_toInt {d : Int} (h : -48 ≤ d) (h' : d ≤ 207) : (digitResult d).toInt = d := by
  rw [digitResult, BitVec.toInt_ofInt, Int.bmod_eq_of_le] <;> omega

theorem digitOf_bounds (b : Byte) : -48 ≤ digitOf b ∧ digitOf b ≤ 207 := by
  have := b.isLt
  simp only [digitOf]
  omega

theorem State.getDigit_bounds (s : State) (i : Nat) : -48 ≤ s.getDigit i ∧ s.getDigit i ≤ 207 := by
  unfold State.getDigit
  split
  · exact digitOf_bounds _
  · omega

end Sys2Proof.Machine
end

