-- ==== Sys2Proof/Laws/Steps.lean ====
section
/-! SUPPORT. What each shared operation can do, said once: emitting a line, the Sequencer's turn, the CMD write, the
meaning of each command as one of a few shapes, a step. -/

namespace Sys2Proof.Machine

open Sys2Proof

/-! ### Lines -/

/-- Everything EmitLine can do. -/
theorem State.emitLine_cases (s : State) (body : Bytes) :
    (body.length + 2 + s.tx.length ≤ s.cfg.txDepth ∧ s.emitLine body = s.txPush (body ++ eol)) ∨
    (s.cfg.txDepth < body.length + 2 + s.tx.length ∧ s.emitLine body = s.setPhase (.emit (body ++ eol))) := by
  unfold State.emitLine State.txFree
  by_cases h : body.length + 2 + s.tx.length ≤ s.cfg.txDepth
  · exact .inl ⟨h, by simp only [List.length_append, eol, List.length_cons, List.length_nil]; rw [if_pos (by omega)]⟩
  · exact .inr ⟨by omega, by
      simp only [List.length_append, eol, List.length_cons, List.length_nil]; rw [if_neg (by omega)]⟩

theorem State.emitLine_of_fits {s : State} {body : Bytes} (h : body.length + 2 + s.tx.length ≤ s.cfg.txDepth) :
    s.emitLine body = s.txPush (body ++ eol) := by
  rcases s.emitLine_cases body with h' | h'
  · exact h'.2
  · omega

theorem State.emitLine_of_full {s : State} {body : Bytes} (h : s.cfg.txDepth < body.length + 2 + s.tx.length) :
    s.emitLine body = s.setPhase (.emit (body ++ eol)) := by
  rcases s.emitLine_cases body with h' | h'
  · omega
  · exact h'.2

/-- EmitLine does not write RESULT. -/
@[simp] theorem State.emitLine_result (s : State) (body : Bytes) : (s.emitLine body).result = s.result := by
  rcases s.emitLine_cases body with ⟨_, e⟩ | ⟨_, e⟩ <;> simp [e]

/-- EmitLine does not write the flags. -/
@[simp] theorem State.emitLine_flags (s : State) (body : Bytes) : (s.emitLine body).flags = s.flags := by
  rcases s.emitLine_cases body with ⟨_, e⟩ | ⟨_, e⟩ <;> simp [e]

/-- With PHASE = IDLE, EmitLine stays there exactly when the line with EOL fits. -/
theorem State.emitLine_phase_idle_iff {s : State} (h : s.phase = .idle) (body : Bytes) :
    (s.emitLine body).phase = .idle ↔ body.length + 2 + s.tx.length ≤ s.cfg.txDepth := by
  rcases s.emitLine_cases body with ⟨h1, e⟩ | ⟨h1, e⟩
  · simp [e, h, h1]
  · simp [e, not_le.mpr h1]

/-- Whether a line fits, without truncated subtraction (a line has at least its EOL). -/
theorem State.le_txFree_iff (s : State) {n : Nat} (hn : 0 < n) : n ≤ s.txFree ↔ n + s.tx.length ≤ s.cfg.txDepth := by
  unfold State.txFree; omega

/-! ### Agents -/

theorem State.not_busy {s : State} (h : s.phase = .idle) : s.busy = false := by simp [State.busy, h]

theorem State.busy_of {s : State} (h : s.phase ≠ .idle) : s.busy = true := by simp [State.busy, h]

/-- Everything a CMD write can do. -/
theorem issue_cases (w : Word) (s : State) :
    (s.phase ≠ .idle ∧ issue w s = .next s.dropBusy) ∨
    (s.phase = .idle ∧ ∃ i, decode w = .ok i ∧ issue w s = exec i s) ∨
    (s.phase = .idle ∧ (∀ i, decode w ≠ .ok i) ∧ issue w s = .next s.raiseIllegal) := by
  by_cases h : s.phase = .idle
  · cases hd : decode w with
    | ok i => exact .inr (.inl ⟨h, i, rfl, by simp [issue, State.not_busy h, hd]⟩)
    | error e => exact .inr (.inr ⟨h, by simp, by simp [issue, State.not_busy h, hd]⟩)
  · exact .inl ⟨h, by simp [issue, State.busy_of h]⟩

/-- Everything the Sequencer's turn can do, phase by phase. -/
theorem State.sequencerStep_cases (s : State) :
    s.sequencerStep = s ∨
    (∃ line, s.phase = .emit line ∧ line.length ≤ s.txFree ∧ s.sequencerStep = (s.txPush line).complete) ∨
    (s.phase = .settle 0#16 ∧ s.sequencerStep = s.setPhase (.scan 0)) ∨
    (∃ p, s.phase = .scan p ∧ s.sequencerStep = s.scanStep p) ∨
    (∃ w, s.phase = .copy w ∧ s.sequencerStep = s.copyStep w) ∨
    (∃ line w t, s.phase = .sendtx line w t ∧ line.length ≤ s.txFree ∧
      s.sequencerStep = s.startWindow line w t) ∨
    (∃ w, s.phase = .window 0#16 w ∧ s.sequencerStep = s.closeWindow w) := by
  unfold State.sequencerStep State.sequencerEnabled State.sequencerEffect
  cases h : s.phase with
  | idle => simp
  | emit line => by_cases hl : line.length ≤ s.txFree <;> simp [hl]
  | settle n => by_cases hn : n = 0#16 <;> simp [hn]
  | scan p => simp
  | copy w => simp
  | sendtx line w t => by_cases hl : line.length ≤ s.txFree <;> simp [hl]
  | window n w => by_cases hn : n = 0#16 <;> simp [hn]

/-- Everything a scan step can do. -/
theorem State.scanStep_cases (s : State) (p : Fin 4) :
    (s.rx = [] ∧ s.scanStep p = (s.setResult 0#16).complete) ∨
    (∃ b rest, s.rx = b :: rest ∧ markerNext p b = 4 ∧ s.scanStep p = (s.setRx rest).markerFound) ∨
    (∃ b rest, s.rx = b :: rest ∧ markerNext p b ≠ 4 ∧
      s.scanStep p = (s.setRx rest).setPhase (.scan (Fin.ofNat 4 (markerNext p b)))) := by
  unfold State.scanStep
  cases h : s.rx with
  | nil => simp
  | cons b rest => by_cases h4 : markerNext p b = 4 <;> simp [h4]

/-- Everything a copy step can do. -/
theorem State.copyStep_cases (s : State) (w : Nat) :
    (s.rx = [] ∧ s.copyStep w = s.copyEndNoeol) ∨
    (∃ b rest, s.rx = b :: rest ∧
      ((b = 0x0A#8 ∧ s.copyStep w = ((s.setRx rest).setResult 1#16).complete) ∨
       (b = 0x0D#8 ∧ s.copyStep w = (s.setRx rest).setPhase (.copy w)) ∨
       (b ≠ 0x0A#8 ∧ b ≠ 0x0D#8 ∧ w < s.cap ∧
         s.copyStep w = (((s.setRx rest).setFb (Memory.write s.fb w b)).setPhase (.copy (w + 1)))) ∨
       (b ≠ 0x0A#8 ∧ b ≠ 0x0D#8 ∧ s.cap ≤ w ∧
         s.copyStep w = ((s.setRx rest).setFlags s.flags.setTrunc).setPhase (.copy w)))) := by
  unfold State.copyStep
  cases h : s.rx with
  | nil => simp
  | cons b rest =>
    refine .inr ⟨b, rest, rfl, ?_⟩
    by_cases h1 : b = 0x0A#8
    · simp [h1]
    · by_cases h2 : b = 0x0D#8
      · simp [h2]
      · by_cases h3 : w < s.cap
        · simp [h1, h2, h3, State.fbStore, State.setFb]
        · simp [h1, h2, h3, not_lt.mp h3]

/-- Everything a TICK can do. -/
theorem State.tick_cases (s : State) :
    s.tick = s ∨
    (∃ n, s.phase = .settle n ∧ n ≠ 0#16 ∧ s.tick = s.setPhase (.settle (n - 1#16))) ∨
    (∃ n w, s.phase = .window n w ∧ n ≠ 0#16 ∧ s.tick = s.setPhase (.window (n - 1#16) w)) := by
  unfold State.tick
  cases h : s.phase with
  | idle => simp
  | emit line => simp
  | settle n => by_cases hn : n = 0#16 <;> simp [hn]
  | scan p => simp
  | copy w => simp
  | sendtx line w t => simp
  | window n w => by_cases hn : n = 0#16 <;> simp [hn]

/-- Everything PeerRx can do. -/
theorem State.receive_cases (s : State) (b : Byte) :
    (s.rx.length < s.cfg.rxDepth ∧ s.receive b = s.setRx (s.rx ++ [b])) ∨
    (s.cfg.rxDepth ≤ s.rx.length ∧ s.receive b = s.setFlags { s.flags with rxOverrun := true }) := by
  unfold State.receive
  by_cases h : s.rx.length < s.cfg.rxDepth
  · simp [h]
  · simp [h, not_lt.mp h]

/-- Everything PeerTx can do. -/
theorem State.transmit_cases (s : State) :
    (s.tx = [] ∧ s.transmit = s) ∨
    (∃ b l, s.tx = b :: l ∧ s.transmit = (s.setTx l).setEnv { s.env with wire := s.env.wire ++ [b] }) := by
  unfold State.transmit
  cases h : s.tx with
  | nil => simp
  | cons b l => simp

/-! ### Commands -/

/-- DSTAT: the registers it writes, then the line it emits. -/
theorem execDstat_cases (s : State) :
    (∃ t, s.decodeStatus = some t ∧ execDstat s = .next (((s.setHstat t).setResult 1#16).emitLine rspOk)) ∨
    (s.decodeStatus = none ∧ execDstat s = .next ((s.setResult 0#16).emitLine rspBadValue)) := by
  unfold execDstat
  cases h : s.decodeStatus with
  | none => simp
  | some t => simp

/-- What the credential scan returns without an overflow is at most 16 bytes each. -/
theorem scanPass_lengths (ss ps l : Bytes) (hs : ss.length ≤ 16) (hp : ps.length ≤ 16) :
    (scanPass ss ps l).ssid.length ≤ 16 ∧ (scanPass ss ps l).pass.length ≤ 16 := by
  induction l generalizing ps with
  | nil => exact ⟨hs, hp⟩
  | cons b l ih =>
    simp only [scanPass]
    split
    · exact ⟨hs, hp⟩
    · exact ih _ (by simp; omega)

theorem scanSsid_lengths (ss l : Bytes) (hs : ss.length ≤ 16) :
    (scanSsid ss l).ssid.length ≤ 16 ∧ (scanSsid ss l).pass.length ≤ 16 := by
  induction l generalizing ss with
  | nil => exact ⟨hs, by simp [scanSsid]⟩
  | cons b l ih =>
    simp only [scanSsid]
    split
    · exact scanPass_lengths _ _ _ hs (by simp)
    · split
      · exact ⟨hs, by simp⟩
      · exact ih _ (by simp; omega)

/-- DCRED: the registers it writes, then the line it emits. -/
theorem execDcred_eq (s : State) : ∃ ss ps v r, ss.length ≤ 16 ∧ ps.length ≤ 16 ∧ execDcred s =
    .next ((((s.setCredentials (credentialOf ss) (credentialOf ps)).setFlags (s.flags.putCredOvf v)).setResult r).emitLine
      rspOk) := by
  have hl := scanSsid_lengths [] (s.text.drop 12) (by simp)
  refine ⟨_, _, _, _, ?_, ?_, rfl⟩
  · split
    · simp
    · exact hl.1
  · split
    · simp
    · exact hl.2

/-! ### A step -/

theorem step_eq (s : State) : step s = runAction s.env.nextAction.1 (s.setEnv s.env.nextAction.2) := rfl

theorem step_of_schedule {s : State} {a : Action} {rest : List Action} (h : s.env.schedule = a :: rest) :
    step s = runAction a (s.setEnv { s.env with schedule := rest }) := by
  simp [step, Env.nextAction, h]

end Sys2Proof.Machine
end

