-- ==== Sys2Proof/Laws/Frames.lean ====
section
/-! SUPPORT. Which fields a command's issue step can write, command by command. -/

namespace Sys2Proof.Machine

open Sys2Proof

/-- The fields that only particular commands write, compared between two states. -/
structure SameRegisters (s t : State) : Prop where
  cfg     : t.cfg = s.cfg
  env     : t.env = s.env
  pat     : t.pat = s.pat
  patLen  : t.patLen = s.patLen
  ssid    : t.ssid = s.ssid
  pass    : t.pass = s.pass
  hstat   : t.hstat = s.hstat
  cursor  : t.cursor = s.cursor
  fb      : t.fb = s.fb
  rx      : t.rx = s.rx
  credOvf : t.flags.credOvf = s.flags.credOvf
  errBusy : t.flags.errBusy = s.flags.errBusy
  rxOverrun : t.flags.rxOverrun = s.flags.rxOverrun
  errIllegal : s.flags.errIllegal = true → t.flags.errIllegal = true

theorem SameRegisters.refl (s : State) : SameRegisters s s := by constructor <;> simp

theorem SameRegisters.trans {s t u : State} (h : SameRegisters s t) (h' : SameRegisters t u) : SameRegisters s u where
  cfg := h'.cfg.trans h.cfg
  env := h'.env.trans h.env
  pat := h'.pat.trans h.pat
  patLen := h'.patLen.trans h.patLen
  ssid := h'.ssid.trans h.ssid
  pass := h'.pass.trans h.pass
  hstat := h'.hstat.trans h.hstat
  cursor := h'.cursor.trans h.cursor
  fb := h'.fb.trans h.fb
  rx := h'.rx.trans h.rx
  credOvf := h'.credOvf.trans h.credOvf
  errBusy := h'.errBusy.trans h.errBusy
  rxOverrun := h'.rxOverrun.trans h.rxOverrun
  errIllegal := fun hs => h'.errIllegal (h.errIllegal hs)

theorem SameRegisters.setResult (s : State) (r : BitVec 16) : SameRegisters s (s.setResult r) := by constructor <;> simp

theorem SameRegisters.setPhase (s : State) (p : Phase) : SameRegisters s (s.setPhase p) := by constructor <;> simp

theorem SameRegisters.txPush (s : State) (l : Bytes) : SameRegisters s (s.txPush l) := by constructor <;> simp

theorem SameRegisters.raiseIllegal (s : State) : SameRegisters s s.raiseIllegal := by constructor <;> simp

/-- EmitLine writes the transmit FIFO or PHASE alone. -/
theorem SameRegisters.emitLine (s : State) (body : Bytes) : SameRegisters s (s.emitLine body) := by
  rcases s.emitLine_cases body with h | h
  · rw [h.2]; exact .txPush _ _
  · rw [h.2]; exact .setPhase _ _

/-- A command with a keyword operand writes what its own effect writes, or ERR_ILLEGAL. -/
theorem SameRegisters.withKeyword {s : State} {k : BitVec 4} {f : Bytes → State} (h : ∀ w, SameRegisters s (f w)) :
    SameRegisters s (s.withKeyword k f) := by
  rcases s.withKeyword_cases k f with h' | ⟨w, _, h'⟩
  · rw [h']; exact .raiseIllegal s
  · rw [h']; exact h w

/-- The commands that write none of these fields (ERR_ILLEGAL may become 1). -/
theorem exec_sameRegisters {i : Instr} {s t : State} (h : exec i s = .next t)
    (hi : match i with
      | .clr => False | .setb _ _ => False | .patset _ _ => False | .patlen _ => False | .clrerr => False
      | .drain => False | .field _ => False | .fieldn => False | .dstat => False | .dcred => False
      | .nop => True | .getb _ => True | .getd _ => True | .textlen => True | .matchp _ => True | .matchs _ => True
      | .capture => True | .send _ _ => True | .resp _ => True | .dword _ => True | .rdcred _ _ => True) :
    SameRegisters s t := by
  cases i <;> first | exact hi.elim | skip
  all_goals simp only [exec] at h
  case nop => cases h; exact .refl s
  case getb => cases h; exact .setResult _ _
  case getd => cases h; exact .setResult _ _
  case textlen => cases h; exact .setResult _ _
  case matchp => cases h; exact .withKeyword fun w => .setResult _ _
  case matchs => cases h; exact .withKeyword fun w => .setResult _ _
  case capture =>
    cases h
    split
    · exact (SameRegisters.setResult s _).trans (.setPhase _ _)
    · exact .setPhase _ _
  case send =>
    cases h
    refine .withKeyword fun w => ?_
    split
    · exact (SameRegisters.txPush s _).trans (.setPhase _ _)
    · exact .setPhase _ _
  case resp => cases h; exact .withKeyword fun w => .emitLine _ _
  case dword =>
    cases h
    refine .withKeyword fun w => ?_
    split
    · exact (SameRegisters.setResult s _).trans (.emitLine _ _)
    · exact .setResult _ _
  case rdcred =>
    cases h
    split
    · exact .setResult _ _
    · split
      · exact .setResult _ _
      · exact .raiseIllegal _

end Sys2Proof.Machine
end

