-- ==== Sys2Proof/Laws/Agents.lean ====
section
/-! SUPPORT. Everything a command's issue step can do, and everything an agent step can do, as one case list each; and
what each agent leaves unchanged. -/

namespace Sys2Proof.Machine

open Sys2Proof

/-- The next states of a command's issue step: the plain commands write none of the fields of `SameRegisters`, each other
command has its own shape. -/
inductive CommandEffect (s : State) : Instr → State → Prop where
  | plain {i : Instr} {t : State} (h : SameRegisters s t) : CommandEffect s i t
  | clr : CommandEffect s .clr s.fbClear
  | setb (idx val : BitVec 8) (m : Memory) (r : BitVec 16) (h : s.fbStore idx.toNat val = s.setFb m) :
      CommandEffect s (.setb idx val) ((s.setFb m).setResult r)
  | patset (idx val : BitVec 8) (v : Vector Byte 16) (r : BitVec 16) :
      CommandEffect s (.patset idx val) ((s.setPat v).setResult r)
  | patlen (n : BitVec 8) (l : Fin 17) (r : BitVec 16) : CommandEffect s (.patlen n) ((s.setPatLen l).setResult r)
  | clrerr : CommandEffect s .clrerr (s.setFlags s.flags.clearErrors)
  | drain (r : BitVec 16) : CommandEffect s .drain ((s.fbClear.setRx []).setResult r)
  | field (off : BitVec 8) (r : BitVec 16) (c : BitVec 8) :
      CommandEffect s (.field off) ((s.setResult r).setCursor c)
  | fieldn (r : BitVec 16) (c : BitVec 8) : CommandEffect s .fieldn ((s.setResult r).setCursor c)
  | dstat (t : Status) (r : BitVec 16) (body : Bytes) (h : body.length ≤ 16) :
      CommandEffect s .dstat (((s.setHstat t).setResult r).emitLine body)
  | dcred (ss ps : Bytes) (v : Bool) (r : BitVec 16) (hs : ss.length ≤ 16) (hp : ps.length ≤ 16) :
      CommandEffect s .dcred ((((s.setCredentials (credentialOf ss) (credentialOf ps)).setFlags
        (s.flags.putCredOvf v)).setResult r).emitLine rspOk)

/-- A bounds-checked store writes FB alone. -/
theorem State.fbStore_eq_setFb (s : State) (i : Nat) (v : Byte) : ∃ m, s.fbStore i v = s.setFb m := by
  unfold State.fbStore
  split
  · exact ⟨_, rfl⟩
  · exact ⟨s.fb, rfl⟩

/-- Everything a command's issue step can do. -/
theorem exec_effect {i : Instr} {s t : State} (h : exec i s = .next t) : CommandEffect s i t := by
  cases i
  case clr => cases h; exact .clr
  case setb idx val =>
    cases h
    obtain ⟨m, e⟩ := s.fbStore_eq_setFb idx.toNat val
    rw [e]
    exact .setb idx val m _ e
  case patset => cases h; exact .patset _ _ _ _
  case patlen n =>
    cases h
    by_cases hn : n.toNat ≤ 16
    · rw [dif_pos hn]; exact .patlen _ _ _
    · rw [dif_neg hn]; exact .patlen n s.patLen _
  case clrerr => cases h; exact .clrerr
  case drain => cases h; exact .drain _
  case field => cases h; exact .field _ _ _
  case fieldn => cases h; exact .fieldn _ _
  case dstat =>
    rcases execDstat_cases s with ⟨v, _, e⟩ | ⟨_, e⟩ <;> (simp only [exec, e] at h; cases h)
    · exact .dstat v _ _ (by decide)
    · exact .dstat s.hstat _ _ (by decide)
  case dcred =>
    obtain ⟨c, d, v, r, hc, hd, e⟩ := execDcred_eq s
    simp only [exec, e] at h
    cases h
    exact .dcred _ _ _ _ hc hd
  all_goals exact .plain (exec_sameRegisters h trivial)

/-- The next states of an agent step. -/
inductive ActionEffect (s : State) : Action → State → Prop where
  | reset : ActionEffect s .reset s.hardReset
  | readReg (off : BitVec 8) : ActionEffect s (.readReg off) (s.clientRead off)
  | sequencer : ActionEffect s .sequencer s.sequencerStep
  | peerRx (b : Byte) : ActionEffect s (.peerRx b) (s.receive b)
  | peerTx : ActionEffect s .peerTx s.transmit
  | tick : ActionEffect s .tick s.tick
  | ignored (off : BitVec 8) (w : Word) (h : off ≠ 0#8) : ActionEffect s (.writeReg off w) s
  | dropped (w : Word) (h : s.phase ≠ .idle) : ActionEffect s (.writeReg 0#8 w) s.dropBusy
  | illegal (w : Word) (h : s.phase = .idle) (hd : ∀ i, decode w ≠ .ok i) :
      ActionEffect s (.writeReg 0#8 w) s.raiseIllegal
  | accepted (w : Word) (i : Instr) (t : State) (h : s.phase = .idle) (hd : decode w = .ok i)
      (hx : exec i s = .next t) : ActionEffect s (.writeReg 0#8 w) t

/-- Everything an agent step can do. -/
theorem runAction_effect {a : Action} {s t : State} (h : runAction a s = .next t) : ActionEffect s a t := by
  cases a
  case writeReg off w =>
    simp only [runAction, clientWrite] at h
    by_cases h0 : off = 0#8
    · subst h0
      rw [if_pos rfl] at h
      rcases issue_cases w s with ⟨h1, h2⟩ | ⟨h1, i, hd, h2⟩ | ⟨h1, h3, h2⟩ <;> rw [h2] at h
      · cases h; exact .dropped w h1
      · exact .accepted w i t h1 hd h
      · cases h; exact .illegal w h1 h3
    · rw [if_neg h0] at h; cases h; exact .ignored off w h0
  case reset => cases h; exact .reset
  case readReg => cases h; exact .readReg _
  case sequencer => cases h; exact .sequencer
  case peerRx => cases h; exact .peerRx _
  case peerTx => cases h; exact .peerTx
  case tick => cases h; exact .tick

/-! ### What each agent leaves unchanged -/

/-- A TICK writes PHASE alone. -/
theorem State.tick_eq_setPhase (s : State) : s.tick = s.setPhase s.tick.phase := by
  rcases s.tick_cases with h | ⟨n, _, _, h⟩ | ⟨n, w, _, _, h⟩ <;> rw [h] <;> rfl

/-- The Sequencer writes none of these. -/
theorem State.sequencerStep_unchanged (s : State) :
    s.sequencerStep.cfg = s.cfg ∧ s.sequencerStep.env = s.env ∧ s.sequencerStep.hstat = s.hstat ∧
    s.sequencerStep.ssid = s.ssid ∧ s.sequencerStep.pass = s.pass ∧ s.sequencerStep.pat = s.pat ∧
    s.sequencerStep.patLen = s.patLen ∧ s.sequencerStep.cursor = s.cursor ∧
    s.sequencerStep.flags.credOvf = s.flags.credOvf ∧ s.sequencerStep.flags.errBusy = s.flags.errBusy ∧
    s.sequencerStep.flags.errIllegal = s.flags.errIllegal ∧
    s.sequencerStep.flags.rxOverrun = s.flags.rxOverrun := by
  rcases s.sequencerStep_cases with h | ⟨l, _, _, h⟩ | ⟨_, h⟩ | ⟨p, _, h⟩ | ⟨w, _, h⟩ | ⟨l, w, t, _, _, h⟩ |
    ⟨w, _, h⟩ <;> rw [h]
  · simp
  · simp
  · simp
  · rcases s.scanStep_cases p with ⟨_, h⟩ | ⟨b, r, _, _, h⟩ | ⟨b, r, _, _, h⟩ <;> rw [h] <;> simp [State.markerFound]
  · rcases s.copyStep_cases w with ⟨_, h⟩ | ⟨b, r, _, ⟨_, h⟩ | ⟨_, h⟩ | ⟨_, _, _, h⟩ | ⟨_, _, _, h⟩⟩ <;> rw [h] <;>
      simp [State.copyEndNoeol]
  · simp [State.startWindow]
  · simp [State.closeWindow]

/-- The Sequencer removes received bytes from the head only. -/
theorem State.sequencerStep_rx (s : State) : ∃ n, s.sequencerStep.rx = s.rx.drop n := by
  rcases s.sequencerStep_cases with h | ⟨l, _, _, h⟩ | ⟨_, h⟩ | ⟨p, _, h⟩ | ⟨w, _, h⟩ | ⟨l, w, t, _, _, h⟩ |
    ⟨w, _, h⟩ <;> rw [h]
  · exact ⟨0, rfl⟩
  · exact ⟨0, rfl⟩
  · exact ⟨0, rfl⟩
  · rcases s.scanStep_cases p with ⟨_, h⟩ | ⟨b, r, e, _, h⟩ | ⟨b, r, e, _, h⟩ <;> rw [h]
    · exact ⟨0, rfl⟩
    · exact ⟨1, by rw [e]; rfl⟩
    · exact ⟨1, by rw [e]; rfl⟩
  · rcases s.copyStep_cases w with ⟨_, h⟩ | ⟨b, r, e, ⟨_, h⟩ | ⟨_, h⟩ | ⟨_, _, _, h⟩ | ⟨_, _, _, h⟩⟩ <;> rw [h]
    · exact ⟨0, rfl⟩
    all_goals exact ⟨1, by rw [e]; rfl⟩
  · exact ⟨0, rfl⟩
  · exact ⟨s.rx.length, by simp [State.closeWindow]⟩

/-- PeerTx moves the head byte to the wire and writes nothing else. -/
theorem State.transmit_unchanged (s : State) :
    ∃ l w, s.transmit = (s.setTx l).setEnv { s.env with wire := w } ∧ w ++ l = s.env.wire ++ s.tx ∧
      l.length ≤ s.tx.length := by
  rcases s.transmit_cases with ⟨h, e⟩ | ⟨b, l, h, e⟩
  · exact ⟨s.tx, s.env.wire, by rw [e]; rfl, rfl, le_refl _⟩
  · exact ⟨l, s.env.wire ++ [b], e, by simp [h], by simp [h]⟩

end Sys2Proof.Machine
end

