-- ==== Sys2Proof/Laws/Assembler.lean ====
section
/-! SUPPORT. The lexer on words, character literals, strings and comments, and what the operand readers accept. -/

namespace Sys2Proof.Machine

open Sys2Proof

theorem isWordByte_iff (b : Byte) : isWordByte b = true ↔
    isBlank b = false ∧ b ≠ 0x3B#8 ∧ b ≠ 0x2C#8 ∧ b ≠ 0x27#8 ∧ b ≠ 0x22#8 := by
  simp [isWordByte, and_assoc]

/-- Word bytes are gathered into the word. -/
theorem lex_word_append (acc : Bytes) (ts : List Token) {w : Bytes} (hw : w.all isWordByte = true) (l : Bytes) :
    lex (.word acc) ts (w ++ l) = lex (.word (w.reverse ++ acc)) ts l := by
  induction w generalizing acc with
  | nil => rfl
  | cons b w ih =>
    simp only [List.all_cons, Bool.and_eq_true] at hw
    obtain ⟨h1, h2, h3, h4, h5⟩ := (isWordByte_iff b).mp hw.1
    simp [lex, h1, h2, h3, h4, h5, ih _ hw.2]

/-- A word between tokens is gathered into one token. -/
theorem lex_between_word (ts : List Token) {w : Bytes} (hw : isWord w = true) (l : Bytes) :
    lex .between ts (w ++ l) = lex (.word w.reverse) ts l := by
  cases w with
  | nil => simp [isWord] at hw
  | cons b w =>
    simp only [isWord, List.all_cons, Bool.and_eq_true] at hw
    obtain ⟨h1, h2, h3, h4, h5⟩ := (isWordByte_iff b).mp hw.2.1
    have h := lex_word_append [b] ts hw.2.2 l
    simp [lex, h1, h2, h3, h4, h5, h]

/-- A word at the end of the line. -/
theorem lex_between_word_end (ts : List Token) {w : Bytes} (hw : isWord w = true) :
    lex .between ts w = some (.word w :: ts) := by
  have h := lex_between_word ts hw []
  rw [List.append_nil] at h
  simp [h, lex]

/-- A word, then a blank. -/
theorem lex_between_word_blank (ts : List Token) {w : Bytes} (hw : isWord w = true) (l : Bytes) :
    lex .between ts (w ++ 0x20#8 :: l) = lex .between (.word w :: ts) l := by
  rw [lex_between_word ts hw]; simp [lex, isBlank]

/-- A word, then a comma and a blank. -/
theorem lex_between_word_comma (ts : List Token) {w : Bytes} (hw : isWord w = true) (l : Bytes) :
    lex .between ts (w ++ 0x2C#8 :: 0x20#8 :: l) = lex .between (.comma :: .word w :: ts) l := by
  rw [lex_between_word ts hw]; simp [lex, isBlank]

/-- A character literal. -/
theorem lex_between_char (ts : List Token) (c : Byte) (l : Bytes) :
    lex .between ts (0x27#8 :: c :: 0x27#8 :: l) = lex .between (.char c :: ts) l := by simp [lex, isBlank]

/-- The bytes of a string, up to its closing quote. -/
theorem lex_str (acc : Bytes) (ts : List Token) {s : Bytes} (hs : 0x22#8 ∉ s) (l : Bytes) :
    lex (.str acc) ts (s ++ 0x22#8 :: l) = lex .between (.str (acc.reverse ++ s) :: ts) l := by
  induction s generalizing acc with
  | nil => simp [lex]
  | cons b s ih =>
    simp only [List.mem_cons, not_or] at hs
    simp [lex, Ne.symm hs.1, ih _ hs.2]

/-- A line of one word. -/
theorem assembleLine_bare (cap : Nat) {m : Bytes} (hm : isWord m = true) :
    assembleLine cap m = assembleForm cap m [] := by
  simp [assembleLine, lex_between_word_end [] hm, operandList]

/-- A line of a word and one operand. -/
theorem assembleLine_unary (cap : Nat) {m w : Bytes} (hm : isWord m = true) (hw : isWord w = true) :
    assembleLine cap (m ++ 0x20#8 :: w) = assembleForm cap m [.word w] := by
  simp [assembleLine, lex_between_word_blank [] hm, lex_between_word_end _ hw, operandList, moreOperands]

/-- A line of a word and two operands. -/
theorem assembleLine_binary (cap : Nat) {m w w' : Bytes} (hm : isWord m = true) (hw : isWord w = true)
    (hw' : isWord w' = true) :
    assembleLine cap (m ++ 0x20#8 :: (w ++ 0x2C#8 :: 0x20#8 :: w')) = assembleForm cap m [.word w, .word w'] := by
  simp [assembleLine, lex_between_word_blank [] hm, lex_between_word_comma _ hw, lex_between_word_end _ hw',
    operandList, moreOperands]

/-- A line of a word, an operand and a character literal. -/
theorem assembleLine_char (cap : Nat) {m w : Bytes} (hm : isWord m = true) (hw : isWord w = true) (c : Byte) :
    assembleLine cap (m ++ 0x20#8 :: (w ++ [0x2C#8, 0x20#8, 0x27#8, c, 0x27#8])) =
      assembleForm cap m [.word w, .char c] := by
  have h : lex .between [.comma, .word w, .word m] [0x27#8, c, 0x27#8] =
      some [.char c, .comma, .word w, .word m] := lex_between_char _ c []
  simp [assembleLine, lex_between_word_blank [] hm, lex_between_word_comma _ hw, h, operandList, moreOperands]

/-- A line of a word and a string. -/
theorem assembleLine_str (cap : Nat) {m s : Bytes} (hm : isWord m = true) (hs : 0x22#8 ∉ s) :
    assembleLine cap (m ++ 0x20#8 :: 0x22#8 :: (s ++ [0x22#8])) = assembleForm cap m [.str s] := by
  have h : lex .between [.word m] (0x22#8 :: (s ++ [0x22#8])) = some [.str s, .word m] := by
    have := lex_str [] [.word m] hs []
    simp [lex, isBlank, this]
  simp [assembleLine, lex_between_word_blank [] hm, h, operandList, moreOperands]

/-- The commands `byteCommands` gives, one by one. -/
theorem byteCommands_getElem? (mk : BitVec 8 → BitVec 8 → Instr) (i : Nat) (s : Bytes) (j : Nat) :
    (byteCommands mk i s)[j]? = s[j]?.map (fun b => mk (BitVec.ofNat 8 (i + j)) b) := by
  induction s generalizing i j with
  | nil => simp [byteCommands]
  | cons b s ih =>
    cases j with
    | zero => simp [byteCommands]
    | succ j => simp [byteCommands, ih, Nat.add_assoc, Nat.add_comm 1 j]

theorem byteCommands_length (mk : BitVec 8 → BitVec 8 → Instr) (i : Nat) (s : Bytes) :
    (byteCommands mk i s).length = s.length := by
  induction s generalizing i with
  | nil => rfl
  | cons b s ih => simp [byteCommands, ih]

/-! ### What the operand readers accept: exactly the texts of Safety.lean -/

theorem boundedNumber_word_none {max : Nat} {w : Bytes} (h : ∀ n, number w = some n → max < n) :
    boundedNumber max (.word w) = none := by
  rw [boundedNumber, Option.filter_eq_none_iff]
  intro n hn
  simpa using h n hn

theorem byteOperand_word (w : Bytes) :
    (∀ b, ByteText w b → byteOperand (.word w) = some b) ∧
    ((∀ b, ¬ ByteText w b) → byteOperand (.word w) = none) := by
  refine ⟨?_, fun h => ?_⟩
  · rintro b ⟨n, h, hn, rfl⟩
    simp [byteOperand, boundedNumber, h, hn]
  · rw [byteOperand, boundedNumber_word_none, Option.map_none]
    intro n hn
    by_contra hc
    exact h (BitVec.ofNat 8 n) ⟨n, hn, by omega, by simp; omega⟩

theorem timeoutOperand_word (w : Bytes) :
    (∀ t, TimeText w t → timeoutOperand (.word w) = some t) ∧
    ((∀ t, ¬ TimeText w t) → timeoutOperand (.word w) = none) := by
  refine ⟨?_, fun h => ?_⟩
  · rintro t ⟨n, h, hn, rfl⟩
    simp [timeoutOperand, boundedNumber, h, hn]
  · rw [timeoutOperand, boundedNumber_word_none, Option.map_none]
    intro n hn
    by_contra hc
    exact h (BitVec.ofNat 16 n) ⟨n, hn, by omega, by simp; omega⟩

end Sys2Proof.Machine
end

