-- ==== Sys2Proof/Laws/Capture.lean ====
section
/-! SUPPORT. Runs of the Sequencer in SCAN and COPY: the marker progress is the longest marker prefix that ends the bytes
removed, and the copy stores the line byte by byte. -/

namespace Sys2Proof.Machine

open Sys2Proof

theorem State.sequencerSteps_add (m n : Nat) (s : State) :
    State.sequencerSteps (m + n) s = State.sequencerSteps n (State.sequencerSteps m s) := by
  induction m generalizing s with
  | zero => simp [State.sequencerSteps]
  | succ m ih => rw [Nat.succ_add]; exact ih _

theorem State.sequencerSteps_succ (n : Nat) (s : State) :
    State.sequencerSteps (n + 1) s = (State.sequencerSteps n s).sequencerStep := State.sequencerSteps_add n 1 s

theorem State.sequencerStep_scan {s : State} {p : Fin 4} (h : s.phase = .scan p) : s.sequencerStep = s.scanStep p := by
  simp [State.sequencerStep, State.sequencerEnabled, State.sequencerEffect, h]

theorem State.sequencerStep_copy {s : State} {w : Nat} (h : s.phase = .copy w) : s.sequencerStep = s.copyStep w := by
  simp [State.sequencerStep, State.sequencerEnabled, State.sequencerEffect, h]

theorem State.sequencerStep_settle_zero {s : State} (h : s.phase = .settle 0#16) :
    s.sequencerStep = s.setPhase (.scan 0) := by
  simp [State.sequencerStep, State.sequencerEnabled, State.sequencerEffect, h]

/-! ### The marker -/

theorem suffix_snoc_iff {α : Type} (xs l : List α) (x b : α) : xs ++ [x] <:+ l ++ [b] ↔ b = x ∧ xs <:+ l := by
  constructor
  · rintro ⟨t, h⟩
    rw [← List.append_assoc] at h
    obtain ⟨h1, h2⟩ := List.append_inj' h rfl
    exact ⟨by simpa using h2.symm, ⟨t, h1⟩⟩
  · rintro ⟨rfl, t, rfl⟩
    exact ⟨t, by simp⟩

/-- `p` is the length of the longest proper prefix of the marker that ends `bs`. -/
def MarkerProgress (p : Fin 4) (bs : Bytes) : Prop := ∀ q : Fin 4, q ≠ 0 → (marker.take q.val <:+ bs ↔ p = q)

theorem markerProgress_nil : MarkerProgress 0 [] := by
  intro q hq
  fin_cases q <;> simp_all [marker]

/-- The values of `next(p, b)` (R175). -/
theorem markerNext_spec (p : Fin 4) (b : Byte) :
    markerNext p b ≤ 4 ∧ (markerNext p b = 1 ↔ b = 0x43#8) ∧ (markerNext p b = 2 ↔ b = 0x4D#8 ∧ p = 1) ∧
    (markerNext p b = 3 ↔ b = 0x44#8 ∧ p = 2) ∧ (markerNext p b = 4 ↔ b = 0x2B#8 ∧ p = 3) := by
  unfold markerNext
  fin_cases p <;> simp [marker] <;> split_ifs <;> simp_all

/-- One more byte: the marker is complete exactly when `next(p, b)` is 4, and otherwise `next(p, b)` is the progress. -/
theorem MarkerProgress.snoc {p : Fin 4} {bs : Bytes} (h : MarkerProgress p bs) (b : Byte) :
    (marker <:+ bs ++ [b] ↔ markerNext p b = 4) ∧
    (markerNext p b ≠ 4 → MarkerProgress (Fin.ofNat 4 (markerNext p b)) (bs ++ [b])) := by
  have h1 : marker.take 1 <:+ bs ↔ p = 1 := h 1 (by decide)
  have h2 : marker.take 2 <:+ bs ↔ p = 2 := h 2 (by decide)
  have h3 : marker.take 3 <:+ bs ↔ p = 3 := h 3 (by decide)
  obtain ⟨hle, n1, n2, n3, n4⟩ := markerNext_spec p b
  have e1 : marker.take 1 <:+ bs ++ [b] ↔ markerNext p b = 1 := by
    rw [n1, show marker.take 1 = [] ++ [0x43#8] from rfl, suffix_snoc_iff]; simp
  have e2 : marker.take 2 <:+ bs ++ [b] ↔ markerNext p b = 2 := by
    rw [n2, show marker.take 2 = marker.take 1 ++ [0x4D#8] from rfl, suffix_snoc_iff, h1]
  have e3 : marker.take 3 <:+ bs ++ [b] ↔ markerNext p b = 3 := by
    rw [n3, show marker.take 3 = marker.take 2 ++ [0x44#8] from rfl, suffix_snoc_iff, h2]
  have e4 : marker <:+ bs ++ [b] ↔ markerNext p b = 4 := by
    rw [n4, show marker = marker.take 3 ++ [0x2B#8] from rfl, suffix_snoc_iff, h3]
  refine ⟨e4, fun hn q hq => ?_⟩
  have hq' : Fin.ofNat 4 (markerNext p b) = q ↔ markerNext p b = q.val := by
    rw [Fin.ext_iff]; simp [Fin.ofNat, Nat.mod_eq_of_lt (show markerNext p b < 4 by omega)]
  rw [hq']
  obtain ⟨_ | _ | _ | _ | q, hlt⟩ := q
  · exact absurd rfl hq
  · exact e1
  · exact e2
  · exact e3
  · omega

/-- The scan over bytes none of whose beginnings ends in the marker: they are removed and nothing else happens. -/
theorem State.scan_run {s : State} {bs rest : Bytes} (hp : s.phase = .scan 0) (hrx : s.rx = bs ++ rest)
    (hm : ∀ l, l <+: bs → ¬ marker <:+ l) :
    ∃ p, State.sequencerSteps bs.length s = (s.setRx rest).setPhase (.scan p) ∧ MarkerProgress p bs := by
  induction bs using List.reverseRecOn generalizing rest with
  | nil => exact ⟨0, by cases s; simp_all [State.sequencerSteps, State.setRx, State.setPhase], markerProgress_nil⟩
  | append_singleton bs b ih =>
    obtain ⟨p, hrun, hprog⟩ := ih (rest := b :: rest) (by simpa using hrx)
      fun l hl => hm l (hl.trans (List.prefix_append _ _))
    obtain ⟨hiff, hnext⟩ := hprog.snoc b
    have h4 : markerNext p b ≠ 4 := fun h => hm _ List.prefix_rfl (hiff.mpr h)
    refine ⟨_, ?_, hnext h4⟩
    rw [List.length_append, List.length_singleton, State.sequencerSteps_succ, hrun,
      State.sequencerStep_scan (p := p) rfl]
    simp [State.scanStep, h4]
    rfl

/-! ### The copy -/

/-- What the copy stores of a line: its bytes without the CRs (R177). -/
def storedBytes (line : Bytes) : Bytes := line.filter (fun b => b != 0x0D#8)

@[simp] theorem storedBytes_nil : storedBytes [] = [] := rfl

theorem storedBytes_snoc (l : Bytes) (b : Byte) :
    storedBytes (l ++ [b]) = if b = 0x0D#8 then storedBytes l else storedBytes l ++ [b] := by
  by_cases h : b = 0x0D#8 <;> simp [storedBytes, h, List.filter_append]

/-- The copy over bytes without an LF, from COPY(0) on a zeroed FB with TRUNC 0. -/
theorem State.copy_run {s : State} {line rest : Bytes} (hp : s.phase = .copy 0) (hfb : s.fb = [])
    (ht : s.flags.trunc = false) (hrx : s.rx = line ++ rest) (hlf : 0x0A#8 ∉ line) :
    ∃ m, State.sequencerSteps line.length s =
        (((s.setRx rest).setFb m).setFlags
            { s.flags with trunc := decide (s.cap < (storedBytes line).length) }).setPhase
          (.copy (min (storedBytes line).length s.cap)) ∧
      Memory.wf m = true ∧
      ∀ a, Memory.read m a = if a < s.cap then (storedBytes line).getD a 0#8 else 0#8 := by
  induction line using List.reverseRecOn generalizing rest with
  | nil =>
    refine ⟨[], ?_, rfl, by simp⟩
    obtain ⟨cfg, fb, pat, patLen, ssid, pass, hstat, result, cursor, flags, phase, rx, tx, env⟩ := s
    obtain ⟨trunc, noeol, credOvf, errBusy, errIllegal, rxOverrun⟩ := flags
    simp_all [State.sequencerSteps, State.setRx, State.setPhase, State.setFb, State.setFlags]
  | append_singleton line b ih =>
    simp only [List.mem_append, List.mem_singleton, not_or] at hlf
    obtain ⟨m, hrun, hwf, hread⟩ := ih (rest := b :: rest) (by simpa using hrx) hlf.1
    have hb : b ≠ 0x0A#8 := fun h => hlf.2 h.symm
    rw [List.length_append, List.length_singleton, State.sequencerSteps_succ, hrun, State.sequencerStep_copy rfl,
      storedBytes_snoc]
    by_cases hcr : b = 0x0D#8
    · refine ⟨m, ?_, hwf, by simpa [hcr] using hread⟩
      simp [State.copyStep, hcr]
      rfl
    · simp only [if_neg hcr]
      by_cases hroom : (storedBytes line).length < s.cap
      · refine ⟨Memory.write m (storedBytes line).length b, ?_, Memory.wf_write hwf _ _, ?_⟩
        · have h1 : min (storedBytes line).length s.cap = (storedBytes line).length := by omega
          simp [State.copyStep, hb, hcr, h1, hroom, State.fbStore, not_lt.mpr hroom.le,
            show ¬ s.cap < (storedBytes line).length + 1 by omega]
          rfl
        · intro a
          rw [Memory.read_write hwf, hread]
          by_cases ha : a = (storedBytes line).length
          · subst ha; simp [hroom]
          · simp only [if_neg ha]
            split
            · simp [List.getElem?_append, List.getElem?_cons]
              split
              · rfl
              · rw [List.getElem?_eq_none (by omega), if_neg (by omega)]
            · rfl
      · refine ⟨m, ?_, hwf, ?_⟩
        · have h1 : min (storedBytes line).length s.cap = s.cap := by omega
          have h2 : min ((storedBytes line).length + 1) s.cap = s.cap := by omega
          simp [State.copyStep, hb, hcr, h1, h2, show s.cap < (storedBytes line).length + 1 by omega]
          rfl
        · intro a
          rw [hread]
          split
          · simp [List.getElem?_append, show a < (storedBytes line).length by omega]
          · rfl

end Sys2Proof.Machine
end

