-- ==== Sys2Proof/Laws/Encoding.lean ====
section
/-! SUPPORT. The fields of a command word: reading a composed word's fields, and a word is composed of its fields. -/

namespace Sys2Proof

theorem toNat_append_eq {m n : Nat} (x : BitVec m) (y : BitVec n) : (x ++ y).toNat = x.toNat * 2 ^ n + y.toNat := by
  rw [BitVec.toNat_append, ← Nat.shiftLeft_add_eq_or_of_lt y.isLt, Nat.shiftLeft_eq]

theorem commandWord_toNat (op a : BitVec 8) (b : BitVec 16) :
    (commandWord op a b).toNat = op.toNat * 2 ^ 24 + a.toNat * 2 ^ 16 + b.toNat := by
  simp only [commandWord, toNat_append_eq]; omega

theorem opField_toNat (w : Word) : (opField w).toNat = w.toNat / 2 ^ 24 % 2 ^ 8 := by
  simp [opField, Nat.shiftRight_eq_div_pow]
theorem aField_toNat (w : Word) : (aField w).toNat = w.toNat / 2 ^ 16 % 2 ^ 8 := by
  simp [aField, Nat.shiftRight_eq_div_pow]
theorem bField_toNat (w : Word) : (bField w).toNat = w.toNat % 2 ^ 16 := by
  simp [bField]
theorem kZeroField_toNat (w : Word) : (kZeroField w).toNat = (aField w).toNat / 2 ^ 4 := by
  simp [aField, kZeroField, Nat.shiftRight_eq_div_pow]; omega
theorem kField_toNat (w : Word) : (kField w).toNat = (aField w).toNat % 2 ^ 4 := by
  simp [aField, kField, Nat.shiftRight_eq_div_pow]
theorem vZeroField_toNat (w : Word) : (vZeroField w).toNat = (bField w).toNat / 2 ^ 8 := by
  simp [bField, vZeroField, Nat.shiftRight_eq_div_pow]; omega
theorem vField_toNat (w : Word) : (vField w).toNat = (bField w).toNat % 2 ^ 8 := by
  simp [bField, vField]

theorem opField_commandWord (op a : BitVec 8) (b : BitVec 16) : opField (commandWord op a b) = op := by
  apply BitVec.eq_of_toNat_eq; rw [opField_toNat, commandWord_toNat]; omega
theorem aField_commandWord (op a : BitVec 8) (b : BitVec 16) : aField (commandWord op a b) = a := by
  apply BitVec.eq_of_toNat_eq; rw [aField_toNat, commandWord_toNat]; omega
theorem bField_commandWord (op a : BitVec 8) (b : BitVec 16) : bField (commandWord op a b) = b := by
  apply BitVec.eq_of_toNat_eq; rw [bField_toNat, commandWord_toNat]; omega
theorem kZeroField_commandWord (op : BitVec 8) (k : BitVec 4) (b : BitVec 16) :
    kZeroField (commandWord op (0#4 ++ k) b) = 0#4 := by
  apply BitVec.eq_of_toNat_eq
  rw [kZeroField_toNat, aField_commandWord, toNat_append_eq]; simp; omega
theorem kField_commandWord (op : BitVec 8) (k : BitVec 4) (b : BitVec 16) :
    kField (commandWord op (0#4 ++ k) b) = k := by
  apply BitVec.eq_of_toNat_eq
  rw [kField_toNat, aField_commandWord, toNat_append_eq]; simp; omega
theorem vZeroField_commandWord (op a : BitVec 8) (v : BitVec 8) :
    vZeroField (commandWord op a (0#8 ++ v)) = 0#8 := by
  apply BitVec.eq_of_toNat_eq
  rw [vZeroField_toNat, bField_commandWord, toNat_append_eq]; simp; omega
theorem vField_commandWord (op a : BitVec 8) (v : BitVec 8) :
    vField (commandWord op a (0#8 ++ v)) = v := by
  apply BitVec.eq_of_toNat_eq
  rw [vField_toNat, bField_commandWord, toNat_append_eq]; simp; omega

theorem commandWord_fields (w : Word) : commandWord (opField w) (aField w) (bField w) = w := by
  apply BitVec.eq_of_toNat_eq
  rw [commandWord_toNat, opField_toNat, aField_toNat, bField_toNat]; omega

/-- A field A whose upper half is 0 is its keyword selector. -/
theorem aField_of_kZero {w : Word} (h : kZeroField w = 0#4) : (0#4 ++ kField w : BitVec 8) = aField w := by
  apply BitVec.eq_of_toNat_eq
  have := congrArg BitVec.toNat h
  rw [kZeroField_toNat] at this
  rw [toNat_append_eq, kField_toNat]; simp at this ⊢; omega
theorem bField_of_vZero {w : Word} (h : vZeroField w = 0#8) : (0#8 ++ vField w : BitVec 16) = bField w := by
  apply BitVec.eq_of_toNat_eq
  have := congrArg BitVec.toNat h
  rw [vZeroField_toNat] at this
  rw [toNat_append_eq, vField_toNat]; simp at this ⊢; omega
theorem low24_zero_iff (w : Word) : w.extractLsb' 0 24 = 0#24 ↔ aField w = 0#8 ∧ bField w = 0#16 := by
  simp only [← BitVec.toNat_inj, aField_toNat, bField_toNat]
  simp; omega
end Sys2Proof
end

