-- ==== Sys2Proof/Laws/Fairness.lean ====
section
/-! SUPPORT. Infinite runs: a run of `step` is one, every choice of agent steps has one, and a state stays what every step
keeps. -/

namespace Sys2Proof.Machine

open Sys2Proof

/-- An endless sequence of steps is a run of the agent steps they take. -/
theorem isRun_of_step {r : Nat → State} (h : ∀ n, step (r n) = .next (r (n + 1))) :
    IsRun (fun n => (r n).env.nextAction.1) r := by
  intro n
  have hs := h n
  rw [step_eq] at hs
  cases hsch : (r n).env.schedule with
  | nil => exact ⟨[], (r n).env.turn + 1, by simpa [Env.nextAction, hsch] using hs⟩
  | cons a rest => exact ⟨rest, (r n).env.turn, by simpa [Env.nextAction, hsch] using hs⟩

/-- The state an agent step leads to; every agent step leads to one. -/
def nextState (a : Action) (s : State) : State :=
  match runAction a s with
  | .next t => t
  | .fault _ => s
  | .refused _ => s

theorem runAction_eq_nextState (a : Action) (s : State) : runAction a s = .next (nextState a s) := by
  unfold nextState
  cases h : runAction a s with
  | next t => rfl
  | fault r => cases r
  | refused r =>
    cases a
    case writeReg off w =>
      simp only [runAction, clientWrite] at h
      split at h
      · rcases issue_cases w s with ⟨_, e⟩ | ⟨_, i, _, e⟩ | ⟨_, _, e⟩ <;> rw [e] at h
        · cases h
        · cases i <;> cases h
        · cases h
      · cases h
    all_goals cases h

/-- The run of the agent steps `acts` from `s`. -/
def runFrom (acts : Nat → Action) (s : State) : Nat → State
  | 0 => s
  | n + 1 => nextState (acts n) (runFrom acts s n)

/-- Any agent steps run from any state. -/
theorem isRun_runFrom (acts : Nat → Action) (s : State) : IsRun acts (runFrom acts s) := fun n =>
  ⟨(runFrom acts s n).env.schedule, (runFrom acts s n).env.turn, runAction_eq_nextState _ _⟩

/-- What one step of a run can do, whatever the listed steps are. -/
theorem IsRun.effect {acts : Nat → Action} {r : Nat → State} (h : IsRun acts r) (n : Nat) :
    ∃ e, ActionEffect ((r n).setEnv e) (acts n) (r (n + 1)) := by
  obtain ⟨sch, turn, hr⟩ := h n
  exact ⟨_, runAction_effect hr⟩

end Sys2Proof.Machine
end

