-- ==== Sys2Proof/Laws/Invariant.lean ====
section
/-! SUPPORT. The invariant under each shared operation: a state that differs only in fields the invariant does not read,
a state with another phase, and the FIFO, FrameBuffer and line operations. -/

namespace Sys2Proof.Machine

open Sys2Proof

/-- Fields outside the invariant may change freely. -/
theorem State.Inv.congr {s t : State} (h : s.Inv) (hcfg : t.cfg = s.cfg) (hfb : t.fb = s.fb) (hrx : t.rx = s.rx)
    (htx : t.tx = s.tx) (hss : t.ssid = s.ssid) (hps : t.pass = s.pass) (hph : t.phase = s.phase) : t.Inv where
  memory_wf := by rw [hfb]; exact h.memory_wf
  memory_below := by rw [hfb, State.cap, hcfg]; exact h.memory_below
  rx_fits := by rw [hrx, hcfg]; exact h.rx_fits
  tx_fits := by rw [htx, hcfg]; exact h.tx_fits
  ssid_padded := by rw [hss]; exact h.ssid_padded
  pass_padded := by rw [hps]; exact h.pass_padded
  phase_ok := by
    have hp := h.phase_ok
    unfold State.PhaseOk at hp ⊢
    rw [hph, hfb, State.cap, hcfg]
    exact hp

theorem State.Inv.setResult {s : State} (h : s.Inv) (r : BitVec 16) : (s.setResult r).Inv :=
  h.congr rfl rfl rfl rfl rfl rfl rfl

theorem State.Inv.setFlags {s : State} (h : s.Inv) (f : Flags) : (s.setFlags f).Inv :=
  h.congr rfl rfl rfl rfl rfl rfl rfl

theorem State.Inv.setHstat {s : State} (h : s.Inv) (v : Status) : (s.setHstat v).Inv :=
  h.congr rfl rfl rfl rfl rfl rfl rfl

theorem State.Inv.setCursor {s : State} (h : s.Inv) (c : BitVec 8) : (s.setCursor c).Inv :=
  h.congr rfl rfl rfl rfl rfl rfl rfl

theorem State.Inv.setPat {s : State} (h : s.Inv) (v : Vector Byte 16) : (s.setPat v).Inv :=
  h.congr rfl rfl rfl rfl rfl rfl rfl

theorem State.Inv.setPatLen {s : State} (h : s.Inv) (n : Fin 17) : (s.setPatLen n).Inv :=
  h.congr rfl rfl rfl rfl rfl rfl rfl

theorem State.Inv.setEnv {s : State} (h : s.Inv) (e : Env) : (s.setEnv e).Inv :=
  h.congr rfl rfl rfl rfl rfl rfl rfl

/-- Any phase whose carried state is in order may be entered. -/
theorem State.Inv.setPhase {s : State} (h : s.Inv) {p : Phase} (hp : (s.setPhase p).PhaseOk) : (s.setPhase p).Inv where
  memory_wf := h.memory_wf
  memory_below := h.memory_below
  rx_fits := h.rx_fits
  tx_fits := h.tx_fits
  ssid_padded := h.ssid_padded
  pass_padded := h.pass_padded
  phase_ok := hp

theorem State.Inv.complete {s : State} (h : s.Inv) : s.complete.Inv := h.setPhase (p := .idle) trivial

/-- The receive FIFO may hold any bytes that fit. -/
theorem State.Inv.setRx {s : State} (h : s.Inv) {l : Bytes} (hl : l.length ≤ s.cfg.rxDepth) : (s.setRx l).Inv where
  memory_wf := h.memory_wf
  memory_below := h.memory_below
  rx_fits := hl
  tx_fits := h.tx_fits
  ssid_padded := h.ssid_padded
  pass_padded := h.pass_padded
  phase_ok := h.phase_ok

/-- The transmit FIFO may hold any bytes that fit. -/
theorem State.Inv.setTx {s : State} (h : s.Inv) {l : Bytes} (hl : l.length ≤ s.cfg.txDepth) : (s.setTx l).Inv where
  memory_wf := h.memory_wf
  memory_below := h.memory_below
  rx_fits := h.rx_fits
  tx_fits := hl
  ssid_padded := h.ssid_padded
  pass_padded := h.pass_padded
  phase_ok := h.phase_ok

/-- With no command in progress FB may hold any canonical contents below CAP. -/
theorem State.Inv.setFb {s : State} (h : s.Inv) (hp : s.phase = .idle) {m : Memory} (hw : Memory.wf m = true)
    (hb : Memory.below m s.cap = true) : (s.setFb m).Inv where
  memory_wf := hw
  memory_below := hb
  rx_fits := h.rx_fits
  tx_fits := h.tx_fits
  ssid_padded := h.ssid_padded
  pass_padded := h.pass_padded
  phase_ok := by simp [State.PhaseOk, hp]

/-- A decoded credential is zero-padded. -/
theorem credentialOf_padded (l : Bytes) (hl : l.length ≤ 16) : (credentialOf l).Padded := by
  intro i hi
  have h : (credentialOf l).len.val = l.length := by
    simp [credentialOf, Fin.ofNat, Nat.mod_eq_of_lt (show l.length < 17 by omega)]
  rw [h] at hi
  simp [credentialOf, List.getElem?_eq_none hi]

theorem State.Inv.setCredentials {s : State} (h : s.Inv) {c d : Credential} (hc : c.Padded) (hd : d.Padded) :
    (s.setCredentials c d).Inv where
  memory_wf := h.memory_wf
  memory_below := h.memory_below
  rx_fits := h.rx_fits
  tx_fits := h.tx_fits
  ssid_padded := hc
  pass_padded := hd
  phase_ok := h.phase_ok

/-- Emitting a body of at most 16 bytes. -/
theorem State.Inv.emitLine {s : State} (h : s.Inv) {body : Bytes} (hb : body.length ≤ 16) : (s.emitLine body).Inv := by
  rcases s.emitLine_cases body with ⟨hf, e⟩ | ⟨_, e⟩ <;> rw [e]
  · exact h.setTx (by simp [eol]; omega)
  · exact h.setPhase (by simp [State.PhaseOk, eol]; omega)

/-- The credential registers after reset are zero-padded. -/
theorem Credential.empty_padded : Credential.empty.Padded := by
  intro i _
  simp [Credential.empty]

end Sys2Proof.Machine
end

