-- ==== Sys2Proof/Laws/PerInstr.lean ====
section
/-! SUPPORT. The family Legality: `legal` (30_encoding.md R108) accepts a command's word exactly when the command is well
formed. One lemma per constructor. -/

namespace Sys2Proof.Laws

open Sys2Proof

/-- `legal` of the command's word is the command's well-formedness. -/
def Legality.Statement (i : Instr) : Prop := legal (encode i) = i.wellFormed

/-- The bits 23:0 of a word without operands are 0. -/
theorem low24_commandWord_zero (op : BitVec 8) : (commandWord op 0#8 0#16).extractLsb' 0 24 = 0#24 :=
  (low24_zero_iff _).mpr ⟨aField_commandWord _ _ _, bField_commandWord _ _ _⟩

theorem Legality.nop : Legality.Statement .nop := rfl
theorem Legality.clr : Legality.Statement .clr := rfl
theorem Legality.getb (idx : BitVec 8) : Legality.Statement (.getb idx) := by
  simp [Legality.Statement, legal, encode, Instr.wellFormed, opField_commandWord, bField_commandWord]
theorem Legality.getd (idx : BitVec 8) : Legality.Statement (.getd idx) := by
  simp [Legality.Statement, legal, encode, Instr.wellFormed, opField_commandWord, bField_commandWord]
theorem Legality.setb (idx val : BitVec 8) : Legality.Statement (.setb idx val) := by
  simp [Legality.Statement, legal, encode, Instr.wellFormed, opField_commandWord, vZeroField_commandWord]
theorem Legality.textlen : Legality.Statement .textlen := rfl
theorem Legality.matchp (k : BitVec 4) : Legality.Statement (.matchp k) := by
  simp [Legality.Statement, legal, encode, Instr.wellFormed, opField_commandWord, bField_commandWord,
    kZeroField_commandWord, kField_commandWord]
theorem Legality.matchs (k : BitVec 4) : Legality.Statement (.matchs k) := by
  simp [Legality.Statement, legal, encode, Instr.wellFormed, opField_commandWord, bField_commandWord,
    kZeroField_commandWord, kField_commandWord]
theorem Legality.patset (idx val : BitVec 8) : Legality.Statement (.patset idx val) := by
  simp [Legality.Statement, legal, encode, Instr.wellFormed, opField_commandWord, vZeroField_commandWord]
theorem Legality.patlen (n : BitVec 8) : Legality.Statement (.patlen n) := by
  simp [Legality.Statement, legal, encode, Instr.wellFormed, opField_commandWord, bField_commandWord]
theorem Legality.clrerr : Legality.Statement .clrerr := rfl
theorem Legality.capture : Legality.Statement .capture := rfl
theorem Legality.drain : Legality.Statement .drain := rfl
theorem Legality.send (k : BitVec 4) (t : BitVec 16) : Legality.Statement (.send k t) := by
  simp [Legality.Statement, legal, encode, Instr.wellFormed, opField_commandWord, kZeroField_commandWord,
    kField_commandWord]
theorem Legality.field (off : BitVec 8) : Legality.Statement (.field off) := by
  simp [Legality.Statement, legal, encode, Instr.wellFormed, opField_commandWord, bField_commandWord]
theorem Legality.fieldn : Legality.Statement .fieldn := rfl
theorem Legality.resp (k : BitVec 4) : Legality.Statement (.resp k) := by
  simp [Legality.Statement, legal, encode, Instr.wellFormed, opField_commandWord, bField_commandWord,
    kZeroField_commandWord, kField_commandWord]
theorem Legality.dstat : Legality.Statement .dstat := rfl
theorem Legality.dcred : Legality.Statement .dcred := rfl
theorem Legality.dword (k : BitVec 4) : Legality.Statement (.dword k) := by
  simp [Legality.Statement, legal, encode, Instr.wellFormed, opField_commandWord, bField_commandWord,
    kZeroField_commandWord, kField_commandWord]
theorem Legality.rdcred (sel idx : BitVec 8) : Legality.Statement (.rdcred sel idx) := by
  simp [Legality.Statement, legal, encode, Instr.wellFormed, opField_commandWord, aField_commandWord,
    vZeroField_commandWord, validSelector]

end Sys2Proof.Laws
end

