-- ==== Sys2Proof/Laws/Registers.lean ====
section
/-! SUPPORT. STAT bit by bit and its phase code. -/

namespace Sys2Proof.Machine

open Sys2Proof

theorem State.stat_bits (s : State) :
    s.stat.getLsbD 0 = s.busy ∧ s.stat.getLsbD 1 = s.rxne ∧ s.stat.getLsbD 2 = s.flags.trunc ∧
    s.stat.getLsbD 3 = s.flags.noeol ∧ s.stat.getLsbD 4 = s.flags.credOvf ∧ s.stat.getLsbD 5 = s.flags.errBusy ∧
    s.stat.getLsbD 6 = s.flags.errIllegal ∧ s.stat.getLsbD 7 = s.flags.rxOverrun := by
  simp only [State.stat, BitVec.getLsbD_append, BitVec.getLsbD_ofBool]
  simp

theorem State.stat_phase (s : State) : s.stat.toNat / 2 ^ 8 = s.phase.code.toNat := by
  have hb (b : Bool) : b.toNat < 2 := by cases b <;> simp
  have h1 := hb s.flags.rxOverrun
  have h2 := hb s.flags.errIllegal
  have h3 := hb s.flags.errBusy
  have h4 := hb s.flags.credOvf
  have h5 := hb s.flags.noeol
  have h6 := hb s.flags.trunc
  have h7 := hb s.rxne
  have h8 := hb s.busy
  simp only [State.stat, toNat_append_eq, BitVec.toNat_ofBool]
  simp; omega

end Sys2Proof.Machine
end

