-- ==== Sys2Proof/Tests/Slice0.lean ====
section
/-! SUPPORT. The model's own tests: the well-formedness checks, a word written out field by field for every constructor,
one-step tests from the vectors of spec 95_test_vectors.md, and for each statement with hypotheses a concrete state and
operands that meet them. -/

namespace Sys2Proof.Tests

open Sys2Proof Sys2Proof.Machine

/-! ### States for the tests -/

/-- The parameters of 95_test_vectors.md with the given capacity request: RX_DEPTH 64, TX_DEPTH 257, SETTLE_TICKS 2,
TIMEOUT_UNIT_TICKS 500, STATUS_INIT (0,0,0). -/
def params (cap : Nat) : Params := ⟨cap, 63, 0, 2#16, 500#15, ⟨.disarmed, .none, .noneTriggered⟩⟩

/-- The reset state with these parameters. -/
def fresh (cap : Nat) : State := State.resetWith (params cap) Env.empty

/-- FrameBuffer storage holding `l` from index `i` up. -/
def load : Nat → Bytes → Memory
  | _, [] => []
  | i, b :: l => Memory.write (load (i + 1) l) i b

/-- "FB = s". -/
def line (cap : Nat) (s : String) : State := (fresh cap).setFb (load 0 (ascii s))

/-- "RX = s". -/
def received (cap : Nat) (s : String) : State := (fresh cap).setRx (ascii s)

/-- A field of the next state. -/
def after {α : Type} (o : Host.Outcome State Fault Refusal) (f : State → α) : Option α :=
  match o with
  | .next t => some (f t)
  | .fault _ => none
  | .refused _ => none

/-! ### Well-formedness: each check refuses an ill-formed term -/

theorem test_wellFormed_matchp_keyword : Instr.wellFormed (.matchp 9) = false := by decide
theorem test_wellFormed_matchs_keyword : Instr.wellFormed (.matchs 14) = false := by decide
theorem test_wellFormed_send_keyword : Instr.wellFormed (.send 10 500) = false := by decide
theorem test_wellFormed_resp_keyword : Instr.wellFormed (.resp 12) = false := by decide
theorem test_wellFormed_dword_keyword : Instr.wellFormed (.dword 9) = false := by decide
theorem test_wellFormed_rdcred_selector : Instr.wellFormed (.rdcred 2 0) = false := by decide
theorem test_wellFormed_bounds : Instr.wellFormed (.matchp 8) = true ∧ Instr.wellFormed (.send 15 65535) = true ∧
    Instr.wellFormed (.rdcred 1 255) = true ∧ Instr.wellFormed (.setb 255 255) = true := by decide

/-! ### Decoding: the fields of R101-R105 with the opcodes of R107 -/

theorem test_decode_nop : decode (0b00000000#8 ++ 0b000000000000000000000000#24) = .ok .nop := by decide
theorem test_decode_clr : decode (0b00000001#8 ++ 0b000000000000000000000000#24) = .ok .clr := by decide
theorem test_decode_getb : decode (0b00000010#8 ++ 0b10000001#8 ++ 0b0000000000000000#16) = .ok (.getb 129) := by decide
theorem test_decode_getd : decode (0b00000011#8 ++ 0b00000111#8 ++ 0b0000000000000000#16) = .ok (.getd 7) := by decide
theorem test_decode_setb : decode (0b00000100#8 ++ 0b00000011#8 ++ 0b00000000#8 ++ 0b01000001#8) =
    .ok (.setb 3 0x41) := by decide
theorem test_decode_textlen : decode (0b00000101#8 ++ 0b000000000000000000000000#24) = .ok .textlen := by decide
theorem test_decode_matchp : decode (0b00000110#8 ++ 0b0000#4 ++ 0b1000#4 ++ 0b0000000000000000#16) =
    .ok (.matchp 8) := by decide
theorem test_decode_matchs : decode (0b00000111#8 ++ 0b0000#4 ++ 0b0011#4 ++ 0b0000000000000000#16) =
    .ok (.matchs 3) := by decide
theorem test_decode_patset : decode (0b00001000#8 ++ 0b00000001#8 ++ 0b00000000#8 ++ 0b01001011#8) =
    .ok (.patset 1 0x4B) := by decide
theorem test_decode_patlen : decode (0b00001001#8 ++ 0b00010001#8 ++ 0b0000000000000000#16) = .ok (.patlen 17) := by
  decide
theorem test_decode_clrerr : decode (0b00001111#8 ++ 0b000000000000000000000000#24) = .ok .clrerr := by decide
theorem test_decode_capture : decode (0b00010000#8 ++ 0b000000000000000000000000#24) = .ok .capture := by decide
theorem test_decode_drain : decode (0b00010001#8 ++ 0b000000000000000000000000#24) = .ok .drain := by decide
theorem test_decode_send : decode (0b00100000#8 ++ 0b0000#4 ++ 0b1111#4 ++ 0b1000000000000001#16) =
    .ok (.send 15 32769) := by decide
theorem test_decode_field : decode (0b00100001#8 ++ 0b11111110#8 ++ 0b0000000000000000#16) = .ok (.field 254) := by
  decide
theorem test_decode_fieldn : decode (0b00100010#8 ++ 0b000000000000000000000000#24) = .ok .fieldn := by decide
theorem test_decode_resp : decode (0b00100011#8 ++ 0b0000#4 ++ 0b0111#4 ++ 0b0000000000000000#16) = .ok (.resp 7) := by
  decide
theorem test_decode_dstat : decode (0b00110000#8 ++ 0b000000000000000000000000#24) = .ok .dstat := by decide
theorem test_decode_dcred : decode (0b00110001#8 ++ 0b000000000000000000000000#24) = .ok .dcred := by decide
theorem test_decode_dword : decode (0b00110010#8 ++ 0b0000#4 ++ 0b0100#4 ++ 0b0000000000000000#16) =
    .ok (.dword 4) := by decide
theorem test_decode_rdcred : decode (0b00110011#8 ++ 0b00000001#8 ++ 0b00000000#8 ++ 0b11111111#8) =
    .ok (.rdcred 1 255) := by decide

/-- The illegal words of 95_test_vectors.md 2.1, each refused by its own name. -/
theorem test_decode_refusals :
    decode 0x00000001#32 = .error (.reservedBits 0x00000001#32) ∧
    decode 0x02000001#32 = .error (.reservedBits 0x02000001#32) ∧
    decode 0x04000100#32 = .error (.reservedBits 0x04000100#32) ∧
    decode 0x06100000#32 = .error (.reservedBits 0x06100000#32) ∧
    decode 0x201601F4#32 = .error (.reservedBits 0x201601F4#32) ∧
    decode 0x060E0000#32 = .error (.illegalKeyword 14) ∧ decode 0x200A01F4#32 = .error (.illegalKeyword 10) ∧
    decode 0x33020000#32 = .error (.illegalSelector 2) ∧
    decode 0x0A000000#32 = .error (.unassignedOpcode 0x0A) ∧ decode 0xFF000000#32 = .error (.unassignedOpcode 0xFF) := by
  decide

theorem test_decodeTableWord : decodeTableWord 32 0x200601F4 = some (.send 6 500) ∧
    decodeTableWord 32 0x40000000 = none := by decide

/-! ### The assembler: the examples of R113 and the expansions of R112 -/

theorem test_assemble : assemble 64 [ascii "NOP ; nothing", ascii "SETB 3, 'A'", ascii "SEND KW_OK, 500",
    ascii "SEND PAT, 0", ascii "RDCRED PASS, 3", ascii "GETB 0x05", ascii "AWAIT_OK 500", ascii ""] =
    some [0x00000000#32, 0x04030041#32, 0x200601F4#32, 0x200F0000#32, 0x33010003#32, 0x02050000#32, 0x200601F4#32] := by
  decide

theorem test_assemble_pseudo : assembleLine 64 (ascii "LDPAT \"OK\"") =
      some [.patset 0 0x4F, .patset 1 0x4B, .patlen 2] ∧
    assembleLine 2 (ascii "LDLINE \"A,\"") = some [.clr, .setb 0 0x41, .setb 1 0x2C] ∧
    assembleLine 1 (ascii "LDLINE \"A,\"") = none ∧ assembleLine 64 (ascii "GETB 256") = none ∧
    assembleLine 64 (ascii "MATCHP 9") = none ∧ assembleLine 64 (ascii "RDCRED 2, 0") = none ∧
    assembleLine 64 (ascii "SEND KW_OK, 65536") = none ∧
    assembleLine 64 (ascii "LDPAT \"ABCDEFGHIJKLMNOPQ\"") = none ∧
    assembleLine 64 (ascii "LDLINE \"" ++ [0x00#8] ++ ascii "\"") = none ∧
    assembleLine 64 (ascii "SETB 0, '" ++ [0xFF#8] ++ ascii "'") = some [.setb 0 0xFF] := by decide

/-! ### One step of each command -/

theorem test_getb : after (exec (.getb 7) (line 64 "STATUS:1,2,0")) State.result = some 0x0031#16 := by decide
theorem test_getb_sentinel : after (exec (.getb 8) (line 8 "ABCDEFGHI")) State.result = some 0#16 := by decide
theorem test_getd_wraps : after (exec (.getd 8) (line 64 "STATUS:1,2,0")) State.result = some 0xFFFC#16 := by decide
theorem test_getd_sentinel : after (exec (.getd 64) (line 64 "STATUS:1,2,0")) State.result = some 0xFFFF#16 := by decide
theorem test_setb : after (exec (.setb 6 0) (line 64 "STATUS:1,2,0")) (fun t => (t.result, t.textLen)) =
    some (1#16, 6) := by decide
theorem test_setb_out : after (exec (.setb 0 0x41) (line 0 "")) (fun t => (t.result, t.fb)) = some (0#16, []) := by decide
theorem test_clr : after (exec .clr (line 64 "STATUS:1,2,0")) (fun t => (t.result, t.textLen)) = some (0#16, 0) := by
  decide
theorem test_textlen : after (exec .textlen (line 64 "STATUS:1,2,0")) State.result = some 12#16 := by decide
theorem test_textlen_full : after (exec .textlen (line 4 "ABCD")) State.result = some 4#16 := by decide
theorem test_matchp : after (exec (.matchp 1) (line 64 "STATUS:1,2,0")) State.result = some 1#16 := by decide
theorem test_matchp_longer_than_cap :
    after (exec (.matchp 2) (line 8 "CREDENTI").fbClear) State.result = some 0#16 := by decide
theorem test_matchs : after (exec (.matchs 4) (line 64 "CREDENTIALS:MYRESETNET,x")) State.result = some 1#16 := by decide
theorem test_matchs_empty_pattern : after (exec (.matchs 15) (line 0 "")) State.result = some 1#16 := by decide
theorem test_patset : after (exec (.patset 15 0x78) (fresh 64)) (fun t => (t.result, t.pat[15])) =
    some (1#16, 0x78#8) := by decide
theorem test_patset_out : after (exec (.patset 16 0x78) (fresh 64)) State.result = some 0#16 := by decide
theorem test_patlen : after (exec (.patlen 16) (fresh 64)) (fun t => (t.result, t.readReg 9)) =
    some (1#16, 0x10#32) := by decide
theorem test_patlen_out : after (exec (.patlen 17) (fresh 64)) (fun t => (t.result, t.readReg 9)) =
    some (0#16, 0#32) := by decide
theorem test_clrerr : after (exec .clrerr ((fresh 64).setFlags ⟨true, false, false, true, true, true⟩)) State.stat =
    some 0x004#32 := by decide
theorem test_nop : exec .nop (line 64 "STATUS:1,2,0") = .next (line 64 "STATUS:1,2,0") := rfl
theorem test_capture : after (exec .capture (received 64 "CMD+X\n")) State.stat = some 0x203#32 := by decide
theorem test_capture_empty : after (exec .capture (fresh 64)) (fun t => (t.result, t.stat)) = some (0#16, 0#32) := by
  decide
theorem test_scan_restart : ((received 64 "CMD+X\n").setPhase (.scan 1)).sequencerStep.phase = .scan 1 := by decide
theorem test_scan_found : (((line 64 "OLD").setRx (ascii "+X\n")).setPhase (.scan 3)).sequencerStep.phase = .copy 0 ∧
    (((line 64 "OLD").setRx (ascii "+X\n")).setPhase (.scan 3)).sequencerStep.textLen = 0 := by decide
theorem test_copy_full : ((received 8 ",2,0\r\n").setPhase (.copy 8)).sequencerStep.stat = 0x407#32 := by decide
theorem test_drain : after (exec .drain ((line 64 "STA").setRx (ascii "TUS:1\r\n")))
    (fun t => (t.result, t.rx, t.textLen)) = some (7#16, [], 0) := by decide
theorem test_send : after (exec (.send 6 3) (line 64 "CMD+DEVICE_ID:42")) (fun t => (t.stat, t.tx)) =
    some (0x601#32, ascii "CMD+DEVICE_ID:42\r\n") := by decide
set_option maxRecDepth 4096 in
theorem test_send_hold : after (exec (.send 6 3) ((line 64 "CMD+DEVICE_ID:42").setTx (List.replicate 250 0x20#8)))
    State.stat = some 0x501#32 := by decide
theorem test_window_close : ((received 64 "RSP+OK\r\n").setPhase (.window 0 (ascii "OK"))).sequencerStep.result = 1#16 ∧
    ((received 64 "RSP+BAD_VALUE\r\n").setPhase (.window 0 (ascii "OK"))).sequencerStep.result = 0#16 := by decide
theorem test_field : after (exec (.field 7) (line 64 "STATUS:1,2,0")) (fun t => (t.result, t.cursor)) =
    some (1#16, 9#8) := by decide
theorem test_field_wraps : after (exec (.field 255) (line 64 "STATUS:1,2,0")) (fun t => (t.result, t.cursor)) =
    some (0xFFFF#16, 1#8) := by decide
theorem test_fieldn : after (exec .fieldn ((line 64 "STATUS:1,2,0").setCursor 13)) (fun t => (t.result, t.cursor)) =
    some (0xFFD0#16, 15#8) := by decide
theorem test_resp : after (exec (.resp 7) (fresh 64)) State.tx =
    some [0x52, 0x53, 0x50, 0x2B, 0x4F, 0x4B, 0x0D, 0x0A] := by decide
theorem test_resp_empty_pattern : after (exec (.resp 15) (fresh 64)) State.tx = some [0x0D, 0x0A] := by decide
theorem test_dstat : after (exec .dstat (line 64 "STATUS:1,2,0")) (fun t => (t.result, t.readReg 3, t.tx)) =
    some (1#16, 0x09#32, ascii "RSP+OK\r\n") := by decide
theorem test_dstat_rejected : after (exec .dstat (line 11 "STATUS:1,2,")) (fun t => (t.result, t.readReg 3, t.tx)) =
    some (0#16, 0x00#32, ascii "RSP+BAD_VALUE\r\n") := by decide
theorem test_dcred : after (exec .dcred (line 64 "CREDENTIALS:net,pa,ss"))
    (fun t => (t.result, t.readReg 7, t.pass.bytes.toList.take 6)) = some (1#16, 0x0503#32, ascii "pa,ss" ++ [0]) := by
  decide
theorem test_dcred_overflow : after (exec .dcred (line 64 "CREDENTIALS:ABCDEFGHIJKLMNOPQ,pw"))
    (fun t => (t.result, t.readReg 7, t.stat, t.tx)) = some (0#16, 0#32, 0x010#32, ascii "RSP+OK\r\n") := by decide
theorem test_dword : after (exec (.dword 4) (line 64 "CREDENTIALS:RESETNET,pw")) (fun t => (t.result, t.tx)) =
    some (1#16, ascii "RSP+OK\r\n") := by decide
theorem test_dword_none : after (exec (.dword 3) (line 64 "RESET")) (fun t => (t.result, t.tx)) = some (0#16, []) := by
  decide
theorem test_rdcred : after (exec (.rdcred 1 5) ((fresh 64).setCredentials (credentialOf (ascii "home"))
    (credentialOf (ascii "secret")))) State.result = some 0x74#16 := by decide
theorem test_rdcred_out : after (exec (.rdcred 0 16) ((fresh 64).setCredentials (credentialOf (ascii "home"))
    (credentialOf (ascii "secret")))) State.result = some 0#16 := by decide

/-! ### Agents, errors, reset -/

theorem test_busy_drop : after (runAction (.writeReg 0 0x01000000) ((line 64 "CMD+X").setPhase (.window 3 [])))
    (fun t => (t.stat, t.textLen)) = some (0x621#32, 5) := by decide
theorem test_illegal : after (runAction (.writeReg 0 0x40000000) ((fresh 64).setResult 9)) (fun t => (t.stat, t.result)) =
    some (0x040#32, 9#16) := by decide
theorem test_overrun : after (runAction (.peerRx 0x45) ((fresh 64).setRx (List.replicate 64 0x41#8)))
    (fun t => (t.stat, t.rx.length)) = some (0x082#32, 64) := by decide
theorem test_reset : after (runAction .reset ((line 64 "CMD+X").setPhase (.window 3 []))) (fun t => (t.stat, t.textLen)) =
    some (0#32, 0) := by decide
theorem test_capreg : (fresh 300).readReg 6 = 0xFF#32 ∧ (fresh 64).readReg 6 = 0x40#32 := by decide

/-- The word given to `withFetchWord` is the command the very next step runs, in any state. -/
theorem test_withFetchWord (s : State) : step (s.withFetchWord 32 0x21070000) = exec (.field 7) (s.setPhase .idle) := rfl

/-- It runs as the first command after reset. -/
theorem test_withFetchWord_reset : after (step (State.reset.withFetchWord 32 0x22000000)) State.cursor = some 2#8 := by
  decide

/-! ### Witnesses: what meets the hypotheses of each statement, clause by clause, at the ends of their ranges -/

/-- The beginnings of a list are those `inits` lists, so that hypotheses about them can be decided. -/
theorem forall_prefix {p : Bytes → Prop} {l : Bytes} (h : ∀ m ∈ l.inits, p m) : ∀ m, m <+: l → p m :=
  fun m hm => h m ((List.mem_inits m l).mpr hm)

/-- A state in `phase`, with nothing in FB. -/
def inPhase (p : Phase) : State := (fresh 64).setPhase p

theorem fresh_inv : (fresh 64).Inv :=
  ⟨rfl, rfl, by decide, by decide, Credential.empty_padded, Credential.empty_padded, trivial⟩

theorem witness_Inv : (inPhase (.emit [0x4F, 0x0D, 0x0A])).Inv ∧ (inPhase (.sendtx [0x0D, 0x0A] [] 3)).Inv ∧
    (inPhase (.settle 2)).Inv ∧ (inPhase (.copy 64)).Inv ∧ (inPhase (.window 0 (ascii "OK"))).Inv :=
  ⟨fresh_inv.setPhase ⟨by decide, by decide⟩, fresh_inv.setPhase ⟨by decide, by decide, by decide⟩,
    fresh_inv.setPhase (show (2#16).toNat ≤ _ by decide), fresh_inv.setPhase ⟨by decide, by decide⟩,
    fresh_inv.setPhase (show (ascii "OK").length ≤ 16 by decide)⟩

theorem witness_DecodeOfEncode : Instr.wellFormed (.send 8 65535) = true ∧ Instr.wellFormed (.matchp 15) = true ∧
    Instr.wellFormed (.rdcred 1 16) = true ∧ Instr.wellFormed .nop = true := by decide
theorem witness_EncodeOfDecode : decode 0x330100FF#32 = .ok (.rdcred 1 255) ∧ decode 0x200FFFFF#32 = .ok (.send 15 65535) := by
  decide
theorem witness_KeywordBytes : (((fresh 64).setPatLen 16).keyword 15).isSome = true ∧
    ((15 : Fin 16).val < ((fresh 64).setPatLen 16).patLen.val) ∧ 9 ≤ (9#4).toNat ∧ (14#4).toNat ≤ 14 := by decide
/-- Texts at the ends of each operand's range and just outside, one per clause. -/
theorem witness_AssemblerFormsAndRefusals :
    assembleLine 64 (ascii "MATCHP KW_RSP_BAD_VALUE") = some [.matchp 8] ∧
    (isWord (ascii "RSP_BAD") = true ∧ isWord (ascii "GETB") = true ∧ isWord (ascii "0xff") = true) ∧
    (ByteText (ascii "255") 255#8 ∧ ByteText (ascii "0xff") 255#8 ∧ ∀ b, ¬ ByteText (ascii "256") b) ∧
    (TimeText (ascii "65535") 65535#16 ∧ ∀ t, ¬ TimeText (ascii "65536") t) ∧
    (KeywordText (ascii "PAT") 15#4 ∧ KeywordText (ascii "8") 8#4 ∧ number (ascii "9") = some 9) ∧
    (SelectorText (ascii "PASS") 1#8 ∧ number (ascii "2") = some 2) ∧
    (0x22#8 ∉ ascii "ABCDEFGHIJKLMNOP" ∧ (ascii "ABCDEFGHIJKLMNOP").length ≤ 16 ∧
      16 < (ascii "ABCDEFGHIJKLMNOPQ").length ∧ (ascii "AB").length ≤ 2 ∧ 0x00#8 ∉ ascii "AB" ∧
      2 < (ascii "ABC").length ∧ 0x00#8 ∈ [0x00#8]) ∧
    (0x27#8 ∉ ascii "NOP " ∧ 0x22#8 ∉ ascii "NOP " ∧ 0x3B#8 ∉ ascii "NOP ") := by
  have none_of {w : Bytes} {n : Nat} (h : number w = some n) :
      (255 < n → ∀ b, ¬ ByteText w b) ∧ (65535 < n → ∀ t, ¬ TimeText w t) :=
    ⟨fun hn b ⟨m, e, hm, _⟩ => by rw [h] at e; cases e; omega,
      fun hn t ⟨m, e, hm, _⟩ => by rw [h] at e; cases e; omega⟩
  exact ⟨by decide, by decide,
    ⟨⟨255, by decide⟩, ⟨255, by decide⟩, (none_of (n := 256) (by decide)).1 (by decide)⟩,
    ⟨⟨65535, by decide⟩, (none_of (n := 65536) (by decide)).2 (by decide)⟩,
    ⟨.inl ⟨("PAT", 15), by decide⟩, .inr ⟨8, by decide⟩, by decide⟩,
    ⟨.inr (.inl (by decide)), by decide⟩, by decide, by decide⟩
theorem witness_StepKeepsInv : (inPhase (.copy 64)).Inv ∧
    step ((inPhase (.copy 64)).setEnv ⟨[.sequencer], 0, [], []⟩) =
      .next ((((inPhase (.copy 64)).setFlags ⟨false, true, false, false, false, false⟩).setResult 1).complete) :=
  ⟨witness_Inv.2.2.2.1, rfl⟩
theorem witness_StepRunsTheDecodedCommand :
    ((fresh 64).setEnv ⟨[.writeReg 0 0x21070000, .tick], 0, [], []⟩).env.schedule = [.writeReg 0 0x21070000, .tick] ∧
    (fresh 64).phase = .idle ∧ decode 0x21070000#32 = .ok (.field 7) := by decide
theorem witness_GetbAndGetdResults : (63#8).toNat < (fresh 64).cap ∧ (fresh 64).cap ≤ (64#8).toNat ∧
    (254#8).toNat < (fresh 255).cap ∧ (fresh 255).cap ≤ (255#8).toNat ∧
    (0#8).toNat < (fresh 1).cap ∧ (fresh 0).cap ≤ (0#8).toNat := by decide
theorem witness_SetbStoresOneByte : Memory.wf (line 64 "STATUS:1,2,0").fb = true ∧
    (63#8).toNat < (line 64 "STATUS:1,2,0").cap ∧ (line 64 "STATUS:1,2,0").cap ≤ (64#8).toNat := by decide
theorem witness_TextlenResult : after (exec .textlen (line 64 "STATUS:1,2,0")) State.result = some 12#16 ∧
    12 < (line 64 "STATUS:1,2,0").cap ∧ 11 < 12 := by decide
theorem witness_TextIsFbUpToFirstZero : 3 < (line 4 "ABCD").text.length ∧ (line 64 "AB").text.length < 64 := by decide
theorem witness_MatchsResult : (fresh 64).keyword 8 = some rspBadValue ∧ (fresh 64).keyword 15 = some [] ∧
    (fresh 64).keyword 9 = none ∧ (fresh 64).keyword 14 = none := by decide
theorem witness_MatchpResult : (line 7 "STATUS:").keyword 1 = some (ascii "STATUS:") ∧
    (ascii "STATUS:").length ≤ (line 7 "STATUS:").cap ∧
    (∀ j, (h : j < (ascii "STATUS:").length) → Memory.read (line 7 "STATUS:").fb j = (ascii "STATUS:")[j]) ∧
    (fresh 64).keyword 9 = none ∧ (fresh 64).keyword 14 = none := by decide
theorem witness_PatsetAndPatlenResults : (15#8).toNat < 16 ∧ 16 ≤ (16#8).toNat ∧ (16#8).toNat ≤ 16 ∧
    16 < (17#8).toNat := by decide
theorem witness_CaptureIssue : (fresh 64).rx = [] ∧ (received 64 "C").rx ≠ [] := by decide
/-- SETTLE at and above 0, and the phases in which a TICK has no effect, the two counters at 0 among them. -/
theorem witness_SettlePhaseAndTicksElsewhere : (inPhase (.settle 1)).phase = .settle 1 ∧ 1#16 ≠ 0#16 ∧
    (inPhase (.settle 0)).phase = .settle 0#16 ∧
    (∀ p ∈ [Phase.idle, .scan 3, .copy 64, .emit [0x0D, 0x0A], .sendtx [0x0D, 0x0A] [] 1, .settle 0, .window 0 []],
      (∀ n, n ≠ 0#16 → (inPhase p).phase ≠ .settle n) ∧ ∀ n w, n ≠ 0#16 → (inPhase p).phase ≠ .window n w) ∧
    (inPhase .idle).phase = .idle := by
  refine ⟨rfl, by decide, rfl, ?_, rfl⟩
  simp only [List.mem_cons, List.not_mem_nil, or_false]
  rintro p (rfl | rfl | rfl | rfl | rfl | rfl | rfl) <;>
    exact ⟨fun n hn h => by cases h <;> exact hn rfl, fun n w hn h => by cases h <;> exact hn rfl⟩
theorem witness_ScanStep : (inPhase (.scan 3)).phase = .scan 3 ∧ (inPhase (.scan 3)).rx = [] ∧
    ((inPhase (.scan 3)).setRx (ascii "+")).rx = [0x2B#8] ∧
    [0x43#8, 0x4D#8, 0x44#8, 0x2B#8][3]? = some 0x2B#8 ∧ [0x43#8, 0x4D#8, 0x44#8, 0x2B#8][3]? ≠ some 0x43#8 ∧
    [0x43#8, 0x4D#8, 0x44#8, 0x2B#8][0]? ≠ some 0x00#8 := by decide
theorem witness_CopyStep : (inPhase (.copy 64)).phase = .copy 64 ∧ Memory.wf (inPhase (.copy 64)).fb = true ∧
    (inPhase (.copy 64)).rx = [] ∧ ((inPhase (.copy 63)).setRx [0x41]).rx = [0x41#8] ∧ 0x41#8 ≠ 0x0A#8 ∧ 0x41#8 ≠ 0x0D#8 ∧
    63 < (inPhase (.copy 63)).cap ∧ (inPhase (.copy 64)).cap ≤ 64 := by decide
theorem witness_MarkerFoundExactlyAtCmdPlus :
    (((inPhase (.scan 0)).setRx (ascii "CCMD+OK")).phase = .scan 0 ∧
      ((inPhase (.scan 0)).setRx (ascii "CCMD+OK")).rx = ascii "CCMD+" ++ ascii "OK") ∧
    (∀ p, p <+: ascii "CCMD+" → p ≠ ascii "CCMD+" → ¬ marker <:+ p) ∧ marker <:+ ascii "CCMD+" ∧
    (∀ p, p <+: ascii "CMD" → p ≠ ascii "CMD" → ¬ marker <:+ p) ∧ ¬ marker <:+ ascii "CMD" :=
  ⟨by decide, forall_prefix (by decide), by decide, forall_prefix (by decide), by decide⟩
theorem witness_CaptureOfACompleteLine :
    (received 64 "xCMD+AB\r\nZ").phase = .idle ∧
    (received 64 "xCMD+AB\r\nZ").rx = ascii "x" ++ marker ++ ascii "AB\r" ++ 0x0A#8 :: ascii "Z" ∧
    (∀ p, p <+: ascii "x" ++ marker → p ≠ ascii "x" ++ marker → ¬ marker <:+ p) ∧ 0x0A#8 ∉ ascii "AB\r" :=
  ⟨by decide, by decide, forall_prefix (by decide), by decide⟩
theorem witness_CaptureOnAnEmptyFifo :
    (((inPhase (.scan 0)).setRx (ascii "CMD")).phase = .scan 0 ∧ ∀ p, p <+: ascii "CMD" → ¬ marker <:+ p) ∧
    ((inPhase (.copy 0)).setRx (ascii "AB\r")).phase = .copy 0 ∧ (inPhase (.copy 0)).fb = [] ∧
    (inPhase (.copy 0)).flags.trunc = false ∧ 0x0A#8 ∉ ascii "AB\r" :=
  ⟨⟨by decide, forall_prefix (by decide)⟩, by decide, by decide, by decide, by decide⟩
theorem witness_DrainEmptiesTheFifo : ((fresh 64).setRx (List.replicate 64 0)).rx.length ≤ (fresh 64).cfg.rxDepth := by
  decide
set_option maxRecDepth 4096 in
/-- A line of 18 bytes with EOL fits beside 239 bytes and no more. -/
theorem witness_SendIssue : (line 64 "CMD+DEVICE_ID:42").keyword 15 = some [] ∧ (fresh 64).keyword 9 = none ∧
    (line 64 "CMD+DEVICE_ID:42").text.length + 2 +
      ((line 64 "CMD+DEVICE_ID:42").setTx (List.replicate 239 0)).tx.length ≤ (fresh 64).cfg.txDepth ∧
    (fresh 64).cfg.txDepth < (line 64 "CMD+DEVICE_ID:42").text.length + 2 +
      ((line 64 "CMD+DEVICE_ID:42").setTx (List.replicate 240 0)).tx.length := by decide
set_option maxRecDepth 4096 in
/-- RSP+BAD_VALUE with EOL fits beside 242 bytes and no more. -/
theorem witness_RespEmitsTheKeyword : (fresh 64).keyword 8 = some rspBadValue ∧ (fresh 64).keyword 14 = none ∧
    rspBadValue.length + 2 + ((fresh 64).setTx (List.replicate 242 0)).tx.length ≤ (fresh 64).cfg.txDepth ∧
    (fresh 64).cfg.txDepth < rspBadValue.length + 2 + ((fresh 64).setTx (List.replicate 243 0)).tx.length := by decide
set_option maxRecDepth 4096 in
theorem witness_SendtxHoldAndWindowCount : 2 + (List.replicate 255 0).length ≤ (fresh 64).cfg.txDepth ∧
    (fresh 64).cfg.txDepth < 2 + (List.replicate 256 0).length ∧ (inPhase (.sendtx [0x0D, 0x0A] [] 0)).phase = .sendtx [0x0D, 0x0A] [] 0#16 ∧
    ([0x0D, 0x0A] : Bytes) ≠ [] ∧ (inPhase (.window 1 [])).phase = .window 1 [] ∧ 1#16 ≠ 0#16 := by decide
theorem witness_WindowClose : (inPhase (.window 0 [])).phase = .window 0#16 [] := by decide
theorem witness_WindowHoldsUntilTheLastTick : (inPhase (.window 3 [])).phase = .window 3 [] ∧
    Action.reset ∉ [Action.tick, .peerRx 0x4F, .sequencer, .writeReg 0 0, .tick] ∧
    [Action.tick, .peerRx 0x4F, .sequencer, .writeReg 0 0, .tick].count .tick < (3#16).toNat := by decide
theorem witness_SendSucceedsExactlyWhenTheTokenArrived :
    (line 64 "A").keyword 6 = some (ascii "OK") ∧
    (line 64 "A").text.length + 2 + (line 64 "A").tx.length ≤ (line 64 "A").cfg.txDepth ∧
    (∀ a ∈ [Action.tick, .peerRx 0x4F, .peerTx, .peerRx 0x4B], a = .tick ∨ a = .peerTx ∨ ∃ b, a = .peerRx b) ∧
    [Action.tick, .peerRx 0x4F, .peerTx, .peerRx 0x4B].count .tick = (1#16).toNat ∧
    (line 64 "A").rx.length + 4 ≤ (line 64 "A").cfg.rxDepth :=
  ⟨by decide, by decide, by simp, by decide, by decide⟩
/-- A run in which the Sequencer takes every step, from WINDOW(0) and from WINDOW(1). -/
theorem witness_FairRunsCloseTheWindow : ∀ n : BitVec 16,
    IsRun (fun _ => .sequencer) (runFrom (fun _ => .sequencer) (inPhase (.window n (ascii "OK")))) ∧
    FairFor .sequencer (fun _ => .sequencer) (runFrom (fun _ => .sequencer) (inPhase (.window n (ascii "OK")))) ∧
    (runFrom (fun _ => .sequencer) (inPhase (.window n (ascii "OK"))) 0).phase = .window n (ascii "OK") ∧
    (runFrom (fun _ => .sequencer) (inPhase (.window n (ascii "OK"))) 0).rx = [] ∧ ascii "OK" ≠ [] ∧ 1#16 ≠ 0#16 ∧
    Action.sequencer ≠ .reset ∧ Action.sequencer ≠ .tick ∧ ∀ b, Action.sequencer ≠ .peerRx b := fun _ =>
  ⟨isRun_runFrom _ _, fun k _ => ⟨k, Nat.le_refl k, rfl⟩, rfl, rfl, by decide, by decide, by decide, by decide, nofun⟩
theorem witness_FieldWalker : (13#8).toNat < ((line 64 "STATUS:1,2,0").setCursor 13).cap ∧
    ((line 64 "").setCursor 64).cap ≤ ((line 64 "").setCursor 64).cursor.toNat := by decide
set_option maxRecDepth 4096 in
theorem witness_EmitLineAndHold : (inPhase (.emit [0x0D, 0x0A])).phase = .emit [0x0D, 0x0A] ∧
    ([0x0D, 0x0A] : Bytes) ≠ [] ∧
    2 + ((inPhase (.emit [0x0D, 0x0A])).setTx (List.replicate 255 0)).tx.length ≤ (fresh 64).cfg.txDepth ∧
    (fresh 64).cfg.txDepth < 2 + ((inPhase (.emit [0x0D, 0x0A])).setTx (List.replicate 256 0)).tx.length := by decide
theorem witness_EveryLineFitsAnEmptyFifo :
    ((inPhase (.emit [0x4F, 0x0D, 0x0A])).Inv ∧ (inPhase (.emit [0x4F, 0x0D, 0x0A])).tx = []) ∧
    (inPhase (.sendtx [0x0D, 0x0A] [] 3)).Inv ∧ (inPhase (.sendtx [0x0D, 0x0A] [] 3)).tx = [] :=
  ⟨⟨witness_Inv.1, rfl⟩, witness_Inv.2.1, rfl⟩
theorem witness_DstatValidates :
    ((line 64 "STATUS:2,2,3").getDigit 7, (line 64 "STATUS:2,2,3").getDigit 9, (line 64 "STATUS:2,2,3").getDigit 11) =
      (2, 2, 3) ∧
    ((line 64 "STATUS:0,0,0").getDigit 7, (line 64 "STATUS:3,0,0").getDigit 7, (line 64 "STATUS:/,0,0").getDigit 7,
      (line 11 "STATUS:1,2,").getDigit 11) = (0, 3, -1, -1) := by decide
theorem witness_StatusRoundTrip : 12 ≤ (line 12 "STATUS:2,1,3").cap ∧
    (∀ j, (h : j < (statusLine ⟨.alert, .stay, .offline⟩).length) →
      Memory.read (line 12 "STATUS:2,1,3").fb j = (statusLine ⟨.alert, .stay, .offline⟩)[j]) := by decide
theorem witness_DcredDecodesTheFields :
    (((line 64 "CREDENTIALS:ABCDEFGHIJKLMNOP,b").text.drop 12).takeWhile (fun b => b != 0x2C#8)).length ≤ 16 ∧
    16 < (((line 64 "CREDENTIALS:ABCDEFGHIJKLMNOPQ,b").text.drop 12).takeWhile (fun b => b != 0x2C#8)).length ∧
    16 < ((((line 64 "CREDENTIALS:a,ABCDEFGHIJKLMNOPQ").text.drop 12).dropWhile (fun b => b != 0x2C#8)).drop 1).length := by
  decide
theorem witness_CredentialsRoundTrip :
    (line 64 "CREDENTIALS:home,ABCDEFGHIJKLMNOP").phase = .idle ∧
    8 + (line 64 "CREDENTIALS:home,ABCDEFGHIJKLMNOP").tx.length ≤ (fresh 64).cfg.txDepth ∧
    (line 64 "CREDENTIALS:home,ABCDEFGHIJKLMNOP").text = credentialsLine (ascii "home") (ascii "ABCDEFGHIJKLMNOP") ∧
    0x2C#8 ∉ ascii "home" ∧ (15#8).toNat < 16 ∧ (ascii "ABCDEFGHIJKLMNOP").length ≤ 16 ∧
    (line 64 "CREDENTIALS:home,ABCDEFGHIJKLMNOPQ").text = credentialsLine (ascii "home") (ascii "ABCDEFGHIJKLMNOPQ") ∧
    16 < (ascii "ABCDEFGHIJKLMNOPQ").length := by decide
theorem witness_DwordRecognises : (∃ p q, (line 64 "xCHANGEy").text = p ++ ascii "CHANGE" ++ q) ∧
    ¬ ∃ p q, (line 64 "").text = p ++ ascii "CHANGE" ++ q :=
  ⟨⟨ascii "x", ascii "y", by decide⟩, by
    rintro ⟨p, q, h⟩
    have := congrArg List.length h
    rw [show (line 64 "").text = [] from by decide] at this
    simp [ascii] at this⟩
theorem witness_RdcredResult : (15 : Fin 16).val = (15#8).toNat ∧ 16 ≤ (16#8).toNat ∧ (1#8).toNat ≤ 1 ∧ 2 ≤ (2#8).toNat := by
  decide
theorem witness_IllegalWordSetsOnlyErrIllegal : (fresh 64).phase = .idle ∧ legal 0x40000000#32 = false ∧
    legal 0x06090000#32 = false := by decide
theorem witness_WordWhileBusyIsDropped : (inPhase (.scan 0)).phase ≠ .idle := by decide
theorem witness_StickyFlagsClearedOnlyByClrerrOrReset :
    runAction (.writeReg 0 0x0F000000) ((fresh 64).setFlags ⟨false, false, false, true, true, true⟩) =
      .next ((fresh 64).setFlags Flags.clear) := rfl
theorem witness_HstatWrittenOnlyByDstat : ∃ t, runAction (.writeReg 0 0x30000000) (line 64 "STATUS:1,2,0") = .next t ∧
    t.hstat ≠ (line 64 "STATUS:1,2,0").hstat := ⟨_, rfl, by decide⟩
theorem witness_CredentialsWrittenOnlyByDcred : ∃ t,
    runAction (.writeReg 0 0x31000000) (line 64 "CREDENTIALS:a,b") = .next t ∧
    t.ssid ≠ (line 64 "CREDENTIALS:a,b").ssid := ⟨_, rfl, by decide⟩
theorem witness_PatAndCursorWriters :
    (∃ t, runAction (.writeReg 0 0x08000041) (fresh 64) = .next t ∧ t.pat ≠ (fresh 64).pat) ∧
    (∃ t, runAction (.writeReg 0 0x09020000) (fresh 64) = .next t ∧ t.patLen ≠ (fresh 64).patLen) ∧
    (∃ t, runAction (.writeReg 0 0x22000000) (fresh 64) = .next t ∧ t.cursor ≠ (fresh 64).cursor) :=
  ⟨⟨_, rfl, by decide⟩, ⟨_, rfl, by decide⟩, ⟨_, rfl, by decide⟩⟩
/-- Steps that write FB, and steps that set and clear TRUNC and NOEOL. -/
theorem witness_FbTruncAndNoeolWriters :
    (∃ t, runAction (.writeReg 0 0x04000041) (fresh 64) = .next t ∧ t.fb ≠ (fresh 64).fb) ∧
    (∃ t, runAction .sequencer ((received 64 "A").setPhase (.copy 0)) = .next t ∧ t.fb ≠ (fresh 64).fb) ∧
    (∃ t, runAction .sequencer ((received 8 "A").setPhase (.copy 8)) = .next t ∧ t.flags.trunc = true) ∧
    (∃ t, runAction .sequencer (inPhase (.copy 0)) = .next t ∧ t.flags.noeol = true) ∧
    (∃ t, runAction .sequencer (((received 8 "+").setPhase (.scan 3)).setFlags ⟨true, true, false, false, false, false⟩) =
      .next t ∧ t.flags.trunc = false ∧ t.flags.noeol = false) :=
  ⟨⟨_, rfl, by decide⟩, ⟨_, rfl, by decide⟩, ⟨_, rfl, by decide⟩, ⟨_, rfl, by decide⟩, ⟨_, rfl, by decide⟩⟩
/-- Steps that write RESULT: the completing step of a CAPTURE and of a SEND, a command at its issue. -/
theorem witness_ResultWriters :
    (∃ t, runAction .sequencer ((inPhase (.scan 0)).setResult 9) = .next t ∧ t.result ≠ 9#16) ∧
    (∃ t, runAction .sequencer (inPhase (.window 0 [])) = .next t ∧ t.result ≠ (fresh 64).result) ∧
    (inPhase (.scan 0)).phase ≠ .idle ∧
    (∃ t, runAction (.writeReg 0 0x02000000) (line 64 "A") = .next t ∧ t.result ≠ (line 64 "A").result) ∧
    (line 64 "A").phase = .idle ∧ Action.writeReg 0 0x02000000 ≠ .reset := by
  refine ⟨⟨_, rfl, ?_⟩, ⟨_, rfl, ?_⟩, ?_, ⟨_, rfl, ?_⟩, ?_, ?_⟩ <;> decide
theorem witness_RegisterReads : (0#8).toNat = 0 ∧ 0x0A ≤ (0x0A#8).toNat ∧ 0x0A ≤ (0xFF#8).toNat ∧ (9#8).toNat = 9 ∧
    1#8 ≠ 0#8 ∧ (fresh 64).Inv := ⟨rfl, by decide, by decide, rfl, by decide, fresh_inv⟩
theorem witness_PeerSteps : ((fresh 64).setRx (List.replicate 63 0)).rx.length < (fresh 64).cfg.rxDepth ∧
    (fresh 64).cfg.rxDepth ≤ ((fresh 64).setRx (List.replicate 64 0)).rx.length ∧
    ((fresh 64).setTx [0x41]).tx = [0x41#8] ∧ (fresh 64).tx = [] := by decide
theorem witness_ReceiveFifoOrder : (∃ t, runAction (.peerRx 0x41) (fresh 64) = .next t ∧ t.rx = [0x41#8]) ∧
    (∃ t, runAction (.writeReg 0 0x11000000) (received 64 "AB") = .next t ∧ t.rx = []) := ⟨⟨_, rfl, rfl⟩, ⟨_, rfl, rfl⟩⟩
theorem witness_TransmitFifoOrder : (inPhase (.emit [0x4F, 0x0D, 0x0A])).Inv ∧ Action.sequencer ≠ .reset ∧
    (∃ t, runAction .sequencer (inPhase (.emit [0x4F, 0x0D, 0x0A])) = .next t ∧ t.tx = [0x4F, 0x0D, 0x0A]) :=
  ⟨witness_Inv.1, by decide, ⟨_, rfl, rfl⟩⟩
set_option maxRecDepth 4096 in
/-- RESP with a line that just fits, with one that does not, and CAPTURE on an empty FIFO. -/
theorem witness_ImmediateCommands : Instr.wellFormed (.resp 7) = true ∧ Instr.wellFormed .capture = true ∧
    (fresh 64).phase = .idle ∧
    after (exec (.resp 7) ((fresh 64).setTx (List.replicate 249 0))) State.phase = some .idle ∧
    after (exec (.resp 7) ((fresh 64).setTx (List.replicate 250 0))) State.phase ≠ some .idle ∧
    after (exec .capture (fresh 64)) State.phase = some .idle := by decide

end Sys2Proof.Tests
end

namespace Sys2Proof.Machine

open Sys2Proof

/-! ### The CMD write when idle (R32) -/

/-- A legal word written to CMD with PHASE = IDLE is the issue step of the command it decodes to. -/
theorem clientWrite_cmd_of_idle {s : State} {w : Word} {i : Instr} (hs : s.phase = .idle) (hd : decode w = .ok i) :
    clientWrite 0#8 w s = exec i s := by
  simp [clientWrite, issue, State.not_busy hs, hd]

/-! ### A SEND's window under one agent step (42_command_channel.md R203-R205) -/

/-- Everything an agent step can do to WINDOW(n, w): reset it, close it when it has run out, count it down, or leave it,
with RESULT, FB and the received bytes, to which PeerRx alone appends. -/
theorem ActionEffect.window_cases {s t : State} {a : Action} {n : BitVec 16} {w : Bytes} (h : ActionEffect s a t)
    (hp : s.phase = .window n w) :
    (a = .reset ∧ t = s.hardReset) ∨
    (a = .sequencer ∧ n = 0#16 ∧ t = s.closeWindow w) ∨
    (a = .tick ∧ n ≠ 0#16 ∧ t = s.setPhase (.window (n - 1#16) w)) ∨
    ((a = .sequencer → n ≠ 0#16) ∧ t.phase = .window n w ∧ t.result = s.result ∧ t.fb = s.fb ∧
      (t.rx = s.rx ∨ ∃ b, a = .peerRx b ∧ t.rx = s.rx ++ [b])) := by
  cases h with
  | reset => exact .inl ⟨rfl, rfl⟩
  | sequencer =>
    by_cases hn : n = 0#16
    · exact .inr (.inl ⟨rfl, hn, by simp [State.sequencerStep, State.sequencerEnabled, State.sequencerEffect, hp, hn]⟩)
    · have hstay : s.sequencerStep = s := by simp [State.sequencerStep, State.sequencerEnabled, hp, hn]
      simp [hstay, hp, hn]
  | tick =>
    by_cases hn : n = 0#16
    · have hstay : s.tick = s := by simp [State.tick, hp, hn]
      simp [hstay, hp]
    · exact .inr (.inr (.inl ⟨rfl, hn, by simp [State.tick, hp, hn]⟩))
  | peerRx b =>
    rcases s.receive_cases b with ⟨_, e⟩ | ⟨_, e⟩ <;> simp [e, hp]
  | peerTx =>
    obtain ⟨l, wire, e, _⟩ := s.transmit_unchanged
    simp [e, hp]
  | readReg off => simp [State.clientRead, hp]
  | ignored off v _ => simp [hp]
  | dropped v _ => simp [State.dropBusy, hp]
  | illegal v hidle _ => simp [hp] at hidle
  | accepted v i t hidle _ _ => simp [hp] at hidle

/-- The close: every received byte is removed, RESULT says whether `w` was a contiguous part of them, and the SEND
completes (R205). -/
theorem State.closeWindow_spec (s : State) (w : Bytes) :
    (s.closeWindow w).phase = .idle ∧ (s.closeWindow w).rx = [] ∧
    ((s.closeWindow w).result = 1#16 ∨ (s.closeWindow w).result = 0#16) ∧
    ((s.closeWindow w).result = 1#16 ↔ ∃ p q, s.rx = p ++ w ++ q) := by
  have hres : (s.closeWindow w).result = boolResult (occurs w s.rx) := rfl
  refine ⟨rfl, rfl, ?_, ?_⟩
  · exact hres ▸ boolResult_cases _
  · rw [hres, boolResult_eq_one, occurs_iff]

/-- The Sequencer's step is enabled in a window that has run out (R51). -/
theorem State.agentEnabled_sequencer_of_window {s : State} {w : Bytes} (hp : s.phase = .window 0#16 w) :
    s.agentEnabled .sequencer = true := by
  simp [State.agentEnabled, State.sequencerEnabled, hp]

/-! ### A SEND's window along a run (00_scope.md R7, R8) -/

/-- Only the Sequencer takes Sequencer steps. -/
theorem actionAgent_eq_sequencer {a : Action} : actionAgent a = .sequencer ↔ a = .sequencer := by
  cases a <;> simp [actionAgent]

section
variable {acts : Nat → Action} {r : Nat → State} {n : Nat} {w : Bytes}

/-- `ActionEffect.window_cases` for one step of a run. -/
theorem IsRun.window_cases {t : BitVec 16} (h : IsRun acts r) (hp : (r n).phase = .window t w) :
    (acts n = .reset ∧ (r (n + 1)).phase = .idle) ∨
    (acts n = .sequencer ∧ t = 0#16 ∧ ∃ e, r (n + 1) = ((r n).setEnv e).closeWindow w) ∨
    (acts n = .tick ∧ t ≠ 0#16) ∨
    ((acts n = .sequencer → t ≠ 0#16) ∧ (r (n + 1)).phase = .window t w ∧
      ((r (n + 1)).rx = (r n).rx ∨ ∃ b, acts n = .peerRx b)) := by
  obtain ⟨e, he⟩ := h.effect n
  rcases he.window_cases (n := t) (w := w) (by simpa using hp) with ⟨ha, ht⟩ | ⟨ha, hn, ht⟩ | ⟨ha, hn, _⟩ |
    ⟨ha, hphase, _, _, hrx⟩
  · exact .inl ⟨ha, by rw [ht]; rfl⟩
  · exact .inr (.inl ⟨ha, hn, e, ht⟩)
  · exact .inr (.inr (.inl ⟨ha, hn⟩))
  · exact .inr (.inr (.inr ⟨ha, hphase, hrx.imp (by simpa using ·) fun ⟨b, hb, _⟩ => ⟨b, hb⟩⟩))

/-- A run fair to the Sequencer leaves a window that has run out: while it is held the Sequencer's step stays enabled, and
taking it closes the window. -/
theorem IsRun.leaves_window (h : IsRun acts r) (hf : FairFor .sequencer acts r) (hp : (r n).phase = .window 0#16 w) :
    ∃ m, n ≤ m ∧ (∀ j, n ≤ j → j ≤ m → (r j).phase = .window 0#16 w) ∧ (r (m + 1)).phase ≠ .window 0#16 w := by
  by_contra! hkept
  have hheld : ∀ m, n ≤ m → ∀ j, n ≤ j → j ≤ m → (r j).phase = .window 0#16 w := by
    intro m hm
    induction m, hm using Nat.le_induction with
    | base => intro j hnj hjn; rwa [Nat.le_antisymm hjn hnj]
    | succ m hm ih =>
      intro j hnj hjm
      rcases Nat.le_succ_iff.mp hjm with hjm | rfl
      · exact ih j hnj hjm
      · exact hkept m hm ih
  have hwindow : ∀ m, n ≤ m → (r m).phase = .window 0#16 w := fun m hm => hheld m hm m hm (le_refl m)
  obtain ⟨m, hm, hag⟩ := hf n fun m hm => State.agentEnabled_sequencer_of_window (hwindow m hm)
  have hseq := actionAgent_eq_sequencer.mp hag
  have hnext := hwindow (m + 1) (by omega)
  rcases h.window_cases (hwindow m hm) with ⟨_, hidle⟩ | ⟨_, _, e, hclose⟩ | ⟨_, hne⟩ | ⟨hne, _⟩
  · simp [hidle] at hnext
  · rw [hclose, (State.closeWindow_spec _ w).1] at hnext
    cases hnext
  · exact hne rfl
  · exact hne hseq rfl

/-- In a run fair to the Sequencer a window that has run out is held until the Sequencer closes it or a reset ends it. -/
theorem IsRun.closes_window (h : IsRun acts r) (hf : FairFor .sequencer acts r) (hp : (r n).phase = .window 0#16 w) :
    ∃ m, n ≤ m ∧ (∀ j, n ≤ j → j ≤ m → (r j).phase = .window 0#16 w) ∧ (r (m + 1)).phase = .idle ∧
      (acts m = .reset ∨ (acts m = .sequencer ∧ (r (m + 1)).rx = [] ∧
        ((r (m + 1)).result = 1#16 ∨ (r (m + 1)).result = 0#16) ∧
        ((r (m + 1)).result = 1#16 ↔ ∃ p q, (r m).rx = p ++ w ++ q))) := by
  obtain ⟨m, hm, hheld, hleft⟩ := h.leaves_window hf hp
  refine ⟨m, hm, hheld, ?_⟩
  rcases h.window_cases (hheld m hm (le_refl m)) with ⟨ha, hidle⟩ | ⟨ha, _, e, hclose⟩ | ⟨_, hne⟩ | ⟨_, hstay, _⟩
  · exact ⟨hidle, .inl ha⟩
  · obtain ⟨hidle, hclosed⟩ := State.closeWindow_spec ((r m).setEnv e) w
    rw [hclose]
    exact ⟨hidle, .inr ⟨ha, hclosed⟩⟩
  · exact absurd rfl hne
  · exact absurd hstay hleft

/-- Nothing is received while a window that has run out is held, when nothing arrives. -/
theorem IsRun.rx_nil_of_window {m : Nat} (h : IsRun acts r) (hrx : (r n).rx = []) (hm : n ≤ m)
    (hheld : ∀ j, n ≤ j → j ≤ m → (r j).phase = .window 0#16 w)
    (hquiet : ∀ j, n ≤ j → acts j ≠ .reset ∧ ∀ b, acts j ≠ .peerRx b) : (r m).rx = [] := by
  induction m, hm using Nat.le_induction with
  | base => exact hrx
  | succ m hm ih =>
    have hempty := ih fun j hj hjm => hheld j hj (by omega)
    obtain ⟨hreset, hnone⟩ := hquiet m hm
    rcases h.window_cases (hheld m hm (by omega)) with ⟨ha, _⟩ | ⟨_, _, e, hclose⟩ | ⟨_, hne⟩ | ⟨_, _, hsame | ⟨b, hb⟩⟩
    · exact absurd ha hreset
    · rw [hclose]; rfl
    · exact absurd rfl hne
    · rw [hsame, hempty]
    · exact absurd hb (hnone b)

/-- Without a TICK and without a reset a window above 0 is held for ever, since the Sequencer has no step in it. -/
theorem IsRun.window_held_without_ticks {t : BitVec 16} (h : IsRun acts r) (hp : (r n).phase = .window t w)
    (ht : t ≠ 0#16) (hno : ∀ m, n ≤ m → acts m ≠ .reset ∧ acts m ≠ .tick) :
    ∀ m, n ≤ m → (r m).phase = .window t w := by
  intro m hm
  induction m, hm using Nat.le_induction with
  | base => exact hp
  | succ m hm ih =>
    obtain ⟨hreset, htick⟩ := hno m hm
    rcases h.window_cases ih with ⟨ha, _⟩ | ⟨_, hzero, _⟩ | ⟨ha, _⟩ | ⟨_, hstay, _⟩
    · exact absurd ha hreset
    · exact absurd hzero ht
    · exact absurd ha htick
    · exact hstay

end

/-- Settles O17: the text view's length, bytes and end are the laws of the text view (Laws/Operands). -/
theorem textIsFbUpToFirstZero : Obligations.TextIsFbUpToFirstZero := by
  intro s
  exact ⟨s.textLen_le, fun _ h => s.text_getElem h, fun _ hb => s.text_ne_zero hb, s.read_textLen⟩

/-- Settles O12: the listed step is `step_of_schedule`; when it is a CMD write, `clientWrite_cmd_of_idle` runs the
command. -/
theorem stepRunsTheDecodedCommand : Obligations.StepRunsTheDecodedCommand := by
  constructor
  · intro s a rest hsch
    exact step_of_schedule hsch
  · intro s w i rest hsch hidle hd
    rw [step_of_schedule hsch]
    exact clientWrite_cmd_of_idle hidle hd

/-- Settles O34: fairness forces the close, which finds no non-empty pattern in no bytes; without TICKs no step leaves the
window. -/
theorem fairRunsCloseTheWindow : Obligations.FairRunsCloseTheWindow := by
  refine ⟨fun _ _ _ _ h hf hp => h.closes_window hf hp, ?_, fun _ _ _ _ _ h hp => h.window_held_without_ticks hp⟩
  intro acts r n w h hf hp hrx hw hquiet
  obtain ⟨m, hm, hheld, hidle, hend⟩ := h.closes_window hf hp
  refine ⟨m + 1, by omega, hidle, ?_⟩
  rcases hend with hreset | ⟨_, _, hone | hzero, hiff⟩
  · exact absurd hreset (hquiet m hm).1
  · obtain ⟨p, q, hpq⟩ := hiff.mp hone
    have hempty : (r m).rx = [] := h.rx_nil_of_window hrx hm hheld hquiet
    simp [hempty, hw] at hpq
  · exact hzero

end Sys2Proof.Machine

namespace Sys2Proof.Machine

open Sys2Proof

/-! ### What a command word decodes to is the command it encodes (30_encoding.md R101-R108) -/

theorem decodeN_ok {w : Word} {i j : Instr} (h : decodeN w i = .ok j) :
    j = i ∧ aField w = 0#8 ∧ bField w = 0#16 := by
  unfold decodeN at h
  split at h
  · cases h; exact ⟨rfl, ‹_›⟩
  · cases h

theorem decodeI_ok {w : Word} {mk : BitVec 8 → Instr} {j : Instr} (h : decodeI w mk = .ok j) :
    j = mk (aField w) ∧ bField w = 0#16 := by
  unfold decodeI at h
  split at h
  · cases h; exact ⟨rfl, ‹_›⟩
  · cases h

theorem decodeIV_ok {w : Word} {mk : BitVec 8 → BitVec 8 → Instr} {j : Instr} (h : decodeIV w mk = .ok j) :
    j = mk (aField w) (vField w) ∧ 0#8 ++ vField w = bField w := by
  unfold decodeIV at h
  split at h
  · cases h; exact ⟨rfl, bField_of_vZero ‹_›⟩
  · cases h

theorem decodeSel_ok {w : Word} {mk : BitVec 8 → BitVec 8 → Instr} {j : Instr} (h : decodeSel w mk = .ok j) :
    j = mk (aField w) (vField w) ∧ 0#8 ++ vField w = bField w := by
  unfold decodeSel at h
  split at h
  · split at h
    · cases h; exact ⟨rfl, bField_of_vZero ‹_›⟩
    · cases h
  · cases h

theorem decodeK_ok {w : Word} {mk : BitVec 4 → Instr} {j : Instr} (h : decodeK w mk = .ok j) :
    j = mk (kField w) ∧ 0#4 ++ kField w = aField w ∧ bField w = 0#16 := by
  unfold decodeK at h
  split at h
  · rename_i hz
    split at h
    · cases h; exact ⟨rfl, aField_of_kZero hz.1, hz.2⟩
    · cases h
  · cases h

theorem decodeKT_ok {w : Word} {mk : BitVec 4 → BitVec 16 → Instr} {j : Instr} (h : decodeKT w mk = .ok j) :
    j = mk (kField w) (bField w) ∧ 0#4 ++ kField w = aField w := by
  unfold decodeKT at h
  split at h
  · split at h
    · cases h; exact ⟨rfl, aField_of_kZero ‹_›⟩
    · cases h
  · cases h

/-- A word is composed of its opcode and its fields. -/
theorem commandWord_eq {w : Word} {op a : BitVec 8} {b : BitVec 16} (hop : (opField w).toNat = op.toNat)
    (ha : a = aField w) (hb : b = bField w) : commandWord op a b = w := by
  rw [← commandWord_fields w, BitVec.eq_of_toNat_eq hop, ha, hb]

/-- Each legal word is the word of the command it decodes to. The cases are the rows of R107, taken together by format. -/
theorem encode_of_decode {w : Word} {i : Instr} (h : decode w = .ok i) : encode i = w := by
  unfold decode at h
  split at h <;> rename_i hop
  case h_3 | h_4 | h_10 | h_15 =>
    obtain ⟨rfl, hb⟩ := decodeI_ok h
    exact commandWord_eq hop rfl hb.symm
  case h_5 | h_9 =>
    obtain ⟨rfl, hb⟩ := decodeIV_ok h
    exact commandWord_eq hop rfl hb
  case h_7 | h_8 | h_17 | h_20 =>
    obtain ⟨rfl, ha, hb⟩ := decodeK_ok h
    exact commandWord_eq hop ha hb.symm
  case h_14 =>
    obtain ⟨rfl, ha⟩ := decodeKT_ok h
    exact commandWord_eq hop ha rfl
  case h_21 =>
    obtain ⟨rfl, hb⟩ := decodeSel_ok h
    exact commandWord_eq hop rfl hb
  case h_22 => cases h
  all_goals
    obtain ⟨rfl, ha, hb⟩ := decodeN_ok h
    exact commandWord_eq hop ha.symm hb.symm

/-! ### The invariant -/

theorem State.resetWith_inv (cfg : Params) (env : Env) : (State.resetWith cfg env).Inv where
  memory_wf := rfl
  memory_below := rfl
  rx_fits := Nat.zero_le _
  tx_fits := Nat.zero_le _
  ssid_padded := Credential.empty_padded
  pass_padded := Credential.empty_padded
  phase_ok := trivial

/-- A line that fits the free space may be enqueued. -/
theorem State.Inv.txPush {s : State} (h : s.Inv) {l : Bytes} (hl : l.length ≤ s.txFree) : (s.txPush l).Inv :=
  h.setTx (by have := h.tx_fits; simp only [State.txFree, List.length_append] at hl ⊢; omega)

/-- A phase and the FB contents it carries may be put in together. -/
theorem State.Inv.setFb_setPhase {s : State} (h : s.Inv) {m : Memory} {p : Phase} (hw : Memory.wf m = true)
    (hb : Memory.below m s.cap = true) (hp : ((s.setFb m).setPhase p).PhaseOk) : ((s.setFb m).setPhase p).Inv :=
  (h.complete.setFb rfl hw hb).setPhase hp

theorem State.Inv.fbClear {s : State} (h : s.Inv) (hidle : s.phase = .idle) : s.fbClear.Inv :=
  h.setFb hidle rfl rfl

theorem State.Inv.fbStore {s : State} (h : s.Inv) (hidle : s.phase = .idle) (i : Nat) (v : Byte) :
    (s.fbStore i v).Inv := by
  unfold State.fbStore
  split
  · exact h.setFb hidle (Memory.wf_write h.memory_wf _ _) (Memory.below_write h.memory_below ‹_› _)
  · exact h

theorem State.Inv.withKeyword {s : State} (h : s.Inv) {k : BitVec 4} {f : Bytes → State}
    (hf : ∀ w, s.keyword k = some w → (f w).Inv) : (s.withKeyword k f).Inv := by
  rcases s.withKeyword_cases k f with e | ⟨w, hw, e⟩ <;> rw [e]
  · exact h.setFlags _
  · exact hf w hw

theorem State.sendLine_length_le (s : State) : s.sendLine.length ≤ s.cap + 2 := by
  have := s.textLen_le
  simp [State.sendLine, eol]; omega

theorem State.Inv.startWindow {s : State} (h : s.Inv) {line w : Bytes} (t : BitVec 16) (hl : line.length ≤ s.txFree)
    (hw : w.length ≤ 16) : (s.startWindow line w t).Inv :=
  (h.txPush hl).setPhase (p := .window t w) hw

theorem execCapture_inv {s t : State} (h : s.Inv) (hx : execCapture s = .next t) : t.Inv := by
  cases hx
  split
  · exact (h.setResult _).complete
  · exact h.setPhase (p := .settle _) (le_refl s.cfg.settleTicks.toNat)

theorem execSend_inv {s t : State} {k : BitVec 4} {T : BitVec 16} (h : s.Inv) (hx : execSend k T s = .next t) :
    t.Inv := by
  cases hx
  refine h.withKeyword fun w hw => ?_
  have hlen := State.keyword_length_le hw
  split
  · exact h.startWindow T ‹_› hlen
  · exact h.setPhase (p := .sendtx _ w T) ⟨s.sendLine_length_le, List.suffix_append _ _, hlen⟩

theorem execDstat_inv {s t : State} (h : s.Inv) (hx : execDstat s = .next t) : t.Inv := by
  rcases execDstat_cases s with ⟨v, _, e⟩ | ⟨_, e⟩ <;> (rw [e] at hx; cases hx)
  · exact ((h.setHstat v).setResult _).emitLine (by decide)
  · exact (h.setResult _).emitLine (by decide)

theorem execDcred_inv {s t : State} (h : s.Inv) (hx : execDcred s = .next t) : t.Inv := by
  obtain ⟨ss, ps, v, r, hs, hp, e⟩ := execDcred_eq s
  rw [e] at hx
  cases hx
  exact (((h.setCredentials (credentialOf_padded ss hs) (credentialOf_padded ps hp)).setFlags _).setResult _).emitLine
    (by decide)

/-- The issue step of every command keeps the invariant; FB may change since no copy is under way. -/
theorem exec_inv {i : Instr} {s t : State} (h : s.Inv) (hidle : s.phase = .idle) (hx : exec i s = .next t) : t.Inv := by
  cases i
  case nop => cases hx; exact h
  case clr => cases hx; exact h.fbClear hidle
  case getb | getd | textlen => cases hx; exact h.setResult _
  case setb => cases hx; exact (h.fbStore hidle _ _).setResult _
  case matchp | matchs => cases hx; exact h.withKeyword fun _ _ => h.setResult _
  case patset => cases hx; exact (h.setPat _).setResult _
  case patlen =>
    cases hx
    split
    · exact (h.setPatLen _).setResult _
    · exact h.setResult _
  case clrerr => cases hx; exact h.setFlags _
  case capture => exact execCapture_inv h hx
  case drain => cases hx; exact ((h.fbClear hidle).setRx (Nat.zero_le _)).setResult _
  case send => exact execSend_inv h hx
  case field | fieldn => cases hx; exact (h.setResult _).setCursor _
  case resp => cases hx; exact h.withKeyword fun _ hw => h.emitLine (State.keyword_length_le hw)
  case dstat => exact execDstat_inv h hx
  case dcred => exact execDcred_inv h hx
  case dword =>
    cases hx
    refine h.withKeyword fun w _ => ?_
    split
    · exact (h.setResult _).emitLine (by decide)
    · exact h.setResult _
  case rdcred =>
    cases hx
    split
    · exact h.setResult _
    · split
      · exact h.setResult _
      · exact h.setFlags _

/-! #### The agents' steps -/

/-- Taking received bytes off the head keeps the FIFO within its depth. -/
theorem State.Inv.setRx_tail {s : State} (h : s.Inv) {b : Byte} {rest : Bytes} (e : s.rx = b :: rest) :
    (s.setRx rest).Inv :=
  h.setRx (by have := h.rx_fits; simp only [e, List.length_cons] at this; omega)

theorem State.Inv.scanStep {s : State} (h : s.Inv) (p : Fin 4) : (s.scanStep p).Inv := by
  rcases s.scanStep_cases p with ⟨_, e⟩ | ⟨b, rest, hrx, _, e⟩ | ⟨b, rest, hrx, _, e⟩ <;> rw [e]
  · exact (h.setResult _).complete
  · exact ((h.setRx_tail hrx).setFlags _).setFb_setPhase (p := .copy 0) rfl rfl ⟨Nat.zero_le _, rfl⟩
  · exact (h.setRx_tail hrx).setPhase (p := .scan _) trivial

theorem State.Inv.copyStep {s : State} (h : s.Inv) {w : Nat} (hw : w ≤ s.cap) (hb : Memory.below s.fb w = true) :
    (s.copyStep w).Inv := by
  rcases s.copyStep_cases w with ⟨_, e⟩ | ⟨b, rest, hrx, ⟨_, e⟩ | ⟨_, e⟩ | ⟨_, _, hroom, e⟩ | ⟨_, _, _, e⟩⟩ <;> rw [e]
  · exact ((h.setFlags _).setResult _).complete
  · exact ((h.setRx_tail hrx).setResult _).complete
  · exact (h.setRx_tail hrx).setPhase (p := .copy w) ⟨hw, hb⟩
  · exact (h.setRx_tail hrx).setFb_setPhase (p := .copy (w + 1)) (Memory.wf_write h.memory_wf _ _)
      (Memory.below_write h.memory_below hroom _)
      ⟨hroom, Memory.below_write (Memory.below_mono hb (Nat.le_succ w)) (Nat.lt_succ_self w) _⟩
  · exact ((h.setRx_tail hrx).setFlags _).setPhase (p := .copy w) ⟨hw, hb⟩

/-- The carried state of the phase that is held is in order. -/
theorem State.Inv.phaseOk_of {s : State} (h : s.Inv) {p : Phase} (hp : s.phase = p) : (s.setPhase p).PhaseOk :=
  hp ▸ h.phase_ok

theorem State.Inv.sequencerStep {s : State} (h : s.Inv) : s.sequencerStep.Inv := by
  rcases s.sequencerStep_cases with e | ⟨line, _, hl, e⟩ | ⟨_, e⟩ | ⟨p, _, e⟩ | ⟨w, hp, e⟩ | ⟨line, w, t, hp, hl, e⟩ |
    ⟨w, _, e⟩ <;> rw [e]
  · exact h
  · exact (h.txPush hl).complete
  · exact h.setPhase (p := .scan 0) trivial
  · exact h.scanStep p
  · obtain ⟨hw, hb⟩ := h.phaseOk_of hp
    exact h.copyStep hw hb
  · obtain ⟨_, _, hw⟩ := h.phaseOk_of hp
    exact h.startWindow t hl hw
  · exact ((h.setRx (Nat.zero_le _)).setResult _).complete

theorem State.Inv.tick {s : State} (h : s.Inv) : s.tick.Inv := by
  rcases s.tick_cases with e | ⟨n, hp, hn, e⟩ | ⟨n, w, hp, _, e⟩ <;> rw [e]
  · exact h
  · have hle : (n - 1#16).toNat ≤ n.toNat := by bv_omega
    exact h.setPhase (p := .settle _) (hle.trans (h.phaseOk_of hp))
  · have hlen : w.length ≤ 16 := h.phaseOk_of hp
    exact h.setPhase (p := .window _ w) hlen

theorem State.Inv.receive {s : State} (h : s.Inv) (b : Byte) : (s.receive b).Inv := by
  rcases s.receive_cases b with ⟨hroom, e⟩ | ⟨_, e⟩ <;> rw [e]
  · exact h.setRx (by simpa using hroom)
  · exact h.setFlags _

theorem State.Inv.transmit {s : State} (h : s.Inv) : s.transmit.Inv := by
  obtain ⟨l, w, e, _, hl⟩ := s.transmit_unchanged
  rw [e]
  exact (h.setTx (hl.trans h.tx_fits)).setEnv _

/-- Every agent step keeps the invariant. -/
theorem ActionEffect.inv {a : Action} {s t : State} (h : ActionEffect s a t) (hs : s.Inv) : t.Inv := by
  cases h with
  | reset => exact State.resetWith_inv _ _
  | readReg => exact hs.setEnv _
  | sequencer => exact hs.sequencerStep
  | peerRx b => exact hs.receive b
  | peerTx => exact hs.transmit
  | tick => exact hs.tick
  | ignored => exact hs
  | dropped | illegal => exact hs.setFlags _
  | accepted w i t hidle _ hx => exact exec_inv hs hidle hx

/-! ### What EmitLine leaves unchanged (R52) -/

@[simp] theorem State.emitLine_cfg (s : State) (body : Bytes) : (s.emitLine body).cfg = s.cfg :=
  (SameRegisters.emitLine s body).cfg

@[simp] theorem State.emitLine_fb (s : State) (body : Bytes) : (s.emitLine body).fb = s.fb :=
  (SameRegisters.emitLine s body).fb

@[simp] theorem State.emitLine_pat (s : State) (body : Bytes) : (s.emitLine body).pat = s.pat :=
  (SameRegisters.emitLine s body).pat

@[simp] theorem State.emitLine_patLen (s : State) (body : Bytes) : (s.emitLine body).patLen = s.patLen :=
  (SameRegisters.emitLine s body).patLen

@[simp] theorem State.emitLine_ssid (s : State) (body : Bytes) : (s.emitLine body).ssid = s.ssid :=
  (SameRegisters.emitLine s body).ssid

@[simp] theorem State.emitLine_pass (s : State) (body : Bytes) : (s.emitLine body).pass = s.pass :=
  (SameRegisters.emitLine s body).pass

@[simp] theorem State.emitLine_hstat (s : State) (body : Bytes) : (s.emitLine body).hstat = s.hstat :=
  (SameRegisters.emitLine s body).hstat

@[simp] theorem State.emitLine_cursor (s : State) (body : Bytes) : (s.emitLine body).cursor = s.cursor :=
  (SameRegisters.emitLine s body).cursor

/-- With PHASE = IDLE, EmitLine stays there or enters EMIT. -/
theorem State.emitLine_phase_of_idle {s : State} (h : s.phase = .idle) (body : Bytes) :
    (s.emitLine body).phase = .idle ∨ ∃ line, (s.emitLine body).phase = .emit line := by
  rcases s.emitLine_cases body with ⟨_, e⟩ | ⟨_, e⟩ <;> simp [e, h]

/-! ### The parameters -/

/-- No command writes the parameters. -/
theorem CommandEffect.cfg {i : Instr} {s t : State} (h : CommandEffect s i t) : t.cfg = s.cfg := by
  cases h with
  | plain h => exact h.cfg
  | _ => simp

/-- No agent step writes the parameters, reset included (R310). -/
theorem ActionEffect.cfg {a : Action} {s t : State} (h : ActionEffect s a t) : t.cfg = s.cfg := by
  cases h with
  | sequencer => exact s.sequencerStep_unchanged.1
  | peerRx b => rcases s.receive_cases b with ⟨_, e⟩ | ⟨_, e⟩ <;> simp [e]
  | peerTx =>
    obtain ⟨l, w, e, _⟩ := s.transmit_unchanged
    simp [e]
  | tick => rw [s.tick_eq_setPhase]; rfl
  | accepted w i t _ _ hx => exact (exec_effect hx).cfg
  | _ => rfl

/-! ### Which command writes which register -/

/-- Each register that a command's issue step can write, with the commands that write it. -/
structure CommandWriters (s : State) (i : Instr) (t : State) : Prop where
  hstat   : t.hstat ≠ s.hstat → i = .dstat
  ssid    : t.ssid ≠ s.ssid → i = .dcred
  pass    : t.pass ≠ s.pass → i = .dcred
  credOvf : t.flags.credOvf ≠ s.flags.credOvf → i = .dcred
  pat     : t.pat ≠ s.pat → ∃ idx val, i = .patset idx val
  patLen  : t.patLen ≠ s.patLen → ∃ n, i = .patlen n
  cursor  : t.cursor ≠ s.cursor → (∃ off, i = .field off) ∨ i = .fieldn
  fb      : t.fb ≠ s.fb → i = .clr ∨ i = .drain ∨ ∃ idx val, i = .setb idx val

theorem CommandEffect.writers {i : Instr} {s t : State} (h : CommandEffect s i t) : CommandWriters s i t := by
  cases h with
  | plain h =>
    constructor <;> intro hne
    · exact absurd h.hstat hne
    · exact absurd h.ssid hne
    · exact absurd h.pass hne
    · exact absurd h.credOvf hne
    · exact absurd h.pat hne
    · exact absurd h.patLen hne
    · exact absurd h.cursor hne
    · exact absurd h.fb hne
  | _ => constructor <;> simp

/-- The registers that no agent's step but an accepted command or a reset writes. -/
structure RegistersKept (s t : State) : Prop where
  hstat   : t.hstat = s.hstat
  ssid    : t.ssid = s.ssid
  pass    : t.pass = s.pass
  credOvf : t.flags.credOvf = s.flags.credOvf
  pat     : t.pat = s.pat
  patLen  : t.patLen = s.patLen
  cursor  : t.cursor = s.cursor

/-- The flags that a CAPTURE writes in its scan and copy steps (R33). -/
structure LineFlagsKept (s t : State) : Prop where
  trunc : t.flags.trunc = s.flags.trunc
  noeol : t.flags.noeol = s.flags.noeol

/-- What CAPTURE and SEND write in their later steps: FB, RESULT, TRUNC and NOEOL. -/
structure CaptureKept (s t : State) : Prop where
  fb        : t.fb = s.fb
  result    : t.result = s.result
  lineFlags : LineFlagsKept s t

/-- The Client's write of an accepted command to CMD with PHASE = IDLE, and the state its issue step leads to. -/
def AcceptedCommand (s : State) (a : Action) (i : Instr) (t : State) : Prop :=
  s.phase = .idle ∧ a = .writeReg 0#8 (encode i) ∧ decode (encode i) = .ok i ∧ exec i s = .next t

theorem State.sequencerStep_registersKept (s : State) : RegistersKept s s.sequencerStep := by
  obtain ⟨_, _, hhstat, hssid, hpass, hpat, hpatLen, hcursor, hovf, _⟩ := s.sequencerStep_unchanged
  exact ⟨hhstat, hssid, hpass, hovf, hpat, hpatLen, hcursor⟩

/-- The writers of these registers: a reset, the Sequencer (which keeps most of them), an accepted command; every other
agent step keeps them all. -/
theorem ActionEffect.writer_cases {a : Action} {s t : State} (h : ActionEffect s a t) :
    (a = .reset ∧ t = s.hardReset) ∨ (a = .sequencer ∧ t = s.sequencerStep) ∨ (∃ i, AcceptedCommand s a i t) ∨
    (RegistersKept s t ∧ CaptureKept s t) := by
  cases h with
  | reset => exact .inl ⟨rfl, rfl⟩
  | sequencer => exact .inr (.inl ⟨rfl, rfl⟩)
  | accepted w i t hidle hd hx =>
    obtain rfl := encode_of_decode hd
    exact .inr (.inr (.inl ⟨i, hidle, rfl, hd, hx⟩))
  | peerRx b =>
    refine .inr (.inr (.inr ?_))
    rcases s.receive_cases b with ⟨_, e⟩ | ⟨_, e⟩ <;> rw [e] <;> exact ⟨by constructor <;> rfl, rfl, rfl, rfl, rfl⟩
  | peerTx =>
    obtain ⟨l, w, e, _⟩ := s.transmit_unchanged
    rw [e]
    exact .inr (.inr (.inr ⟨by constructor <;> rfl, rfl, rfl, rfl, rfl⟩))
  | tick =>
    rw [s.tick_eq_setPhase]
    exact .inr (.inr (.inr ⟨by constructor <;> rfl, rfl, rfl, rfl, rfl⟩))
  | _ => exact .inr (.inr (.inr ⟨by constructor <;> rfl, rfl, rfl, rfl, rfl⟩))

/-- An agent step is a reset, keeps these registers, or is an accepted command that writes only its own. -/
theorem runAction_registers {a : Action} {s t : State} (h : runAction a s = .next t) :
    a = .reset ∨ RegistersKept s t ∨
    ∃ i, s.phase = .idle ∧ a = .writeReg 0#8 (encode i) ∧ CommandWriters s i t := by
  rcases (runAction_effect h).writer_cases with ⟨ha, _⟩ | ⟨_, rfl⟩ | ⟨i, hidle, ha, _, hx⟩ | ⟨hkept, _⟩
  · exact .inl ha
  · exact .inr (.inl s.sequencerStep_registersKept)
  · exact .inr (.inr ⟨i, hidle, ha, (exec_effect hx).writers⟩)
  · exact .inr (.inl hkept)

/-! ### TRUNC, NOEOL and RESULT -/

theorem LineFlagsKept.of_flags {s t : State} (h : t.flags = s.flags) : LineFlagsKept s t := by
  constructor <;> rw [h]

theorem LineFlagsKept.withKeyword {s : State} {k : BitVec 4} {f : Bytes → State} (h : ∀ w, LineFlagsKept s (f w)) :
    LineFlagsKept s (s.withKeyword k f) := by
  rcases s.withKeyword_cases k f with e | ⟨w, _, e⟩ <;> rw [e]
  · exact ⟨rfl, rfl⟩
  · exact h w

/-- No command's issue step writes TRUNC or NOEOL. -/
theorem exec_lineFlagsKept {i : Instr} {s t : State} (h : exec i s = .next t) : LineFlagsKept s t := by
  cases i
  case setb idx val =>
    cases h
    obtain ⟨m, e⟩ := s.fbStore_eq_setFb idx.toNat val
    rw [e]
    exact ⟨rfl, rfl⟩
  case matchp | matchs => cases h; exact .withKeyword fun _ => ⟨rfl, rfl⟩
  case patlen | capture => cases h; split <;> exact ⟨rfl, rfl⟩
  case send =>
    cases h
    refine .withKeyword fun _ => ?_
    split <;> exact ⟨rfl, rfl⟩
  case resp => cases h; exact .withKeyword fun _ => .of_flags (State.emitLine_flags _ _)
  case dstat =>
    rcases execDstat_cases s with ⟨v, _, e⟩ | ⟨_, e⟩ <;> rw [exec, e] at h <;> cases h <;>
      exact .of_flags (State.emitLine_flags _ _)
  case dcred => cases h; constructor <;> simp
  case dword =>
    cases h
    refine .withKeyword fun _ => ?_
    split
    · exact .of_flags (State.emitLine_flags _ _)
    · exact ⟨rfl, rfl⟩
  case rdcred => cases h; split_ifs <;> exact ⟨rfl, rfl⟩
  all_goals cases h; exact ⟨rfl, rfl⟩

/-- Where the Sequencer writes FB, TRUNC or NOEOL: in the scan step that finds the marker, and in COPY, where it sets
NOEOL on an empty FIFO and TRUNC when there is no room for a byte (R176-R178). -/
theorem State.sequencerStep_capture_cases (s : State) :
    (s.sequencerStep.fb = s.fb ∧ s.sequencerStep.flags = s.flags) ∨
    (s.phase = .scan 3 ∧ s.sequencerStep.phase = .copy 0 ∧ s.sequencerStep.flags = s.flags.startCapture) ∨
    (∃ w, s.phase = .copy w ∧
      ((s.rx = [] ∧ s.sequencerStep.flags = s.flags.setNoeol) ∨
       s.sequencerStep.flags = s.flags ∨
       (s.rx ≠ [] ∧ s.cap ≤ w ∧ s.sequencerStep.flags = s.flags.setTrunc))) := by
  rcases s.sequencerStep_cases with e | ⟨l, _, _, e⟩ | ⟨_, e⟩ | ⟨p, hp, e⟩ | ⟨w, hp, e⟩ | ⟨l, w, t, _, _, e⟩ |
    ⟨w, _, e⟩ <;> rw [e]
  · exact .inl ⟨rfl, rfl⟩
  · exact .inl ⟨rfl, rfl⟩
  · exact .inl ⟨rfl, rfl⟩
  · rcases s.scanStep_cases p with ⟨_, e⟩ | ⟨b, rest, _, h4, e⟩ | ⟨b, rest, _, _, e⟩ <;> rw [e]
    · exact .inl ⟨rfl, rfl⟩
    · obtain ⟨_, _, _, _, hfound⟩ := markerNext_spec p b
      obtain ⟨_, rfl⟩ := hfound.mp h4
      exact .inr (.inl ⟨hp, rfl, rfl⟩)
    · exact .inl ⟨rfl, rfl⟩
  · refine .inr (.inr ⟨w, hp, ?_⟩)
    rcases s.copyStep_cases w with ⟨hrx, e⟩ | ⟨b, rest, hrx, ⟨_, e⟩ | ⟨_, e⟩ | ⟨_, _, _, e⟩ | ⟨_, _, hfull, e⟩⟩ <;> rw [e]
    · exact .inl ⟨hrx, rfl⟩
    · exact .inr (.inl rfl)
    · exact .inr (.inl rfl)
    · exact .inr (.inl rfl)
    · exact .inr (.inr ⟨by simp [hrx], hfull, rfl⟩)
  · exact .inl ⟨rfl, rfl⟩
  · exact .inl ⟨rfl, rfl⟩

/-- Where the Sequencer writes RESULT: in the step that completes a CAPTURE or a SEND (R31). -/
theorem State.sequencerStep_result_cases (s : State) :
    s.sequencerStep.result = s.result ∨
    (s.sequencerStep.phase = .idle ∧
      ((∃ p, s.phase = .scan p) ∨ (∃ w, s.phase = .copy w) ∨ ∃ w, s.phase = .window 0#16 w)) := by
  rcases s.sequencerStep_cases with e | ⟨l, _, _, e⟩ | ⟨_, e⟩ | ⟨p, hp, e⟩ | ⟨w, hp, e⟩ | ⟨l, w, t, _, _, e⟩ |
    ⟨w, hp, e⟩ <;> rw [e]
  · exact .inl rfl
  · exact .inl rfl
  · exact .inl rfl
  · rcases s.scanStep_cases p with ⟨_, e⟩ | ⟨b, rest, _, _, e⟩ | ⟨b, rest, _, _, e⟩ <;> rw [e]
    · exact .inr ⟨rfl, .inl ⟨p, hp⟩⟩
    · exact .inl rfl
    · exact .inl rfl
  · rcases s.copyStep_cases w with ⟨_, e⟩ | ⟨b, rest, _, ⟨_, e⟩ | ⟨_, e⟩ | ⟨_, _, _, e⟩ | ⟨_, _, _, e⟩⟩ <;> rw [e]
    · exact .inr ⟨rfl, .inr (.inl ⟨w, hp⟩)⟩
    · exact .inr ⟨rfl, .inr (.inl ⟨w, hp⟩)⟩
    · exact .inl rfl
    · exact .inl rfl
    · exact .inl rfl
  · exact .inl rfl
  · exact .inr ⟨rfl, .inr (.inr ⟨w, hp⟩)⟩

/-- A command with a keyword operand that writes RESULT has found its keyword. -/
theorem State.withKeyword_of_result_ne {s : State} {k : BitVec 4} {f : Bytes → State}
    (h : (s.withKeyword k f).result ≠ s.result) : ∃ w, s.withKeyword k f = f w := by
  rcases s.withKeyword_cases k f with e | ⟨w, _, e⟩
  · exact absurd (by rw [e]; rfl) h
  · exact ⟨w, e⟩

/-- The commands whose issue step writes RESULT (R31), and where it leaves PHASE: IDLE, or EMIT for a decoder that holds
its line (R52). -/
theorem exec_result_writer {i : Instr} {s t : State} (hidle : s.phase = .idle) (h : exec i s = .next t)
    (hne : t.result ≠ s.result) :
    i ≠ .nop ∧ i ≠ .clr ∧ i ≠ .clrerr ∧ (∀ k, i ≠ .resp k) ∧ (∀ k T, i ≠ .send k T) ∧ (i = .capture → s.rx = []) ∧
    (t.phase = .idle ∨ ((i = .dstat ∨ i = .dcred ∨ ∃ k, i = .dword k) ∧ ∃ line, t.phase = .emit line)) := by
  cases i
  case nop | clr | clrerr => cases h; exact absurd rfl hne
  case getb | getd | textlen | patset | drain | field | fieldn => cases h; simp [hidle]
  case setb idx val =>
    cases h
    obtain ⟨m, e⟩ := s.fbStore_eq_setFb idx.toNat val
    simp [e, hidle]
  case matchp | matchs =>
    cases h
    obtain ⟨w, e⟩ := State.withKeyword_of_result_ne hne
    simp [e, hidle]
  case patlen => cases h; split <;> simp [hidle]
  case capture =>
    cases h
    split at hne
    case isTrue hrx =>
      rw [List.isEmpty_iff] at hrx
      simp [hrx]
    case isFalse => exact absurd rfl hne
  case send =>
    cases h
    obtain ⟨w, e⟩ := State.withKeyword_of_result_ne hne
    rw [e] at hne
    split at hne <;> exact absurd rfl hne
  case resp =>
    cases h
    obtain ⟨w, e⟩ := State.withKeyword_of_result_ne hne
    rw [e] at hne
    exact absurd (State.emitLine_result _ _) hne
  case dstat =>
    rcases execDstat_cases s with ⟨v, _, e⟩ | ⟨_, e⟩ <;> (rw [exec, e] at h; cases h)
    · simpa using State.emitLine_phase_of_idle (by simpa using hidle) rspOk
    · simpa using State.emitLine_phase_of_idle (by simpa using hidle) rspBadValue
  case dcred => cases h; simpa using State.emitLine_phase_of_idle (by simpa using hidle) rspOk
  case dword =>
    cases h
    obtain ⟨w, e⟩ := State.withKeyword_of_result_ne hne
    rw [e]
    split
    · simpa using State.emitLine_phase_of_idle (by simpa using hidle) rspOk
    · simp [hidle]
  case rdcred => cases h; split_ifs <;> simp [hidle]

/-! ### A held line (R51, R52) -/

theorem State.sequencerStep_emit_of_fits {s : State} {line : Bytes} (hp : s.phase = .emit line)
    (hl : line.length ≤ s.txFree) : s.sequencerStep = (s.txPush line).complete := by
  simp [State.sequencerStep, State.sequencerEnabled, State.sequencerEffect, hp, hl]

theorem State.sequencerStep_emit_of_full {s : State} {line : Bytes} (hp : s.phase = .emit line)
    (hl : ¬ line.length ≤ s.txFree) : s.sequencerStep = s := by
  simp [State.sequencerStep, State.sequencerEnabled, hp, hl]

theorem State.tick_emit {s : State} {line : Bytes} (hp : s.phase = .emit line) : s.tick = s := by
  simp [State.tick, hp]

/-! ### The register port (R30-R41) -/

theorem hstatWord_toNat (t : Status) : (hstatWord t).toNat =
    (armStateCode t.state).toNat + 4 * (armMethodCode t.method).toNat + 16 * (sensorCode t.sensor).toNat := by
  simp only [hstatWord, toNat_append_eq, BitVec.toNat_ofNat]
  omega

theorem State.credLenWord_toNat (s : State) : s.credLenWord.toNat = s.ssid.len.val + 2 ^ 8 * s.pass.len.val := by
  have hssid : s.ssid.len.val % 2 ^ 5 = s.ssid.len.val := by omega
  have hpass : s.pass.len.val % 2 ^ 5 = s.pass.len.val := by omega
  simp only [State.credLenWord, toNat_append_eq, BitVec.toNat_ofNat, hssid, hpass]
  omega

/-- A narrow register is read with zeros above it. -/
theorem toNat_ofNat_setWidth {k : Nat} (hk : k ≤ 32) (n : Nat) :
    ((BitVec.ofNat k n).setWidth 32).toNat = n % 2 ^ k := by
  rw [BitVec.toNat_setWidth_of_le hk, BitVec.toNat_ofNat]

/-- The receive count does not wrap (R35). -/
theorem State.Inv.rx_lt {s : State} (h : s.Inv) : s.rx.length < 2 ^ 16 := by
  have hfits := h.rx_fits
  have hdepth := s.cfg.rxDepthAbove1.isLt
  simp only [Params.rxDepth] at hfits
  omega

/-- The transmit count does not wrap (R36). -/
theorem State.Inv.tx_lt {s : State} (h : s.Inv) : s.tx.length < 2 ^ 16 := by
  have hfits := h.tx_fits
  have hdepth := s.cfg.txDepthAbove257.isLt
  simp only [Params.txDepth] at hfits
  omega

/-- CMD and the reserved offsets read 0 (R30, R41). -/
theorem State.readReg_reserved (s : State) {off : BitVec 8} (h : off.toNat = 0 ∨ 0x0A ≤ off.toNat) :
    s.readReg off = 0#32 := by
  unfold State.readReg
  split
  case h_10 => rfl
  all_goals omega

/-! ### The obligations of the state -/

/-- Settles O10: the next agent step is taken in a state with the invariant and the same parameters
(`State.Inv.setEnv`), and every agent step keeps both. -/
theorem stepKeepsInv : Obligations.StepKeepsInv := by
  intro s t hs h
  have heffect := runAction_effect h
  exact ⟨heffect.inv (hs.setEnv _), heffect.cfg⟩

/-- Settles O36: EmitLine's two cases are `State.emitLine_of_fits` and `State.emitLine_of_full`; whether a held line fits
is `State.le_txFree_iff`, since the line is not empty. -/
theorem emitLineAndHold : Obligations.EmitLineAndHold := by
  constructor
  · intro s body
    exact ⟨State.emitLine_of_fits, State.emitLine_of_full⟩
  · intro s line hp hline
    have hfree := s.le_txFree_iff (List.length_pos_iff.mpr hline)
    refine ⟨?_, fun hfits => ?_, fun hfull => ?_⟩
    · rw [runAction, State.tick_emit hp]
    · rw [runAction, State.sequencerStep_emit_of_fits hp (hfree.mpr hfits)]
      rfl
    · rw [runAction, State.sequencerStep_emit_of_full hp (by omega)]

/-- Settles O49: of the writers of a register only DSTAT writes HSTAT. -/
theorem hstatWrittenOnlyByDstat : Obligations.HstatWrittenOnlyByDstat := by
  intro a s t h hne
  rcases runAction_registers h with ha | hkept | ⟨i, hidle, rfl, hw⟩
  · exact .inl ha
  · exact absurd hkept.hstat hne
  · obtain rfl := hw.hstat hne
    exact .inr ⟨rfl, hidle⟩

/-- Settles O50: of the writers of a register only DCRED writes the credentials and CRED_OVF. -/
theorem credentialsWrittenOnlyByDcred : Obligations.CredentialsWrittenOnlyByDcred := by
  intro a s t h hne
  rcases runAction_registers h with ha | hkept | ⟨i, hidle, rfl, hw⟩
  · exact .inl ha
  · simp [hkept.ssid, hkept.pass, hkept.credOvf] at hne
  · obtain rfl : i = .dcred := by
      rcases hne with hne | hne | hne
      · exact hw.ssid hne
      · exact hw.pass hne
      · exact hw.credOvf hne
    exact .inr ⟨rfl, hidle⟩

/-- Settles O51: the writers of PAT, PATLEN and CURSOR are those of `CommandWriters`. -/
theorem patAndCursorWriters : Obligations.PatAndCursorWriters := by
  intro a s t h ha
  rcases runAction_registers h with hreset | hkept | ⟨i, hidle, rfl, hw⟩
  · exact absurd hreset ha
  · exact ⟨absurd hkept.pat, absurd hkept.patLen, absurd hkept.cursor⟩
  · refine ⟨fun hne => ?_, fun hne => ?_, fun hne => ?_⟩
    · obtain ⟨idx, val, rfl⟩ := hw.pat hne
      exact ⟨idx, val, rfl, hidle⟩
    · obtain ⟨n, rfl⟩ := hw.patLen hne
      exact ⟨n, rfl, hidle⟩
    · rcases hw.cursor hne with ⟨off, rfl⟩ | rfl
      · exact ⟨.inl ⟨off, rfl⟩, hidle⟩
      · exact ⟨.inr rfl, hidle⟩

/-- Settles O52: commands write FB alone of these (`exec_lineFlagsKept`), the Sequencer as
`State.sequencerStep_capture_cases` says. -/
theorem fbTruncAndNoeolWriters : Obligations.FbTruncAndNoeolWriters := by
  intro a s t h
  rcases (runAction_effect h).writer_cases with ⟨rfl, rfl⟩ | ⟨rfl, rfl⟩ | ⟨i, hidle, rfl, _, hx⟩ | ⟨_, hkept⟩
  · exact ⟨fun _ => .inl rfl, fun _ => .inl rfl, fun _ => Bool.noConfusion, fun _ => Bool.noConfusion⟩
  · rcases s.sequencerStep_capture_cases with ⟨hfb, hf⟩ | ⟨hp, hcopy, hf⟩ | ⟨w, hp, hf⟩
    · exact ⟨absurd hfb, by simp [hf], by simp +contextual [hf], by simp +contextual [hf]⟩
    · exact ⟨fun _ => .inr (.inl ⟨rfl, .inl ⟨3, hp⟩⟩), fun _ => .inr ⟨rfl, hp, hcopy⟩, by simp [hf], by simp [hf]⟩
    · refine ⟨fun _ => .inr (.inl ⟨rfl, .inr ⟨w, hp⟩⟩), ?_⟩
      rcases hf with ⟨hrx, hf⟩ | hf | ⟨hrx, hfull, hf⟩
      · exact ⟨by simp [hf], by simp +contextual [hf], fun _ _ => ⟨rfl, hrx, w, hp⟩⟩
      · exact ⟨by simp [hf], by simp +contextual [hf], by simp +contextual [hf]⟩
      · exact ⟨by simp [hf], fun _ _ => ⟨rfl, w, hp, hfull, hrx⟩, by simp +contextual [hf]⟩
  · obtain ⟨htrunc, hnoeol⟩ := exec_lineFlagsKept hx
    refine ⟨fun hne => ?_, by simp [htrunc, hnoeol], by simp [htrunc], by simp [hnoeol]⟩
    rcases (exec_effect hx).writers.fb hne with rfl | rfl | ⟨idx, val, rfl⟩
    · exact .inr (.inr ⟨hidle, .inl rfl⟩)
    · exact .inr (.inr ⟨hidle, .inr (.inl rfl)⟩)
    · exact .inr (.inr ⟨hidle, .inr (.inr ⟨idx, val, rfl⟩)⟩)
  · obtain ⟨hfb, _, htrunc, hnoeol⟩ := hkept
    exact ⟨absurd hfb, by simp [htrunc, hnoeol], by simp +contextual [htrunc], by simp +contextual [hnoeol]⟩

/-- Settles O53: while busy only the Sequencer's completing step writes RESULT (`State.sequencerStep_result_cases`), in
IDLE only an accepted command (`exec_result_writer`). -/
theorem resultWriters : Obligations.ResultWriters := by
  intro a s t h hne ha
  rcases (runAction_effect h).writer_cases with ⟨hreset, _⟩ | ⟨rfl, rfl⟩ | ⟨i, hidle, rfl, hd, hx⟩ | ⟨_, hkept⟩
  · exact absurd hreset ha
  · obtain ⟨hdone, hp⟩ := s.sequencerStep_result_cases.resolve_left hne
    refine ⟨fun _ => ⟨rfl, hdone, hp⟩, fun hidle => ?_⟩
    simp [hidle] at hp
  · exact ⟨absurd hidle, fun _ => ⟨i, rfl, hd, exec_result_writer hidle hx hne⟩⟩
  · exact absurd hkept.result hne

/-- Settles O55: the bits and the phase code are the laws of STAT (Laws/Registers). -/
theorem statBits : Obligations.StatBits := by
  intro s
  obtain ⟨hbusy, hrxne, htrunc, hnoeol, hovf, herrBusy, herrIllegal, hoverrun⟩ := s.stat_bits
  refine ⟨rfl, ?_, ?_, htrunc, hnoeol, hovf, herrBusy, herrIllegal, hoverrun, ?_⟩
  · rw [hbusy, State.busy, decide_eq_true_iff]
  · rw [hrxne, State.rxne, Bool.not_eq_true', List.isEmpty_eq_false_iff]
  · rw [s.stat_phase]
    cases s.phase <;> rfl

/-- Settles O7: every field of `State.resetWith` has its value of R60. -/
theorem resetValues : Obligations.ResetValues := by
  refine ⟨rfl, fun _ => rfl, ?_, rfl, ?_, rfl, ?_, rfl, rfl, rfl, rfl, rfl, rfl, rfl, rfl, rfl, rfl, rfl, rfl, rfl⟩ <;>
    intro j <;> simp [State.reset, Credential.empty]

/-- Settles O9: `State.reset` is a case of `State.resetWith`. -/
theorem invAtReset : Obligations.InvAtReset :=
  ⟨State.resetWith_inv _ _, State.resetWith_inv⟩

/-- Settles O54: the word read is `State.readReg`, offset by offset. -/
theorem registerReads : Obligations.RegisterReads := by
  intro s off
  refine ⟨s.readReg off, rfl, fun h => ?_, fun h => ?_, fun h => ?_, fun h => ?_, fun h => ?_, fun h => ?_, fun h => ?_,
    fun h => ?_, fun h => ?_, fun w h => ?_⟩
  · rw [s.readReg_reserved h]; rfl
  · simp only [State.readReg, h]
    exact BitVec.toNat_setWidth_of_le (by decide)
  · simp only [State.readReg, h]
    exact hstatWord_toNat _
  · simp only [State.readReg, h, toNat_ofNat_setWidth (show 16 ≤ 32 by decide)]
    exact ⟨trivial, fun hs => Nat.mod_eq_of_lt hs.rx_lt⟩
  · simp only [State.readReg, h, toNat_ofNat_setWidth (show 16 ≤ 32 by decide)]
    exact ⟨trivial, fun hs => Nat.mod_eq_of_lt hs.tx_lt⟩
  · simp only [State.readReg, h, toNat_ofNat_setWidth (show 8 ≤ 32 by decide)]
    exact Nat.mod_eq_of_lt (Nat.lt_succ_of_le s.cap_le)
  · simp only [State.readReg, h]
    exact s.credLenWord_toNat
  · simp only [State.readReg, h]
    exact BitVec.toNat_setWidth_of_le (by decide)
  · simp only [State.readReg, h, toNat_ofNat_setWidth (show 5 ≤ 32 by decide)]
    exact Nat.mod_eq_of_lt (s.patLen.isLt.trans (by decide))
  · simp [runAction, clientWrite, h]

end Sys2Proof.Machine

namespace Sys2Proof.Machine

open Sys2Proof

/-! ### PeerRx and PeerTx, case by case (20_memory.md R76, R78) -/

theorem State.receive_of_room {s : State} (h : s.rx.length < s.cfg.rxDepth) (b : Byte) :
    s.receive b = s.setRx (s.rx ++ [b]) := if_pos h

theorem State.receive_of_full {s : State} (h : s.cfg.rxDepth ≤ s.rx.length) (b : Byte) :
    s.receive b = s.setFlags { s.flags with rxOverrun := true } := if_neg (not_lt.mpr h)

theorem State.transmit_of_cons {s : State} {b : Byte} {rest : Bytes} (h : s.tx = b :: rest) :
    s.transmit = (s.setTx rest).setEnv { s.env with wire := s.env.wire ++ [b] } := by
  simp [State.transmit, h]

theorem State.transmit_of_nil {s : State} (h : s.tx = []) : s.transmit = s := by
  simp [State.transmit, h]

/-! ### The receive FIFO under one agent step (R77) -/

@[simp] theorem State.emitLine_rx (s : State) (body : Bytes) : (s.emitLine body).rx = s.rx :=
  (SameRegisters.emitLine s body).rx

/-- No command but DRAIN touches the received bytes; DRAIN takes them all (R75, R180). -/
theorem CommandEffect.rx_cases {i : Instr} {s t : State} (h : CommandEffect s i t) :
    t.rx = s.rx ∨ (i = .drain ∧ t.rx = []) := by
  cases h with
  | plain h => exact .inl h.rx
  | drain => exact .inr ⟨rfl, rfl⟩
  | _ => exact .inl (by simp)

/-- Everything an agent step can do to the received bytes: keep them, append the byte PeerRx delivers, or remove some from
the head, which only reset, the Sequencer and an accepted DRAIN do. -/
theorem ActionEffect.rx_cases {a : Action} {s t : State} (h : ActionEffect s a t) :
    t.rx = s.rx ∨ (∃ b, a = .peerRx b ∧ t.rx = s.rx ++ [b]) ∨
    ((a = .reset ∨ a = .sequencer ∨ (a = .writeReg 0#8 (encode .drain) ∧ s.phase = .idle)) ∧
      ∃ n, t.rx = s.rx.drop n) := by
  have hall : [] = s.rx.drop s.rx.length := List.drop_length.symm
  cases h with
  | reset => exact .inr (.inr ⟨.inl rfl, s.rx.length, hall⟩)
  | sequencer => exact .inr (.inr ⟨.inr (.inl rfl), s.sequencerStep_rx⟩)
  | peerRx b =>
    rcases s.receive_cases b with ⟨_, e⟩ | ⟨_, e⟩ <;> rw [e]
    · exact .inr (.inl ⟨b, rfl, rfl⟩)
    · exact .inl rfl
  | peerTx =>
    obtain ⟨l, w, e, _⟩ := s.transmit_unchanged
    exact .inl (by rw [e]; rfl)
  | tick => exact .inl (by rw [s.tick_eq_setPhase]; rfl)
  | accepted w i t hidle hd hx =>
    obtain rfl := encode_of_decode hd
    rcases (exec_effect hx).rx_cases with hkept | ⟨rfl, hnone⟩
    · exact .inl hkept
    · exact .inr (.inr ⟨.inr (.inr ⟨rfl, hidle⟩), s.rx.length, hnone.trans hall⟩)
  | _ => exact .inl rfl

/-! ### The transmit FIFO under one agent step (R78-R80) -/

/-- Nothing goes onto the wire, and the transmit FIFO is kept or one whole line, ending in CR LF, is appended to it. -/
structure QueuesAtMostOneLine (s t : State) : Prop where
  wire : t.env.wire = s.env.wire
  tx   : t.tx = s.tx ∨ ∃ line, eol <:+ line ∧ t.tx = s.tx ++ line

/-- EmitLine, after changes elsewhere, enqueues its line or holds it (R52). -/
theorem QueuesAtMostOneLine.emitLine {s u : State} (henv : u.env = s.env) (htx : u.tx = s.tx) (body : Bytes) :
    QueuesAtMostOneLine s (u.emitLine body) := by
  rcases u.emitLine_cases body with ⟨_, e⟩ | ⟨_, e⟩ <;> rw [e]
  · exact ⟨congrArg Env.wire henv, .inr ⟨_, List.suffix_append _ _, congrArg (· ++ _) htx⟩⟩
  · exact ⟨congrArg Env.wire henv, .inl htx⟩

theorem QueuesAtMostOneLine.withKeyword {s : State} {k : BitVec 4} {f : Bytes → State}
    (h : ∀ w, QueuesAtMostOneLine s (f w)) : QueuesAtMostOneLine s (s.withKeyword k f) := by
  rcases s.withKeyword_cases k f with e | ⟨w, _, e⟩ <;> rw [e]
  · exact ⟨rfl, .inl rfl⟩
  · exact h w

/-- The issue step of every command: SEND and the commands that respond enqueue a line, the others nothing. -/
theorem exec_queuesAtMostOneLine {i : Instr} {s t : State} (h : exec i s = .next t) : QueuesAtMostOneLine s t := by
  cases i
  case setb idx val =>
    cases h
    obtain ⟨m, e⟩ := s.fbStore_eq_setFb idx.toNat val
    rw [e]
    exact ⟨rfl, .inl rfl⟩
  case matchp | matchs => cases h; exact .withKeyword fun _ => ⟨rfl, .inl rfl⟩
  case patlen | capture => cases h; split <;> exact ⟨rfl, .inl rfl⟩
  case send =>
    cases h
    refine .withKeyword fun _ => ?_
    split
    · exact ⟨rfl, .inr ⟨s.sendLine, List.suffix_append _ _, rfl⟩⟩
    · exact ⟨rfl, .inl rfl⟩
  case resp => cases h; exact .withKeyword fun _ => .emitLine rfl rfl _
  case dstat =>
    rcases execDstat_cases s with ⟨v, _, e⟩ | ⟨_, e⟩ <;> rw [exec, e] at h <;> cases h <;>
      exact .emitLine (by simp) (by simp) _
  case dcred =>
    obtain ⟨ss, ps, v, r, _, _, e⟩ := execDcred_eq s
    rw [exec, e] at h
    cases h
    exact .emitLine (by simp) (by simp) _
  case dword =>
    cases h
    refine .withKeyword fun _ => ?_
    split
    · exact .emitLine (by simp) (by simp) _
    · exact ⟨rfl, .inl rfl⟩
  case rdcred => cases h; split_ifs <;> exact ⟨rfl, .inl rfl⟩
  all_goals cases h; exact ⟨rfl, .inl rfl⟩

theorem State.scanStep_tx (s : State) (p : Fin 4) : (s.scanStep p).tx = s.tx := by
  rcases s.scanStep_cases p with ⟨_, e⟩ | ⟨b, rest, _, _, e⟩ | ⟨b, rest, _, _, e⟩ <;> rw [e] <;> rfl

theorem State.copyStep_tx (s : State) (w : Nat) : (s.copyStep w).tx = s.tx := by
  rcases s.copyStep_cases w with ⟨_, e⟩ | ⟨b, rest, _, ⟨_, e⟩ | ⟨_, e⟩ | ⟨_, _, _, e⟩ | ⟨_, _, _, e⟩⟩ <;> rw [e] <;> rfl

/-- The Sequencer enqueues the line that EMIT or SENDTX holds, which the invariant says is whole, and nothing else. -/
theorem State.Inv.sequencerStep_queuesAtMostOneLine {s : State} (h : s.Inv) :
    QueuesAtMostOneLine s s.sequencerStep := by
  refine ⟨by rw [s.sequencerStep_unchanged.2.1], ?_⟩
  rcases s.sequencerStep_cases with e | ⟨line, hp, _, e⟩ | ⟨_, e⟩ | ⟨p, _, e⟩ | ⟨w, _, e⟩ | ⟨line, w, t, hp, _, e⟩ |
    ⟨w, _, e⟩ <;> rw [e]
  · exact .inl rfl
  · obtain ⟨_, heol⟩ := h.phaseOk_of hp
    exact .inr ⟨line, heol, rfl⟩
  · exact .inl rfl
  · exact .inl (s.scanStep_tx p)
  · exact .inl (s.copyStep_tx w)
  · obtain ⟨_, heol, _⟩ := h.phaseOk_of hp
    exact .inr ⟨line, heol, rfl⟩
  · exact .inl rfl

/-- An agent step other than reset keeps the bytes on the wire followed by the FIFO's, across which PeerTx moves one, or
enqueues at most one line. -/
theorem ActionEffect.tx_cases {a : Action} {s t : State} (h : ActionEffect s a t) (hs : s.Inv) (ha : a ≠ .reset) :
    t.env.wire ++ t.tx = s.env.wire ++ s.tx ∨ QueuesAtMostOneLine s t := by
  cases h with
  | reset => exact absurd rfl ha
  | sequencer => exact .inr hs.sequencerStep_queuesAtMostOneLine
  | peerRx b => rcases s.receive_cases b with ⟨_, e⟩ | ⟨_, e⟩ <;> rw [e] <;> exact .inl rfl
  | peerTx =>
    obtain ⟨l, w, e, hwl, _⟩ := s.transmit_unchanged
    exact .inl (by rw [e]; exact hwl)
  | tick => exact .inl (by rw [s.tick_eq_setPhase]; rfl)
  | accepted w i t _ _ hx => exact .inr (exec_queuesAtMostOneLine hx)
  | _ => exact .inl rfl

/-! ### A held line and an empty transmit FIFO (R78) -/

/-- Lines of up to 257 bytes, the longest the block can build, fit an empty FIFO (R9). -/
theorem State.le_txFree_of_tx_nil {s : State} (h : s.tx = []) {n : Nat} (hn : n ≤ 257) : n ≤ s.txFree := by
  simp only [State.txFree, Params.txDepth, h, List.length_nil]
  omega

/-- Onto an empty FIFO, a line is all the FIFO then holds. -/
theorem State.txPush_of_tx_nil {s : State} (h : s.tx = []) (line : Bytes) : s.txPush line = s.setTx line := by
  rw [State.txPush, h, List.nil_append]

theorem State.sequencerStep_sendtx_of_fits {s : State} {line w : Bytes} {t : BitVec 16}
    (hp : s.phase = .sendtx line w t) (hl : line.length ≤ s.txFree) : s.sequencerStep = s.startWindow line w t := by
  simp [State.sequencerStep, State.sequencerEnabled, State.sequencerEffect, hp, hl]

/-! ### The obligations of the FIFOs -/

/-- Settles O38: the invariant bounds a held line by 18 bytes in EMIT and CAP + 2 in SENDTX, and TX_DEPTH is at least
257. -/
theorem everyLineFitsAnEmptyFifo : Obligations.EveryLineFitsAnEmptyFifo := by
  intro s hs htx
  constructor
  · intro line hp
    obtain ⟨hlen, _⟩ : line.length ≤ 18 ∧ _ := hs.phaseOk_of hp
    have hfits : line.length ≤ s.txFree := State.le_txFree_of_tx_nil htx (by omega)
    rw [runAction, State.sequencerStep_emit_of_fits hp hfits, State.txPush_of_tx_nil htx]
    rfl
  · intro line w t hp
    obtain ⟨hlen, _⟩ : line.length ≤ s.cap + 2 ∧ _ := hs.phaseOk_of hp
    have hcap := s.cap_le
    have hfits : line.length ≤ s.txFree := State.le_txFree_of_tx_nil htx (by omega)
    rw [runAction, State.sequencerStep_sendtx_of_fits hp hfits, State.startWindow, State.txPush_of_tx_nil htx]
    rfl

/-- Settles O57: the three cases of `ActionEffect.rx_cases`, with the word of DRAIN written out. -/
theorem receiveFifoOrder : Obligations.ReceiveFifoOrder := by
  intro a s t h
  rcases (runAction_effect h).rx_cases with hkept | ⟨b, ha, happended⟩ | ⟨hremover, n, hremoved⟩
  · exact ⟨0, [], by simpa using hkept, by simp, by simp⟩
  · exact ⟨0, [b], happended, fun _ => ⟨b, ha, rfl⟩, by simp⟩
  · exact ⟨n, [], by simpa using hremoved, by simp, fun _ => hremover⟩

/-- Settles O58: `ActionEffect.tx_cases`, with what is on the wire put before what the FIFO holds. -/
theorem transmitFifoOrder : Obligations.TransmitFifoOrder := by
  intro a s t hs ha h
  rcases (runAction_effect h).tx_cases hs ha with hmoved | ⟨hwire, hkept | ⟨line, heol, hpushed⟩⟩
  · exact ⟨[], by simpa using hmoved, .inl rfl⟩
  · exact ⟨[], by simp [hwire, hkept], .inl rfl⟩
  · exact ⟨line, by simp [hwire, hpushed], .inr heol⟩

/-- Settles O56: the cases of PeerRx and PeerTx. -/
theorem peerSteps : Obligations.PeerSteps := by
  constructor
  · intro s b
    refine ⟨fun hroom => ?_, fun hfull => ?_⟩
    · rw [runAction, State.receive_of_room hroom]; rfl
    · rw [runAction, State.receive_of_full hfull]; rfl
  · intro s
    refine ⟨fun b rest htx => ?_, fun htx => ?_⟩
    · rw [runAction, State.transmit_of_cons htx]; rfl
    · rw [runAction, State.transmit_of_nil htx]

end Sys2Proof.Machine

namespace Sys2Proof

/-! ### Each format reads back the fields it was composed of (30_encoding.md R101-R105) -/

theorem decodeN_commandWord (op : BitVec 8) (i : Instr) : decodeN (commandWord op 0#8 0#16) i = .ok i :=
  if_pos ⟨aField_commandWord _ _ _, bField_commandWord _ _ _⟩

theorem decodeI_commandWord (op a : BitVec 8) (mk : BitVec 8 → Instr) :
    decodeI (commandWord op a 0#16) mk = .ok (mk a) := by
  simp [decodeI, aField_commandWord, bField_commandWord]

theorem decodeIV_commandWord (op a v : BitVec 8) (mk : BitVec 8 → BitVec 8 → Instr) :
    decodeIV (commandWord op a (0#8 ++ v)) mk = .ok (mk a v) := by
  simp [decodeIV, aField_commandWord, vZeroField_commandWord, vField_commandWord]

theorem decodeSel_commandWord {a : BitVec 8} (ha : validSelector a = true) (op v : BitVec 8)
    (mk : BitVec 8 → BitVec 8 → Instr) : decodeSel (commandWord op a (0#8 ++ v)) mk = .ok (mk a v) := by
  simp [decodeSel, aField_commandWord, vZeroField_commandWord, vField_commandWord, ha]

theorem decodeK_commandWord {k : BitVec 4} (hk : validKeyword k = true) (op : BitVec 8) (mk : BitVec 4 → Instr) :
    decodeK (commandWord op (0#4 ++ k) 0#16) mk = .ok (mk k) := by
  simp [decodeK, kZeroField_commandWord, kField_commandWord, bField_commandWord, hk]

theorem decodeKT_commandWord {k : BitVec 4} (hk : validKeyword k = true) (op : BitVec 8) (t : BitVec 16)
    (mk : BitVec 4 → BitVec 16 → Instr) : decodeKT (commandWord op (0#4 ++ k) t) mk = .ok (mk k t) := by
  simp [decodeKT, kZeroField_commandWord, kField_commandWord, bField_commandWord, hk]

/-- Settles O1: the opcode chooses the row of R107, and the row's format reads back the fields. -/
theorem decodeOfEncode : Obligations.DecodeOfEncode := by
  intro i hi
  unfold decode
  cases i <;> rw [encode, opField_commandWord]
  case getb | getd | patlen | field => exact decodeI_commandWord _ _ _
  case setb | patset => exact decodeIV_commandWord _ _ _ _
  case matchp | matchs | resp | dword => exact decodeK_commandWord hi _ _
  case send => exact decodeKT_commandWord hi _ _ _
  case rdcred => exact decodeSel_commandWord hi _ _ _
  all_goals exact decodeN_commandWord _ _

/-! ### What each format accepts, and `legal` (R108) -/

theorem decodeN_accepts (w : Word) (i : Instr) : (∃ j, decodeN w i = .ok j) ↔ w.extractLsb' 0 24 = 0#24 := by
  rw [low24_zero_iff, decodeN]
  split <;> simp [*]

theorem decodeI_accepts (w : Word) (mk : BitVec 8 → Instr) : (∃ j, decodeI w mk = .ok j) ↔ bField w = 0#16 := by
  rw [decodeI]
  split <;> simp [*]

theorem decodeIV_accepts (w : Word) (mk : BitVec 8 → BitVec 8 → Instr) :
    (∃ j, decodeIV w mk = .ok j) ↔ vZeroField w = 0#8 := by
  rw [decodeIV]
  split <;> simp [*]

theorem decodeSel_accepts (w : Word) (mk : BitVec 8 → BitVec 8 → Instr) :
    (∃ j, decodeSel w mk = .ok j) ↔ vZeroField w = 0#8 ∧ validSelector (aField w) = true := by
  rw [decodeSel]
  split_ifs <;> simp [*]

theorem decodeK_accepts (w : Word) (mk : BitVec 4 → Instr) :
    (∃ j, decodeK w mk = .ok j) ↔ (kZeroField w = 0#4 ∧ bField w = 0#16) ∧ validKeyword (kField w) = true := by
  rw [decodeK]
  split_ifs <;> simp [*]

theorem decodeKT_accepts (w : Word) (mk : BitVec 4 → BitVec 16 → Instr) :
    (∃ j, decodeKT w mk = .ok j) ↔ kZeroField w = 0#4 ∧ validKeyword (kField w) = true := by
  rw [decodeKT]
  split_ifs <;> simp [*]

/-- The decoder accepts exactly the legal words. The cases are the rows of R107, taken together by format. -/
theorem decode_accepts (w : Word) : (∃ i, decode w = .ok i) ↔ legal w = true := by
  unfold decode
  split <;> rename_i hop
  case h_3 | h_4 | h_10 | h_15 => rw [decodeI_accepts]; simp [legal, hop]
  case h_5 | h_9 => rw [decodeIV_accepts]; simp [legal, hop]
  case h_7 | h_8 | h_17 | h_20 => rw [decodeK_accepts]; simp [legal, hop]
  case h_14 => rw [decodeKT_accepts]; simp [legal, hop]
  case h_21 => rw [decodeSel_accepts]; simp [legal, hop, validSelector]
  case h_22 => simp_all [legal]
  all_goals rw [decodeN_accepts]; simp [legal, hop]

/-- The word of a command is legal exactly when the command is well formed: the family Legality (Laws/PerInstr). -/
theorem legal_encode : ∀ i : Instr, legal (encode i) = i.wellFormed
  | .nop => Laws.Legality.nop
  | .clr => Laws.Legality.clr
  | .getb a => Laws.Legality.getb a
  | .getd a => Laws.Legality.getd a
  | .setb a b => Laws.Legality.setb a b
  | .textlen => Laws.Legality.textlen
  | .matchp a => Laws.Legality.matchp a
  | .matchs a => Laws.Legality.matchs a
  | .patset a b => Laws.Legality.patset a b
  | .patlen a => Laws.Legality.patlen a
  | .clrerr => Laws.Legality.clrerr
  | .capture => Laws.Legality.capture
  | .drain => Laws.Legality.drain
  | .send a b => Laws.Legality.send a b
  | .field a => Laws.Legality.field a
  | .fieldn => Laws.Legality.fieldn
  | .resp a => Laws.Legality.resp a
  | .dstat => Laws.Legality.dstat
  | .dcred => Laws.Legality.dcred
  | .dword a => Laws.Legality.dword a
  | .rdcred a b => Laws.Legality.rdcred a b

/-- Settles O2: what is decoded encodes to the word (`encode_of_decode`), which is legal, so it is well formed. -/
theorem encodeOfDecode : Obligations.EncodeOfDecode := by
  intro w i hd
  have hw : encode i = w := Machine.encode_of_decode hd
  refine ⟨hw, ?_⟩
  rw [← legal_encode, hw]
  exact (decode_accepts w).mp ⟨i, hd⟩

/-! ### The fields in arithmetic on the word -/

theorem low24_eq_zero_iff (w : Word) : w.extractLsb' 0 24 = 0#24 ↔ w.toNat % 2 ^ 24 = 0 := by
  simp [← BitVec.toNat_inj]

theorem bField_eq_zero_iff (w : Word) : bField w = 0#16 ↔ w.toNat % 2 ^ 16 = 0 := by
  simp [← BitVec.toNat_inj, bField_toNat]

theorem vZeroField_eq_zero_iff (w : Word) : vZeroField w = 0#8 ↔ w.toNat / 2 ^ 8 % 2 ^ 8 = 0 := by
  simp [← BitVec.toNat_inj, vZeroField_toNat, bField_toNat]; omega

theorem kZeroField_eq_zero_iff (w : Word) : kZeroField w = 0#4 ↔ w.toNat / 2 ^ 20 % 2 ^ 4 = 0 := by
  simp [← BitVec.toNat_inj, kZeroField_toNat, aField_toNat]; omega

theorem validKeyword_kField_iff (w : Word) : validKeyword (kField w) = true ↔
    w.toNat / 2 ^ 16 % 2 ^ 4 ≤ 8 ∨ w.toNat / 2 ^ 16 % 2 ^ 4 = 15 := by
  simp [validKeyword, kField_toNat, aField_toNat]

theorem opField_eq_div (w : Word) : (opField w).toNat = w.toNat / 2 ^ 24 := by
  rw [opField_toNat]; omega

/-- Settles O3: the accepted words are the legal ones (`decode_accepts`), and each test of `legal` is R108's in arithmetic.
The cases are the branches of `legal`, and in them the opcodes of the branch. -/
theorem decoderAcceptsExactlyLegalWords : Obligations.DecoderAcceptsExactlyLegalWords := by
  intro w
  simp only [decode_accepts, legal, opField_eq_div]
  generalize w.toNat / 2 ^ 24 = op
  split_ifs with hN hI hIV hSel hK hKT
  · fin_cases hN <;> simp [low24_eq_zero_iff]
  · fin_cases hI <;> simp [bField_eq_zero_iff]
  · fin_cases hIV <;> simp [vZeroField_eq_zero_iff]
  · subst hSel; simp [vZeroField_eq_zero_iff, aField_toNat]
  · fin_cases hK <;> simp [kZeroField_eq_zero_iff, bField_eq_zero_iff, validKeyword_kField_iff, and_assoc]
  · subst hKT; simp [kZeroField_eq_zero_iff, validKeyword_kField_iff]
  · simp_all

/-- Settles O4: every word is decoded by evaluation. -/
theorem encodingExamples : Obligations.EncodingExamples := by
  refine ⟨rfl, rfl, rfl, rfl, rfl, rfl, rfl, rfl, rfl, rfl, rfl, rfl, rfl, rfl, rfl, rfl, rfl, rfl, rfl, rfl, rfl, rfl, ?_⟩
  simp only [List.forall_mem_cons]
  exact ⟨nofun, nofun, nofun, nofun, nofun⟩

end Sys2Proof

namespace Sys2Proof.Machine

open Sys2Proof

/-- Settles O5: the ROM's rows are read by evaluation, selector 15 is `State.patBytes`, and a selector without a keyword is
one `validKeyword` refuses. -/
theorem keywordBytes : Obligations.KeywordBytes := by
  intro s
  refine ⟨rfl, rfl, rfl, rfl, rfl, rfl, rfl, rfl, rfl, ⟨s.patBytes, rfl, ?_, fun j hj => ?_⟩, fun k h9 h14 => ?_⟩
  · have := s.patLen.isLt
    simp [State.patBytes]; omega
  · simp [State.patBytes, hj]
  · have hk : validKeyword k = false := by simp [validKeyword]; omega
    rw [← Option.isNone_iff_eq_none, ← Option.not_isSome, State.keyword_isSome, hk]; rfl

end Sys2Proof.Machine

namespace Sys2Proof.Machine

open Sys2Proof

/-! ### Integers (30_encoding.md R111) -/

/-- A nonempty string of digits, each written as `enc` says, reads as the number it writes. -/
theorem numberIn_map_digits {base : Nat} {enc : Fin base → Byte} (henc : ∀ d, digitValue (enc d) = d.val)
    {ds : List (Fin base)} (hds : ds ≠ []) :
    numberIn base (ds.map enc) = some (Nat.ofDigits base (ds.reverse.map Fin.val)) := by
  have hfold : (ds.map enc).foldl (fun n b => n * base + digitValue b) 0 =
      Nat.ofDigits base (ds.reverse.map Fin.val) := by
    simp [Nat.ofDigits_eq_foldr, List.foldl_map, henc, Nat.mul_comm, Nat.add_comm]
  simp [numberIn, hds, henc, hfold]

theorem number_decimal {ds : List (Fin 10)} (hds : ds ≠ []) :
    number (ds.map (fun d => BitVec.ofNat 8 (0x30 + d.val))) = some (Nat.ofDigits 10 (ds.reverse.map Fin.val)) := by
  have hx : ∀ d : Fin 10, BitVec.ofNat 8 (0x30 + d.val) ≠ 0x78#8 := by decide
  have hmark : (ds.map (fun d => BitVec.ofNat 8 (0x30 + d.val))).take 2 ≠ [0x30#8, 0x78#8] := by
    rcases ds with _ | ⟨d, _ | ⟨e, ds⟩⟩ <;> simp [hx]
  rw [number, if_neg hmark]
  exact numberIn_map_digits (by decide) hds

theorem number_hexadecimal {ds : List (Fin 16)} (hds : ds ≠ []) :
    number (ascii "0x" ++ ds.map (fun d => BitVec.ofNat 8 (if d.val < 10 then 0x30 + d.val else 0x57 + d.val))) =
      some (Nat.ofDigits 16 (ds.reverse.map Fin.val)) :=
  numberIn_map_digits (by decide) hds

/-! ### What the operand readers accept -/

theorem boundedNumber_le {max n : Nat} {t : Token} (h : boundedNumber max t = some n) : n ≤ max := by
  cases t with
  | word w => exact of_decide_eq_true (Option.filter_eq_some_iff.mp h).2
  | char | str | comma => cases h

theorem boundedNumber_word_eq_some {max n : Nat} {w : Bytes} :
    boundedNumber max (.word w) = some n ↔ number w = some n ∧ n ≤ max := by
  simp [boundedNumber, Option.filter_eq_some_iff]

/-- An operand reader accepts, of the words, exactly the texts of an operand value, and reads that value. -/
def Reads {α : Type} (operand : Token → Option α) (text : Bytes → α → Prop) : Prop :=
  ∀ w, (∀ a, text w a → operand (.word w) = some a) ∧ ((∀ a, ¬ text w a) → operand (.word w) = none)

theorem byteOperand_reads : Reads byteOperand ByteText := byteOperand_word

theorem valOperand_reads : Reads valOperand ByteText := byteOperand_word

theorem timeoutOperand_reads : Reads timeoutOperand TimeText := timeoutOperand_word

/-- The keyword names have different names, none of which is a number, and legal selectors. -/
theorem keywordNames_spec : ∀ p ∈ keywordNames,
    keywordNames.lookup p.1 = some p.2 ∧ number p.1 = none ∧ validKeyword p.2 = true := by decide

theorem mem_of_lookup_eq_some {β : Type} {l : List (Bytes × β)} {m : Bytes} {b : β} (h : l.lookup m = some b) :
    (m, b) ∈ l := by
  obtain ⟨l₁, l₂, rfl, _⟩ := List.lookup_eq_some_iff.mp h
  simp

/-- The keyword texts are the names of the assembler's table and the legal numbers. -/
theorem keywordText_iff (w : Bytes) (k : BitVec 4) : KeywordText w k ↔
    (w, k) ∈ keywordNames ∨ ∃ n, number w = some n ∧ (n ≤ 8 ∨ n = 15) ∧ k.toNat = n := by
  simp [KeywordText, keywordNames, ← BitVec.toNat_inj]

theorem keywordOperand_of_name {w : Bytes} {k : BitVec 4} (h : (w, k) ∈ keywordNames) :
    keywordOperand (.word w) = some k := by
  simp [keywordOperand, (keywordNames_spec _ h).1]

/-- A word that is no keyword name is read as a number. -/
theorem keywordOperand_of_number {w : Bytes} (h : ∀ k, (w, k) ∉ keywordNames) :
    keywordOperand (.word w) = ((boundedNumber 15 (.word w)).map (BitVec.ofNat 4)).filter validKeyword := by
  have hnone : keywordNames.lookup w = none :=
    Option.eq_none_iff_forall_ne_some.mpr fun k hk => h k (mem_of_lookup_eq_some hk)
  simp [keywordOperand, hnone]

theorem keywordOperand_reads : Reads keywordOperand KeywordText := by
  intro w
  simp only [keywordText_iff]
  refine ⟨fun k hk => ?_, fun h => ?_⟩
  · rcases hk with hname | ⟨n, hn, hrange, rfl⟩
    · exact keywordOperand_of_name hname
    · have hnot : ∀ k, (w, k) ∉ keywordNames := fun k hk => by
        simpa [hn] using (keywordNames_spec _ hk).2.1
      have hle : k.toNat ≤ 15 := by omega
      simp [keywordOperand_of_number hnot, boundedNumber, hn, hle, validKeyword, hrange]
  · rw [keywordOperand_of_number fun k hk => h k (.inl hk), Option.filter_eq_none_iff]
    intro k hk hvalid
    obtain ⟨n, hb, rfl⟩ := Option.map_eq_some_iff.mp hk
    obtain ⟨hn, hle⟩ := boundedNumber_word_eq_some.mp hb
    have hv : (BitVec.ofNat 4 n).toNat = n := by simp; omega
    exact h _ (.inr ⟨n, hn, by simpa [validKeyword, hv] using hvalid, hv⟩)

/-- SSID and PASS are not numbers. -/
theorem selectorOperand_of_number {w : Bytes} {n : Nat} (h : number w = some n) :
    selectorOperand (.word w) = (boundedNumber 1 (.word w)).map (BitVec.ofNat 8) := by
  have hssid : w ≠ ascii "SSID" := by rintro rfl; cases h
  have hpass : w ≠ ascii "PASS" := by rintro rfl; cases h
  simp [selectorOperand, hssid, hpass]

theorem selectorOperand_reads : Reads selectorOperand SelectorText := by
  intro w
  refine ⟨fun sel hsel => ?_, fun h => ?_⟩
  · rcases hsel with ⟨rfl, rfl⟩ | ⟨rfl, rfl⟩ | ⟨n, hn, hle, rfl⟩
    · rfl
    · rfl
    · simp [selectorOperand_of_number hn, boundedNumber_word_eq_some.mpr ⟨hn, hle⟩]
  · have hssid : w ≠ ascii "SSID" := fun hw => h 0#8 (.inl ⟨hw, rfl⟩)
    have hpass : w ≠ ascii "PASS" := fun hw => h 1#8 (.inr (.inl ⟨hw, rfl⟩))
    have hnone : boundedNumber 1 (.word w) = none := boundedNumber_word_none fun n hn => by
      by_contra hle
      exact h (BitVec.ofNat 8 n) (.inr (.inr ⟨n, hn, by omega, by simp; omega⟩))
    simp [selectorOperand, hssid, hpass, hnone]

/-! ### The forms -/

/-- A form with one operand that is a word. -/
theorem assembleForm_word (cap : Nat) (m w : Bytes) :
    assembleForm cap m [.word w] = (unaryForm m (.word w)).map (fun i => [i]) := rfl

theorem UnaryForm.of_reads {α : Type} {m : String} {text : Bytes → α → Prop} {mk : α → Instr}
    {operand : Token → Option α} (hm : isWord (ascii m) = true) (hread : Reads operand text)
    (hform : ∀ t, unaryForm (ascii m) t = (operand t).map mk) : UnaryForm m text mk := by
  intro cap w hw
  obtain ⟨hsome, hnone⟩ := hread w
  rw [assembleLine_unary cap hm hw, assembleForm_word, hform]
  exact ⟨fun a ha => by rw [hsome a ha]; rfl, fun h => by rw [hnone h]; rfl⟩

theorem BinaryForm.of_reads {α β : Type} {m : String} {text : Bytes → α → Prop} {text' : Bytes → β → Prop}
    {mk : α → β → Instr} {operand : Token → Option α} {operand' : Token → Option β} (hm : isWord (ascii m) = true)
    (hread : Reads operand text) (hread' : Reads operand' text')
    (hform : ∀ t u, binaryForm (ascii m) t u = (operand t).bind (fun a => (operand' u).map (mk a))) :
    BinaryForm m text text' mk := by
  intro cap w w' hw hw'
  obtain ⟨hsome, hnone⟩ := hread w
  obtain ⟨hsome', hnone'⟩ := hread' w'
  rw [assembleLine_binary cap hm hw hw', assembleForm, hform]
  refine ⟨fun a b ha hb => by rw [hsome a ha, hsome' b hb]; rfl, ?_⟩
  rintro (h | h)
  · rw [hnone h]; rfl
  · rw [hnone' h]; cases operand (.word w) <;> rfl

theorem CharForm.of_byteOperand {m : String} {mk : BitVec 8 → BitVec 8 → Instr} (hm : isWord (ascii m) = true)
    (hform : ∀ t u, binaryForm (ascii m) t u = (byteOperand t).bind (fun a => (valOperand u).map (mk a))) :
    CharForm m mk := by
  intro cap w c hw
  obtain ⟨hsome, hnone⟩ := byteOperand_reads w
  rw [assembleLine_char cap hm hw, assembleForm, hform]
  exact ⟨fun a ha => by rw [hsome a ha]; rfl, fun h => by rw [hnone h]; rfl⟩

/-- The forms without operands have different names and well-formed commands. -/
theorem bareForms_spec : ∀ p ∈ bareForms, bareForms.lookup p.1 = some p.2 ∧ p.2.wellFormed = true := by decide

/-- No form without operands is one with an operand. -/
theorem unaryForm_of_bare {p : Bytes × Instr} (hp : p ∈ bareForms) (t : Token) : unaryForm p.1 t = none := by
  fin_cases hp <;> rfl

theorem assembleForm_bare (cap : Nat) (m : Bytes) :
    assembleForm cap m [] = (bareForms.lookup m).map (fun i => [i]) := rfl

theorem assembleLine_of_bare (cap : Nat) {m : Bytes} {i : Instr} (hm : isWord m = true) (h : (m, i) ∈ bareForms) :
    assembleLine cap m = some [i] := by
  rw [assembleLine_bare cap hm, assembleForm_bare, (bareForms_spec _ h).1]; rfl

theorem assembleLine_bare_operand (cap : Nat) {m w : Bytes} {i : Instr} (hm : isWord m = true) (hw : isWord w = true)
    (h : (m, i) ∈ bareForms) : assembleLine cap (m ++ 0x20#8 :: w) = none := by
  rw [assembleLine_unary cap hm hw, assembleForm_word, unaryForm_of_bare h]; rfl

theorem assembleLine_of_not_bare (cap : Nat) {m : Bytes} (hm : isWord m = true) (h : m ∉ bareForms.map Prod.fst) :
    assembleLine cap m = none := by
  have hnone : bareForms.lookup m = none := Option.eq_none_iff_forall_ne_some.mpr fun i hi =>
    h (List.mem_map_of_mem (f := Prod.fst) (mem_of_lookup_eq_some hi))
  rw [assembleLine_bare cap hm, assembleForm_bare, hnone]; rfl

/-! ### Strings (R112) -/

theorem assembleLine_ldpat (cap : Nat) {s : Bytes} (hs : 0x22#8 ∉ s) :
    assembleLine cap (ascii "LDPAT " ++ 0x22#8 :: (s ++ [0x22#8])) = loadPattern s :=
  assembleLine_str cap (m := ascii "LDPAT") (by decide) hs

theorem assembleLine_ldline (cap : Nat) {s : Bytes} (hs : 0x22#8 ∉ s) :
    assembleLine cap (ascii "LDLINE " ++ 0x22#8 :: (s ++ [0x22#8])) = loadLine cap s :=
  assembleLine_str cap (m := ascii "LDLINE") (by decide) hs

theorem loadPattern_spec (s : Bytes) :
    (s.length ≤ 16 → ∃ is, loadPattern s = some is ∧
      is.length = s.length + 1 ∧ is[s.length]? = some (.patlen (BitVec.ofNat 8 s.length)) ∧
      ∀ j, (h : j < s.length) → is[j]? = some (.patset (BitVec.ofNat 8 j) s[j])) ∧
    (16 < s.length → loadPattern s = none) := by
  refine ⟨fun h => ⟨_, if_pos h, ?_, ?_, fun j hj => ?_⟩, fun h => if_neg (by omega)⟩
  · simp [byteCommands_length]
  · simp [byteCommands_length]
  · rw [List.getElem?_append_left (by rwa [byteCommands_length])]
    simp [byteCommands_getElem?, hj]

theorem loadLine_spec (cap : Nat) (s : Bytes) :
    (s.length ≤ cap → 0x00#8 ∉ s → ∃ is, loadLine cap s = some is ∧
      is.length = s.length + 1 ∧ is[0]? = some .clr ∧
      ∀ j, (h : j < s.length) → is[j + 1]? = some (.setb (BitVec.ofNat 8 j) s[j])) ∧
    (cap < s.length ∨ 0x00#8 ∈ s → loadLine cap s = none) := by
  have hall : s.all (fun b => b != 0#8) = true ↔ 0#8 ∉ s := by
    simp only [List.all_eq_true, bne_iff_ne]
    exact ⟨fun h hz => h _ hz rfl, fun h b hb hz => h (hz ▸ hb)⟩
  refine ⟨fun h hz => ⟨_, if_pos ⟨h, hall.mpr hz⟩, ?_, rfl, fun j hj => ?_⟩, fun h => if_neg ?_⟩
  · simp [byteCommands_length]
  · simp [byteCommands_getElem?, hj]
  · rw [hall]
    rcases h with h | h
    · omega
    · exact fun hn => hn.2 h

/-! ### Comments -/

/-- Outside quotes, a `;` ends the line. -/
theorem lex_comment (c : Bytes) {l : Bytes} (hchar : 0x27#8 ∉ l) (hstr : 0x22#8 ∉ l) (hsemi : 0x3B#8 ∉ l) :
    (∀ ts, lex .between ts (l ++ 0x3B#8 :: c) = lex .between ts l) ∧
    ∀ w ts, lex (.word w) ts (l ++ 0x3B#8 :: c) = lex (.word w) ts l := by
  induction l with
  | nil => simp [lex, isBlank]
  | cons b l ih =>
    simp only [List.mem_cons, not_or] at hchar hstr hsemi
    obtain ⟨hbetween, hword⟩ := ih hchar.2 hstr.2 hsemi.2
    simp [lex, hbetween, hword, Ne.symm hchar.1, Ne.symm hstr.1, Ne.symm hsemi.1]

/-! ### What the assembler emits is well formed -/

theorem keywordOperand_valid {t : Token} {k : BitVec 4} (h : keywordOperand t = some k) : validKeyword k = true := by
  cases t with
  | word w =>
    by_cases hname : ∃ k', (w, k') ∈ keywordNames
    · obtain ⟨k', hk'⟩ := hname
      obtain rfl : k' = k := by simpa [keywordOperand_of_name hk'] using h
      exact (keywordNames_spec _ hk').2.2
    · rw [keywordOperand_of_number (by simpa using hname), Option.filter_eq_some_iff] at h
      exact h.2
  | char | str | comma => cases h

theorem selectorOperand_valid {t : Token} {sel : BitVec 8} (h : selectorOperand t = some sel) :
    validSelector sel = true := by
  unfold selectorOperand at h
  split_ifs at h
  · cases h; rfl
  · cases h; rfl
  · obtain ⟨n, hn, rfl⟩ := Option.map_eq_some_iff.mp h
    have hle := boundedNumber_le hn
    simp [validSelector]; omega

theorem unaryForm_wellFormed {m : Bytes} {t : Token} {i : Instr} (h : unaryForm m t = some i) :
    i.wellFormed = true := by
  unfold unaryForm at h
  split_ifs at h <;> obtain ⟨a, ha, rfl⟩ := Option.map_eq_some_iff.mp h
  · rfl
  · rfl
  · exact keywordOperand_valid ha
  · exact keywordOperand_valid ha
  · rfl
  · rfl
  · exact keywordOperand_valid ha
  · exact keywordOperand_valid ha
  · rfl

theorem binaryForm_wellFormed {m : Bytes} {t u : Token} {i : Instr} (h : binaryForm m t u = some i) :
    i.wellFormed = true := by
  unfold binaryForm at h
  split_ifs at h <;> obtain ⟨a, ha, hu⟩ := Option.bind_eq_some_iff.mp h <;>
    obtain ⟨b, _, rfl⟩ := Option.map_eq_some_iff.mp hu
  · rfl
  · rfl
  · exact keywordOperand_valid ha
  · exact selectorOperand_valid ha

theorem byteCommands_mem {mk : BitVec 8 → BitVec 8 → Instr} {n : Nat} {s : Bytes} {i : Instr}
    (h : i ∈ byteCommands mk n s) : ∃ a b, i = mk a b := by
  induction s generalizing n with
  | nil => cases h
  | cons b s ih =>
    rcases List.mem_cons.mp h with rfl | h
    · exact ⟨_, _, rfl⟩
    · exact ih h

theorem loadPattern_wellFormed {s : Bytes} {is : List Instr} (h : loadPattern s = some is) :
    ∀ i ∈ is, i.wellFormed = true := by
  unfold loadPattern at h
  split at h <;> cases h
  intro i hi
  rcases List.mem_append.mp hi with hi | hi
  · obtain ⟨a, b, rfl⟩ := byteCommands_mem hi; rfl
  · obtain rfl := List.mem_singleton.mp hi; rfl

theorem loadLine_wellFormed {cap : Nat} {s : Bytes} {is : List Instr} (h : loadLine cap s = some is) :
    ∀ i ∈ is, i.wellFormed = true := by
  unfold loadLine at h
  split at h <;> cases h
  intro i hi
  rcases List.mem_cons.mp hi with rfl | hi
  · rfl
  · obtain ⟨a, b, rfl⟩ := byteCommands_mem hi; rfl

theorem assembleForm_wellFormed {cap : Nat} {m : Bytes} {ts : List Token} {is : List Instr}
    (h : assembleForm cap m ts = some is) : ∀ i ∈ is, i.wellFormed = true := by
  unfold assembleForm at h
  split at h
  · obtain ⟨i, hi, rfl⟩ := Option.map_eq_some_iff.mp h
    simpa using (bareForms_spec _ (mem_of_lookup_eq_some hi)).2
  · split_ifs at h
    · exact loadPattern_wellFormed h
    · exact loadLine_wellFormed h
  · obtain ⟨i, hi, rfl⟩ := Option.map_eq_some_iff.mp h
    simpa using unaryForm_wellFormed hi
  · obtain ⟨i, hi, rfl⟩ := Option.map_eq_some_iff.mp h
    simpa using binaryForm_wellFormed hi
  · cases h

theorem assembleLine_wellFormed {cap : Nat} {line : Bytes} {is : List Instr} (h : assembleLine cap line = some is) :
    ∀ i ∈ is, i.wellFormed = true := by
  unfold assembleLine at h
  split at h
  case h_2 => cases h; simp
  case h_3 =>
    obtain ⟨l, _, hl⟩ := Option.bind_eq_some_iff.mp h
    exact assembleForm_wellFormed hl
  all_goals cases h

/-- Settles O6: what is emitted is well formed by `assembleLine_wellFormed` and then legal by `legal_encode`; integers are
`number_decimal` and `number_hexadecimal`; each form's operand readers accept exactly the texts of its operands (`Reads`);
the strings are `loadPattern_spec` and `loadLine_spec`; a comment ends the line for the lexer (`lex_comment`). -/
theorem assemblerFormsAndRefusals : Obligations.AssemblerFormsAndRefusals := by
  refine ⟨fun cap line is h i hi => ?_, fun ds => number_decimal, fun ds => number_hexadecimal, fun cap m hm => ?_,
    .of_reads rfl byteOperand_reads fun _ => rfl, .of_reads rfl byteOperand_reads fun _ => rfl,
    .of_reads rfl byteOperand_reads fun _ => rfl, .of_reads rfl byteOperand_reads fun _ => rfl,
    .of_reads rfl keywordOperand_reads fun _ => rfl, .of_reads rfl keywordOperand_reads fun _ => rfl,
    .of_reads rfl keywordOperand_reads fun _ => rfl, .of_reads rfl keywordOperand_reads fun _ => rfl,
    .of_reads rfl timeoutOperand_reads fun _ => rfl,
    .of_reads rfl byteOperand_reads valOperand_reads fun _ _ => rfl, .of_byteOperand rfl fun _ _ => rfl,
    .of_reads rfl byteOperand_reads valOperand_reads fun _ _ => rfl, .of_byteOperand rfl fun _ _ => rfl,
    .of_reads rfl keywordOperand_reads timeoutOperand_reads fun _ _ => rfl,
    .of_reads rfl selectorOperand_reads byteOperand_reads fun _ _ => rfl,
    fun cap s hs => ?_, fun cap s hs => ?_, fun cap l c hchar hstr hsemi => ?_⟩
  · have hi := assembleLine_wellFormed h i hi
    exact ⟨hi, (legal_encode i).trans hi⟩
  · exact ⟨fun i hi => ⟨assembleLine_of_bare cap hm hi, fun w hw => assembleLine_bare_operand cap hm hw hi⟩,
      assembleLine_of_not_bare cap hm⟩
  · rw [assembleLine_ldpat cap hs]; exact loadPattern_spec s
  · rw [assembleLine_ldline cap hs]; exact loadLine_spec cap s
  · simp only [assembleLine, (lex_comment c hchar hstr hsemi).1]

end Sys2Proof.Machine

namespace Sys2Proof.Machine

open Sys2Proof

/-! ### FB's bytes, digits and stores, in range and out of range (20_memory.md R71, 40_framebuffer.md R131-R133) -/

section
variable {s : State} {i : Nat}

theorem State.getByte_of_lt (h : i < s.cap) : s.getByte i = Memory.read s.fb i := if_pos h

theorem State.getByte_of_le (h : s.cap ≤ i) : s.getByte i = 0#8 := if_neg (not_lt.mpr h)

theorem State.getDigit_of_lt (h : i < s.cap) : s.getDigit i = ((Memory.read s.fb i).toNat : Int) - 48 := if_pos h

theorem State.getDigit_of_le (h : s.cap ≤ i) : s.getDigit i = -1 := if_neg (not_lt.mpr h)

theorem State.fbStore_of_lt (h : i < s.cap) (v : Byte) : s.fbStore i v = s.setFb (Memory.write s.fb i v) := if_pos h

theorem State.fbStore_of_le (h : s.cap ≤ i) (v : Byte) : s.fbStore i v = s := if_neg (not_lt.mpr h)

end

/-- A digit of FB, or its sentinel, is exact in RESULT (R132). -/
theorem State.digitResult_getDigit_toInt (s : State) (i : Nat) : (digitResult (s.getDigit i)).toInt = s.getDigit i :=
  digitResult_toInt (s.getDigit_bounds i).1 (s.getDigit_bounds i).2

/-! ### What a command whose RESULT is a match of its keyword does (R137, R138) -/

/-- With a keyword `w` RESULT says whether `w` passes the test and nothing else changes; without one Illegal is raised. -/
theorem keywordTest_result {s : State} {k : BitVec 4} {o : Host.Outcome State Fault Refusal} {test : Bytes → Bool}
    {P : Bytes → Prop} (ho : o = .next (s.withKeyword k fun w => s.setResult (boolResult (test w))))
    (hP : ∀ w, test w = true ↔ P w) :
    (∀ w, s.keyword k = some w → ∃ r : BitVec 16, o = .next (s.setResult r) ∧
      (r = 1#16 ∨ r = 0#16) ∧ (r = 1#16 ↔ P w)) ∧
    (s.keyword k = none → o = .next s.raiseIllegal) := by
  subst ho
  constructor
  · intro w hw
    exact ⟨boolResult (test w), by rw [State.withKeyword_some hw], boolResult_cases _,
      (boolResult_eq_one _).trans (hP w)⟩
  · intro hnone
    rw [State.withKeyword_none hnone]

/-! ### The commands' issue steps, by what they do to FB, PAT and RESULT -/

theorem exec_getb (idx : BitVec 8) (s : State) :
    exec (.getb idx) s = .next (s.setResult ((s.getByte idx.toNat).setWidth 16)) := rfl

theorem exec_getd (idx : BitVec 8) (s : State) :
    exec (.getd idx) s = .next (s.setResult (digitResult (s.getDigit idx.toNat))) := rfl

theorem exec_setb (idx val : BitVec 8) (s : State) : exec (.setb idx val) s =
    .next ((s.fbStore idx.toNat val).setResult (boolResult (decide (idx.toNat < s.cap)))) := rfl

theorem exec_matchp (k : BitVec 4) (s : State) :
    exec (.matchp k) s = .next (s.withKeyword k fun w => s.setResult (boolResult (s.matchesPrefix w))) := rfl

theorem exec_matchs (k : BitVec 4) (s : State) :
    exec (.matchs k) s = .next (s.withKeyword k fun w => s.setResult (boolResult (occurs w s.text))) := rfl

theorem exec_patset (idx val : BitVec 8) (s : State) : exec (.patset idx val) s =
    .next ((s.setPat (s.pat.setIfInBounds idx.toNat val)).setResult (boolResult (decide (idx.toNat < 16)))) := rfl

theorem exec_patlen_of_le {n : BitVec 8} (h : n.toNat ≤ 16) (s : State) :
    exec (.patlen n) s = .next ((s.setPatLen ⟨n.toNat, Nat.lt_succ_of_le h⟩).setResult 1#16) :=
  congrArg Host.Outcome.next (dif_pos h)

theorem exec_patlen_of_lt {n : BitVec 8} (h : 16 < n.toNat) (s : State) :
    exec (.patlen n) s = .next (s.setResult 0#16) :=
  congrArg Host.Outcome.next (dif_neg (not_le.mpr h))

/-- Settles O13: the byte and the digit by range; the digit is exact in RESULT since it lies in -48..207. -/
theorem getbAndGetdResults : Obligations.GetbAndGetdResults := by
  intro s idx
  refine ⟨fun h => ?_, fun h => ?_, fun h => ⟨_, exec_getd idx s, ?_⟩, fun h => ?_⟩
  · rw [exec_getb, State.getByte_of_lt h, BitVec.ofNat_toNat]; rfl
  · rw [exec_getb, State.getByte_of_le h]; rfl
  · rw [s.digitResult_getDigit_toInt, State.getDigit_of_lt h]
  · rw [exec_getd, State.getDigit_of_le h]; rfl

/-- Settles O14: an index in range is stored at, and storage in canonical form reads back exactly that store
(`Memory.read_write`); out of range the store does nothing. -/
theorem setbStoresOneByte : Obligations.SetbStoresOneByte := by
  intro s idx val hwf
  constructor
  · intro h
    refine ⟨Memory.write s.fb idx.toNat val, ?_, ?_, fun a ha => ?_⟩
    · rw [exec_setb, State.fbStore_of_lt h, decide_eq_true h]; rfl
    · rw [Memory.read_write hwf, if_pos rfl]
    · rw [Memory.read_write hwf, if_neg ha]
  · intro h
    rw [exec_setb, State.fbStore_of_le h, decide_eq_false (not_lt.mpr h)]; rfl

/-- Settles O16: the number is the length of the text view, whose bytes are FB's and not 0 and which ends at CAP or before
a 0 (Laws/Operands). -/
theorem textlenResult : Obligations.TextlenResult := by
  intro s
  refine ⟨s.text.length, rfl, s.textLen_le, fun i hi => ?_, s.read_textLen⟩
  rw [← s.text_getElem hi]
  exact s.text_ne_zero (List.getElem_mem hi)

/-- Settles O18: the keyword's test is `State.matchesPrefix`, which is the match byte by byte. -/
theorem matchpResult : Obligations.MatchpResult := by
  intro s k
  exact keywordTest_result (exec_matchp k s) s.matchesPrefix_iff

/-- Settles O19: the keyword's test is `occurs` in the text view, which is being a contiguous part of it. -/
theorem matchsResult : Obligations.MatchsResult := by
  intro s k
  exact keywordTest_result (exec_matchs k s) fun w => occurs_iff w s.text

/-- Settles O20: PAT is a vector of 16 bytes, so an index at or above 16 leaves it as it is; PATLEN by its bound. -/
theorem patsetAndPatlenResults : Obligations.PatsetAndPatlenResults := by
  refine ⟨fun s idx val => ⟨fun h => ?_, fun h => ?_⟩, fun s n => ⟨fun h => ?_, fun h => exec_patlen_of_lt h s⟩⟩
  · refine ⟨s.pat.setIfInBounds idx.toNat val, ?_, fun j => ?_⟩
    · rw [exec_patset, decide_eq_true h]; rfl
    · rw [Fin.getElem_fin, Vector.getElem_setIfInBounds, Fin.getElem_fin]; simp only [eq_comm]
  · have hkept : s.pat.setIfInBounds idx.toNat val = s.pat := Vector.setIfInBounds_eq_of_size_le h
    rw [exec_patset, hkept, decide_eq_false (not_lt.mpr h)]; rfl
  · exact ⟨⟨n.toNat, Nat.lt_succ_of_le h⟩, exec_patlen_of_le h s, rfl⟩

/-- Settles O15: cleared storage lists no index, and an unlisted index reads as 0. -/
theorem clrZeroesFb : Obligations.ClrZeroesFb :=
  fun _ => ⟨[], rfl, Memory.read_nil⟩

end Sys2Proof.Machine

namespace Sys2Proof.Machine

open Sys2Proof

/-! ### PHASE alone -/

@[simp] theorem State.setPhase_setPhase (s : State) (p q : Phase) : (s.setPhase p).setPhase q = s.setPhase q := rfl

theorem State.setPhase_self {s : State} {p : Phase} (h : s.phase = p) : s.setPhase p = s := by subst h; rfl

/-! ### The settle phase (41_line_capture.md R172) -/

theorem State.tick_settle {s : State} {n : BitVec 16} (hp : s.phase = .settle n) (hn : n ≠ 0#16) :
    s.tick = s.setPhase (.settle (n - 1#16)) := by
  simp [State.tick, hp, hn]

theorem State.sequencerStep_settle_of_ne {s : State} {n : BitVec 16} (hp : s.phase = .settle n) (hn : n ≠ 0#16) :
    s.sequencerStep = s := by
  simp [State.sequencerStep, State.sequencerEnabled, hp, hn]

theorem State.sequencerStep_idle {s : State} (hp : s.phase = .idle) : s.sequencerStep = s := by
  simp [State.sequencerStep, State.sequencerEnabled, hp]

/-- The whole countdown: as many TICKs as the counter says bring SETTLE to 0, and nothing else changes. -/
theorem State.ticks_settle {s : State} {n : BitVec 16} (hp : s.phase = .settle n) :
    State.ticks n.toNat s = s.setPhase (.settle 0#16) := by
  induction hk : n.toNat generalizing s n with
  | zero =>
    obtain rfl : n = 0#16 := BitVec.eq_of_toNat_eq hk
    exact (State.setPhase_self hp).symm
  | succ k ih =>
    have hn : n ≠ 0#16 := by rintro rfl; cases hk
    have hk' : (n - 1#16).toNat = k := by bv_omega
    rw [State.ticks, State.tick_settle hp hn, ih rfl hk', State.setPhase_setPhase]

/-- The settle phase from its start to SCAN(0): the countdown, then one Sequencer step. -/
theorem State.settle_run {s : State} {n : BitVec 16} (hp : s.phase = .settle n) :
    State.sequencerSteps 1 (State.ticks n.toNat s) = s.setPhase (.scan 0) := by
  rw [State.ticks_settle hp]
  exact State.sequencerStep_settle_zero (s := s.setPhase (.settle 0#16)) rfl

/-! ### One scan step, case by case (R173-R176) -/

/-- The two conditions under which `next(p, b)` is p + 1 and 1 (R175), in terms of the marker's bytes. -/
theorem marker_getElem?_eq_some_iff (p : Fin 4) (b : Byte) : marker[p.val]? = some b ↔ b = marker.getD p.val 0#8 := by
  fin_cases p <;> simp [marker, eq_comm]

theorem markerNext_of_next {p : Fin 4} {b : Byte} (h : marker[p.val]? = some b) : markerNext p b = p.val + 1 :=
  if_pos ((marker_getElem?_eq_some_iff p b).mp h)

theorem markerNext_of_not_next {p : Fin 4} {b : Byte} (h : marker[p.val]? ≠ some b) :
    markerNext p b = if b = 0x43#8 then 1 else 0 :=
  if_neg (mt (marker_getElem?_eq_some_iff p b).mpr h)

section
variable {s : State} {p : Fin 4} {b : Byte} {rest : Bytes}

theorem State.scanStep_of_nil (hrx : s.rx = []) : s.scanStep p = (s.setResult 0#16).complete := by
  simp [State.scanStep, hrx]

theorem State.scanStep_of_found (hrx : s.rx = b :: rest) (h : markerNext p b = 4) :
    s.scanStep p = (s.setRx rest).markerFound := by
  simp [State.scanStep, hrx, h]

theorem State.scanStep_of_progress (hrx : s.rx = b :: rest) {q : Fin 4} (h : markerNext p b = q.val) :
    s.scanStep p = (s.setRx rest).setPhase (.scan q) := by
  simp [State.scanStep, hrx, h, q.isLt.ne]

end

/-! ### One copy step, case by case (R177, R178) -/

section
variable {s : State} {w : Nat} {b : Byte} {rest : Bytes}

theorem State.copyStep_of_nil (hrx : s.rx = []) : s.copyStep w = s.copyEndNoeol := by
  simp [State.copyStep, hrx]

theorem State.copyStep_of_lf (hrx : s.rx = 0x0A#8 :: rest) :
    s.copyStep w = ((s.setRx rest).setResult 1#16).complete := by
  simp [State.copyStep, hrx]

theorem State.copyStep_of_cr (hrx : s.rx = 0x0D#8 :: rest) : s.copyStep w = (s.setRx rest).setPhase (.copy w) := by
  simp [State.copyStep, hrx]

theorem State.copyStep_of_room (hrx : s.rx = b :: rest) (hlf : b ≠ 0x0A#8) (hcr : b ≠ 0x0D#8) (hw : w < s.cap) :
    s.copyStep w = ((s.setRx rest).setFb (Memory.write s.fb w b)).setPhase (.copy (w + 1)) := by
  simp [State.copyStep, hrx, hlf, hcr, hw, State.fbStore_of_lt (s := s.setRx rest) hw]

theorem State.copyStep_of_full (hrx : s.rx = b :: rest) (hlf : b ≠ 0x0A#8) (hcr : b ≠ 0x0D#8) (hw : s.cap ≤ w) :
    s.copyStep w = ((s.setRx rest).setFlags s.flags.setTrunc).setPhase (.copy w) := by
  simp [State.copyStep, hrx, hlf, hcr, not_lt.mpr hw]

end

/-! ### The scan up to the marker (R175, R176) -/

/-- The scan over bytes of which only the whole ends in the marker: they are removed and the copy begins. -/
theorem State.scan_run_found {s : State} {bs rest : Bytes} (hp : s.phase = .scan 0) (hrx : s.rx = bs ++ rest)
    (hfirst : ∀ l, l <+: bs → l ≠ bs → ¬ marker <:+ l) (hm : marker <:+ bs) :
    State.sequencerSteps bs.length s = (s.setRx rest).markerFound := by
  cases bs using List.reverseRecOn with
  | nil => exact absurd hm (by decide)
  | append_singleton l b =>
    have hbefore : ∀ l', l' <+: l → ¬ marker <:+ l' := by
      intro l' hl'
      refine hfirst l' (hl'.trans (List.prefix_append _ _)) ?_
      rintro rfl
      simpa using hl'.length_le
    obtain ⟨p, hrun, hprog⟩ := State.scan_run hp (rest := b :: rest) (by simpa using hrx) hbefore
    have hnext : markerNext p b = 4 := (hprog.snoc b).1.mp hm
    rw [List.length_append, List.length_singleton, State.sequencerSteps_succ, hrun, State.sequencerStep_scan rfl,
      State.scanStep_of_found rfl hnext]
    rfl

/-! ### The issue steps (R171, R180) -/

theorem exec_capture_of_nil {s : State} (h : s.rx = []) : exec .capture s = .next (s.setResult 0#16).complete := by
  simp [exec, execCapture, h]

theorem exec_capture_of_ne_nil {s : State} (h : s.rx ≠ []) :
    exec .capture s = .next (s.setPhase (.settle s.cfg.settleTicks)) := by
  simp [exec, execCapture, h]

theorem exec_drain (s : State) :
    exec .drain s = .next ((s.fbClear.setRx []).setResult (countResult s.rx.length)) := rfl

/-! ### The obligations of line capture -/

/-- Settles O21: whether the receive FIFO holds a byte. -/
theorem captureIssue : Obligations.CaptureIssue :=
  fun _ => ⟨exec_capture_of_nil, exec_capture_of_ne_nil⟩

/-- Settles O22: the counter's two cases; a TICK that does anything counts SETTLE or WINDOW down
(`State.tick_cases`). -/
theorem settlePhaseAndTicksElsewhere : Obligations.SettlePhaseAndTicksElsewhere := by
  refine ⟨fun s n hp => ⟨fun hn => ⟨?_, ?_⟩, ?_⟩, fun s hsettle hwindow => ?_, fun s hp => ?_⟩
  · rw [runAction, State.tick_settle hp hn]; rfl
  · rw [runAction, State.sequencerStep_settle_of_ne hp hn]
  · rintro rfl
    rw [runAction, State.sequencerStep_settle_zero hp]; rfl
  · rcases s.tick_cases with e | ⟨n, hp, hn, _⟩ | ⟨n, w, hp, hn, _⟩
    · rw [runAction, e]
    · exact absurd hp (hsettle n hn)
    · exact absurd hp (hwindow n w hn)
  · rw [runAction, State.sequencerStep_idle hp]

/-- Settles O23: the progress is `markerNext`, whose branches are those of R175. -/
theorem scanStep : Obligations.ScanStep := by
  intro s p hp
  constructor
  · intro hrx
    rw [runAction, State.sequencerStep_scan hp, State.scanStep_of_nil hrx]; rfl
  · intro b rest hrx
    refine ⟨markerNext p b, markerNext_of_next, fun h hC => ?_, fun h hC => ?_, fun q' hq' => ?_,
      fun h4 => ⟨[], ?_, Memory.read_nil⟩⟩
    · rw [markerNext_of_not_next h, if_pos hC]
    · rw [markerNext_of_not_next h, if_neg hC]
    · rw [runAction, State.sequencerStep_scan hp, State.scanStep_of_progress hrx hq'.symm]; rfl
    · rw [runAction, State.sequencerStep_scan hp, State.scanStep_of_found hrx h4]; rfl

/-- Settles O24: the branches of the copy step; a store in canonical form reads back as itself alone
(`Memory.read_write`). -/
theorem copyStep : Obligations.CopyStep := by
  intro s w hp hwf
  rw [runAction, State.sequencerStep_copy hp]
  refine ⟨fun hrx => ?_, fun b rest hrx => ⟨?_, ?_, fun hlf hcr hw => ?_, fun hlf hcr hw => ?_⟩⟩
  · rw [State.copyStep_of_nil hrx]; rfl
  · rintro rfl
    rw [State.copyStep_of_lf hrx]; rfl
  · rintro rfl
    rw [State.copyStep_of_cr hrx, ← hp]; rfl
  · refine ⟨Memory.write s.fb w b, ?_, ?_, fun a ha => ?_⟩
    · rw [State.copyStep_of_room hrx hlf hcr hw]; rfl
    · rw [Memory.read_write hwf, if_pos rfl]
    · rw [Memory.read_write hwf, if_neg ha]
  · rw [State.copyStep_of_full hrx hlf hcr hw, ← hp]; rfl

/-- Settles O25: the scan's progress says how far the bytes removed end in the marker (`State.scan_run`), so its last step
finds the marker exactly when they end in the whole of it. -/
theorem markerFoundExactlyAtCmdPlus : Obligations.MarkerFoundExactlyAtCmdPlus := by
  intro s bs rest hp hrx hfirst
  constructor
  · intro hm
    have hnone : ∀ l, l <+: bs → ¬ marker <:+ l := by
      intro l hl
      by_cases h : l = bs
      · rwa [h]
      · exact hfirst l hl h
    obtain ⟨p, hrun, _⟩ := State.scan_run hp hrx hnone
    exact ⟨p, hrun⟩
  · intro hm
    exact ⟨[], State.scan_run_found hp hrx hfirst hm, Memory.read_nil⟩

/-- Settles O26: the settle phase (`State.settle_run`), the scan up to the marker (`State.scan_run_found`), the copy up
to the LF (`State.copy_run`) and the step that removes the LF, one after the other. -/
theorem captureOfACompleteLine : Obligations.CaptureOfACompleteLine := by
  intro s noise line rest hp hrx hfirst hlf
  have hne : s.rx ≠ [] := by simp [hrx]
  have hscan : State.sequencerSteps (noise ++ marker).length (s.setPhase (.scan 0)) =
      ((s.setPhase (.scan 0)).setRx (line ++ 0x0A#8 :: rest)).markerFound :=
    State.scan_run_found rfl (by simpa using hrx) hfirst (List.suffix_append _ _)
  obtain ⟨m, hcopy, _, hread⟩ :=
    State.copy_run (s := ((s.setPhase (.scan 0)).setRx (line ++ 0x0A#8 :: rest)).markerFound) rfl rfl rfl rfl hlf
  refine ⟨_, m, exec_capture_of_ne_nil hne, ?_, hread⟩
  have hsteps : 1 + (noise ++ marker ++ line).length + 1 = 1 + ((noise ++ marker).length + (line.length + 1)) := by
    rw [List.length_append (bs := line)]; omega
  rw [hsteps, State.sequencerSteps_add, State.settle_run rfl, State.sequencerSteps_add,
    State.setPhase_setPhase, hscan, State.sequencerSteps_succ, hcopy, State.sequencerStep_copy rfl,
    State.copyStep_of_lf rfl, State.complete, ← hp]
  rfl

/-- Settles O27: the scan and the copy over all the bytes there are, then the step that finds the FIFO empty. -/
theorem captureOnAnEmptyFifo : Obligations.CaptureOnAnEmptyFifo := by
  constructor
  · intro s bs hp hrx hm
    obtain ⟨p, hrun, _⟩ := State.scan_run hp (hrx.trans (List.append_nil _).symm) hm
    rw [State.sequencerSteps_succ, hrun, State.sequencerStep_scan rfl, State.scanStep_of_nil rfl]
    rfl
  · intro s line hp hfb ht hrx hlf
    obtain ⟨m, hrun, _, hread⟩ := State.copy_run hp hfb ht (hrx.trans (List.append_nil _).symm) hlf
    refine ⟨m, ?_, hread⟩
    rw [State.sequencerSteps_succ, hrun, State.sequencerStep_copy rfl, State.copyStep_of_nil rfl]
    rfl

/-- Settles O28: RX_DEPTH is below 2^16, so the count of the bytes removed is exact in RESULT. -/
theorem drainEmptiesTheFifo : Obligations.DrainEmptiesTheFifo := by
  intro s hfits
  refine ⟨[], countResult s.rx.length, exec_drain s, Memory.read_nil, ?_⟩
  have hdepth : s.cfg.rxDepth < 2 ^ 16 := by
    have := s.cfg.rxDepthAbove1.isLt
    rw [Params.rxDepth]; omega
  exact (BitVec.toNat_ofNat _ _).trans (Nat.mod_eq_of_lt (hfits.trans_lt hdepth))

end Sys2Proof.Machine

namespace Sys2Proof.Machine

open Sys2Proof

/-! ### SEND's issue step (42_command_channel.md R201) -/

@[simp] theorem State.sendLine_length (s : State) : s.sendLine.length = s.text.length + 2 := by
  simp [State.sendLine, eol]

/-- A SEND line fits by its length with EOL, without truncated subtraction. -/
theorem State.sendLine_fits_iff (s : State) :
    s.sendLine.length ≤ s.txFree ↔ s.text.length + 2 + s.tx.length ≤ s.cfg.txDepth := by
  rw [s.le_txFree_iff (by simp), s.sendLine_length]

theorem exec_send (k : BitVec 4) (t : BitVec 16) (s : State) :
    exec (.send k t) s = .next (s.withKeyword k fun w =>
      if s.sendLine.length ≤ s.txFree then s.startWindow s.sendLine w t
      else s.setPhase (.sendtx s.sendLine w t)) := rfl

section
variable {s : State} {k : BitVec 4} {w : Bytes} (hk : s.keyword k = some w) (t : BitVec 16)
include hk

theorem exec_send_of_fits (h : s.text.length + 2 + s.tx.length ≤ s.cfg.txDepth) :
    exec (.send k t) s = .next (s.startWindow s.sendLine w t) := by
  rw [exec_send, State.withKeyword_some hk, if_pos (s.sendLine_fits_iff.mpr h)]

theorem exec_send_of_full (h : s.cfg.txDepth < s.text.length + 2 + s.tx.length) :
    exec (.send k t) s = .next (s.setPhase (.sendtx s.sendLine w t)) := by
  rw [exec_send, State.withKeyword_some hk, if_neg (mt s.sendLine_fits_iff.mp (not_le.mpr h))]

end

/-! ### SENDTX and WINDOW, case by case (R202-R205) -/

theorem State.tick_sendtx {s : State} {line w : Bytes} {t : BitVec 16} (hp : s.phase = .sendtx line w t) :
    s.tick = s := by
  simp [State.tick, hp]

theorem State.sequencerStep_sendtx_of_full {s : State} {line w : Bytes} {t : BitVec 16}
    (hp : s.phase = .sendtx line w t) (hl : ¬ line.length ≤ s.txFree) : s.sequencerStep = s := by
  simp [State.sequencerStep, State.sequencerEnabled, hp, hl]

section
variable {s : State} {n : BitVec 16} {w : Bytes}

theorem State.tick_window (hp : s.phase = .window n w) (hn : n ≠ 0#16) :
    s.tick = s.setPhase (.window (n - 1#16) w) := by
  simp [State.tick, hp, hn]

theorem State.sequencerStep_window_of_ne (hp : s.phase = .window n w) (hn : n ≠ 0#16) : s.sequencerStep = s := by
  simp [State.sequencerStep, State.sequencerEnabled, hp, hn]

theorem State.sequencerStep_window_zero (hp : s.phase = .window 0#16 w) : s.sequencerStep = s.closeWindow w := by
  simp [State.sequencerStep, State.sequencerEnabled, State.sequencerEffect, hp]

end

/-! ### FIELD, FIELDN and RESP (R207-R209) -/

theorem exec_field (off : BitVec 8) (s : State) :
    exec (.field off) s = .next ((s.setResult (digitResult (s.getDigit off.toNat))).setCursor (off + 2#8)) := rfl

/-- FIELDN is FIELD at CURSOR. -/
theorem exec_fieldn (s : State) : exec .fieldn s = exec (.field s.cursor) s := rfl

theorem exec_resp (k : BitVec 4) (s : State) :
    exec (.resp k) s = .next (s.withKeyword k fun w => s.emitLine w) := rfl

/-- FIELD: the exact digit or its sentinel, and CURSOR two further without a carry out of 8 bits. -/
theorem exec_field_spec (off : BitVec 8) (s : State) :
    ∃ r c, exec (.field off) s = .next ((s.setResult r).setCursor c) ∧
      (off.toNat < s.cap → r.toInt = ((Memory.read s.fb off.toNat).toNat : Int) - 48) ∧
      (s.cap ≤ off.toNat → r.toInt = -1) ∧ c.toNat = (off.toNat + 2) % 256 := by
  refine ⟨_, _, exec_field off s, fun h => ?_, fun h => ?_, BitVec.toNat_add off 2#8⟩
  · rw [s.digitResult_getDigit_toInt, State.getDigit_of_lt h]
  · rw [s.digitResult_getDigit_toInt, State.getDigit_of_le h]

/-! ### Lists of agent steps -/

/-- One more agent step after a list of them. -/
theorem runActions_snoc {l : List Action} {a : Action} {s t u : State} (hl : runActions l s = .next t)
    (ha : runAction a t = .next u) : runActions (l ++ [a]) s = .next u := by
  induction l generalizing s with
  | nil =>
    cases hl
    simp [runActions, ha]
  | cons b l ih =>
    rw [runActions, runAction_eq_nextState] at hl
    rw [List.cons_append, runActions, runAction_eq_nextState]
    exact ih hl

/-! ### A window held over many agent steps (R203, R204) -/

/-- One agent step other than reset in WINDOW(n, w), neither a TICK nor a Sequencer turn in WINDOW(0, w): the window is
held, and only a TICK counts it down. -/
theorem ActionEffect.window_held {s t : State} {a : Action} {n : BitVec 16} {w : Bytes} (h : ActionEffect s a t)
    (hp : s.phase = .window n w) (hreset : a ≠ .reset) (hopen : a = .tick ∨ a = .sequencer → n ≠ 0#16) :
    t.phase = .window (n - BitVec.ofNat 16 ([a].count .tick)) w ∧ t.result = s.result ∧ s.rx <+: t.rx ∧
      t.fb = s.fb := by
  by_cases htick : a = .tick
  · subst htick
    cases h
    rw [State.tick_window hp (hopen (.inl rfl))]
    exact ⟨rfl, rfl, List.prefix_rfl, rfl⟩
  · have hcount : [a].count .tick = 0 := List.count_eq_zero.mpr (by simpa using Ne.symm htick)
    rcases h.window_cases hp with ⟨ha, _⟩ | ⟨ha, hn, _⟩ | ⟨ha, _⟩ | ⟨_, hphase, hresult, hfb, hrx⟩
    · exact absurd ha hreset
    · exact absurd hn (hopen (.inr ha))
    · exact absurd ha htick
    · refine ⟨by simpa [hcount] using hphase, hresult, ?_, hfb⟩
      rcases hrx with hrx | ⟨b, _, hrx⟩ <;> rw [hrx]
      exact List.prefix_append _ _

/-- What the agent steps `l` have made of WINDOW(n, w) in `s`: it is held in `t`, less the TICKs of `l`. -/
structure WindowHeld (s : State) (n : BitVec 16) (w : Bytes) (l : List Action) (t : State) : Prop where
  phase  : t.phase = .window (n - BitVec.ofNat 16 (l.count .tick)) w
  result : t.result = s.result
  rx     : s.rx <+: t.rx
  fb     : t.fb = s.fb

theorem WindowHeld.nil {s : State} {n : BitVec 16} {w : Bytes} (hp : s.phase = .window n w) :
    WindowHeld s n w [] s :=
  ⟨by simpa using hp, rfl, List.prefix_rfl, rfl⟩

theorem WindowHeld.snoc {s t u : State} {n : BitVec 16} {w : Bytes} {l : List Action} {a : Action}
    (h : WindowHeld s n w l t) (hu : ActionEffect t a u) (hreset : a ≠ .reset)
    (hopen : a = .tick ∨ a = .sequencer → l.count .tick < n.toNat) : WindowHeld s n w (l ++ [a]) u := by
  have hleft : a = .tick ∨ a = .sequencer → n - BitVec.ofNat 16 (l.count .tick) ≠ 0#16 := by
    intro ha
    have hlt := hopen ha
    bv_omega
  obtain ⟨hphase, hresult, hrx, hfb⟩ := hu.window_held h.phase hreset hleft
  refine ⟨?_, hresult.trans h.result, h.rx.trans hrx, hfb.trans h.fb⟩
  rw [hphase, List.count_append, BitVec.ofNat_add, BitVec.sub_sub]

/-- A window is held over any agent steps without a reset and with no more TICKs than it has to go, if it has some left
for the Sequencer's turns among them. -/
theorem runActions_windowHeld {s : State} {n : BitVec 16} {w : Bytes} {l : List Action} (hp : s.phase = .window n w)
    (hreset : .reset ∉ l) (hticks : l.count .tick ≤ n.toNat) (hseq : .sequencer ∈ l → l.count .tick < n.toNat) :
    ∃ t, runActions l s = .next t ∧ WindowHeld s n w l t := by
  induction l using List.reverseRecOn with
  | nil => exact ⟨s, rfl, .nil hp⟩
  | append_singleton l a ih =>
    have hcount : (l ++ [a]).count .tick = l.count .tick + [a].count .tick := List.count_append
    have hmore : l.count .tick ≤ (l ++ [a]).count .tick := by omega
    obtain ⟨hearlier, hlast⟩ : .reset ∉ l ∧ a ≠ .reset := by simpa [eq_comm] using hreset
    obtain ⟨t, hrun, ht⟩ := ih hearlier (hmore.trans hticks) fun h => hmore.trans_lt (hseq (by simp [h]))
    refine ⟨_, runActions_snoc hrun (runAction_eq_nextState a t),
      ht.snoc (runAction_effect (runAction_eq_nextState a t)) hlast ?_⟩
    rintro (rfl | rfl)
    · rw [hcount, List.count_singleton_self] at hticks
      omega
    · exact hmore.trans_lt (hseq (by simp))

/-! ### What arrives and what is sent while the Timebase, PeerRx and PeerTx alone take steps (R76, R78) -/

/-- A step of the Timebase, PeerTx or PeerRx. -/
def TickOrPeer (a : Action) : Prop := a = .tick ∨ a = .peerTx ∨ ∃ b, a = .peerRx b

/-- What the steps `l` of the Timebase, PeerRx and PeerTx have made of the FIFOs and the wire, when there was room for
every byte that came. -/
structure Delivered (s : State) (l : List Action) (t : State) : Prop where
  cfg  : t.cfg = s.cfg
  rx   : t.rx = s.rx ++ l.filterMap actionReceived
  sent : t.env.wire ++ t.tx = s.env.wire ++ s.tx

theorem Delivered.snoc {s t u : State} {l : List Action} {a : Action} (h : Delivered s l t) (hu : ActionEffect t a u)
    (ha : TickOrPeer a) (hroom : s.rx.length + l.length < s.cfg.rxDepth) : Delivered s (l ++ [a]) u := by
  obtain ⟨hcfg, hrx, hsent⟩ := h
  rcases ha with rfl | rfl | ⟨b, rfl⟩ <;> cases hu
  · rw [t.tick_eq_setPhase]
    exact ⟨hcfg, by simpa [List.filterMap_cons, actionReceived] using hrx, hsent⟩
  · obtain ⟨rest, wire, e, hmoved, _⟩ := t.transmit_unchanged
    rw [e]
    exact ⟨hcfg, by simpa [List.filterMap_cons, actionReceived] using hrx, hmoved.trans hsent⟩
  · have harrived : (l.filterMap actionReceived).length ≤ l.length := List.length_filterMap_le _ _
    have hfits : t.rx.length < t.cfg.rxDepth := by
      rw [hcfg, hrx, List.length_append]
      omega
    rw [State.receive_of_room hfits]
    exact ⟨hcfg, by simp [actionReceived, hrx], hsent⟩

theorem runActions_delivered {s : State} {l : List Action} (hl : ∀ a ∈ l, TickOrPeer a)
    (hroom : s.rx.length + l.length ≤ s.cfg.rxDepth) : ∃ t, runActions l s = .next t ∧ Delivered s l t := by
  induction l using List.reverseRecOn with
  | nil => exact ⟨s, rfl, rfl, by simp, rfl⟩
  | append_singleton l a ih =>
    rw [List.length_append, List.length_singleton] at hroom
    obtain ⟨t, hrun, ht⟩ := ih (fun b hb => hl b (by simp [hb])) (by omega)
    exact ⟨_, runActions_snoc hrun (runAction_eq_nextState a t),
      ht.snoc (runAction_effect (runAction_eq_nextState a t)) (hl a (by simp)) (by omega)⟩

/-- A window over as many TICKs as it has to go, with PeerRx and PeerTx steps among them: it ends at WINDOW(0, w), every
byte that came is among the received ones, and what there was to send is sent or queued. -/
theorem runActions_window_runs_out {s : State} {n : BitVec 16} {w : Bytes} {l : List Action}
    (hp : s.phase = .window n w) (hl : ∀ a ∈ l, TickOrPeer a) (hticks : l.count .tick = n.toNat)
    (hroom : s.rx.length + l.length ≤ s.cfg.rxDepth) :
    ∃ t, runActions l s = .next t ∧ t.phase = .window 0#16 w ∧ t.fb = s.fb ∧ Delivered s l t := by
  have hreset : .reset ∉ l := fun h => by simpa [TickOrPeer] using hl _ h
  have hseq : .sequencer ∉ l := fun h => by simpa [TickOrPeer] using hl _ h
  obtain ⟨t, hrun, hheld⟩ := runActions_windowHeld hp hreset hticks.le fun h => absurd h hseq
  obtain ⟨t', hrun', ht⟩ := runActions_delivered hl hroom
  obtain rfl : t = t' := Host.Outcome.next.inj (hrun.symm.trans hrun')
  refine ⟨t, hrun, ?_, hheld.fb, ht⟩
  rw [hheld.phase, hticks, BitVec.ofNat_toNat, BitVec.setWidth_eq, BitVec.sub_self]

/-! ### The obligations of the command channel -/

/-- Settles O32: the window is held over the whole list (`runActions_windowHeld`), the Sequencer's turns included since
fewer TICKs come than it has to go. -/
theorem windowHoldsUntilTheLastTick : Obligations.WindowHoldsUntilTheLastTick := by
  intro l s n w hp hreset hticks
  obtain ⟨t, hrun, hheld⟩ := runActions_windowHeld hp hreset hticks.le fun _ => hticks
  exact ⟨t, hrun, hheld.phase, hheld.result, hheld.rx, hheld.fb⟩

/-- Settles O29: with a keyword, whether the line fits (`exec_send_of_fits`, `exec_send_of_full`); without one Illegal
is raised. -/
theorem sendIssue : Obligations.SendIssue := by
  intro s k t
  refine ⟨fun w hk => ⟨exec_send_of_fits hk t, exec_send_of_full hk t⟩, fun hk => ?_⟩
  rw [exec_send, State.withKeyword_none hk]
  rfl

/-- Settles O31: the step is `State.closeWindow`, whose RESULT is that of `State.closeWindow_spec`. -/
theorem windowClose : Obligations.WindowClose := by
  intro s w hp
  obtain ⟨_, _, hresult⟩ := s.closeWindow_spec w
  refine ⟨(s.closeWindow w).result, ?_, hresult⟩
  rw [runAction, State.sequencerStep_window_zero hp]
  rfl

/-- Settles O33: the issue step starts the window, which runs out with every byte delivered
(`runActions_window_runs_out`), and the Sequencer closes it (`State.closeWindow_spec`). -/
theorem sendSucceedsExactlyWhenTheTokenArrived : Obligations.SendSucceedsExactlyWhenTheTokenArrived := by
  intro s k T w l hk hfits hl hticks hroom
  obtain ⟨t, hrun, hp, hfb, _, hrx, hsent⟩ :=
    runActions_window_runs_out (s := s.startWindow s.sendLine w T) rfl hl hticks hroom
  have hclose : runAction .sequencer t = .next (t.closeWindow w) := by
    rw [runAction, State.sequencerStep_window_zero hp]
  obtain ⟨hidle, hempty, hbool, hiff⟩ := t.closeWindow_spec w
  refine ⟨_, _, exec_send_of_fits hk T hfits, runActions_snoc hrun hclose, hidle, hempty, hbool, ?_, ?_, hfb⟩
  · rw [hiff, hrx]
    rfl
  · exact hsent.trans (List.append_assoc _ _ _).symm

/-- Settles O35: FIELDN is FIELD at CURSOR, and FIELD is `exec_field_spec`. -/
theorem fieldWalker : Obligations.FieldWalker :=
  fun s off => ⟨exec_field_spec off s, exec_fieldn s ▸ exec_field_spec s.cursor s⟩

/-- Settles O37: with a keyword, the two cases of EmitLine; without one Illegal is raised. -/
theorem respEmitsTheKeyword : Obligations.RespEmitsTheKeyword := by
  intro s k
  rw [exec_resp]
  refine ⟨fun w hk => ?_, fun hk => ?_⟩
  · rw [State.withKeyword_some hk]
    exact ⟨fun h => congrArg _ (State.emitLine_of_fits h), fun h => congrArg _ (State.emitLine_of_full h)⟩
  · rw [State.withKeyword_none hk]
    rfl

/-- Settles O30: whether a held line fits is `State.le_txFree_iff`, since the line is not empty; a window above 0 is the
Timebase's alone to count down. -/
theorem sendtxHoldAndWindowCount : Obligations.SendtxHoldAndWindowCount := by
  constructor
  · intro s line w t hp hline
    have hfree := s.le_txFree_iff (List.length_pos_iff.mpr hline)
    refine ⟨?_, fun hfits => ?_, fun hfull => ?_⟩
    · rw [runAction, State.tick_sendtx hp]
    · rw [runAction, State.sequencerStep_sendtx_of_fits hp (hfree.mpr hfits)]
      rfl
    · rw [runAction, State.sequencerStep_sendtx_of_full hp (by omega)]
  · intro s n w hp hn
    constructor
    · rw [runAction, State.tick_window hp hn]
      rfl
    · rw [runAction, State.sequencerStep_window_of_ne hp hn]

end Sys2Proof.Machine

namespace Sys2Proof.Machine

open Sys2Proof

/-! ### The digits of a status triple (10_state.md R54, 43_protocol_decoders.md R231) -/

theorem armStateOf_eq_iff (d : Int) (a : ArmState) :
    (0 ≤ d ∧ d ≤ 2 ∧ armStateOf d.toNat = a) ↔ ((armStateCode a).toNat : Int) = d := by
  constructor
  · rintro ⟨h0, h2, rfl⟩
    interval_cases d <;> rfl
  · rintro rfl
    cases a <;> decide

theorem armMethodOf_eq_iff (d : Int) (a : ArmMethod) :
    (0 ≤ d ∧ d ≤ 2 ∧ armMethodOf d.toNat = a) ↔ ((armMethodCode a).toNat : Int) = d := by
  constructor
  · rintro ⟨h0, h2, rfl⟩
    interval_cases d <;> rfl
  · rintro rfl
    cases a <;> decide

theorem sensorOf_eq_iff (d : Int) (a : Sensor) :
    (0 ≤ d ∧ d ≤ 3 ∧ sensorOf d.toNat = a) ↔ ((sensorCode a).toNat : Int) = d := by
  constructor
  · rintro ⟨h0, h3, rfl⟩
    interval_cases d <;> rfl
  · rintro rfl
    cases a <;> decide

/-- DSTAT finds exactly the triple whose numbers the three digits are. -/
theorem State.decodeStatus_eq_some_iff (s : State) (t : Status) :
    s.decodeStatus = some t ↔ ((armStateCode t.state).toNat : Int) = s.getDigit 7 ∧
      ((armMethodCode t.method).toNat : Int) = s.getDigit 9 ∧ ((sensorCode t.sensor).toNat : Int) = s.getDigit 11 := by
  obtain ⟨a, m, e⟩ := t
  simp only [State.decodeStatus, ← armStateOf_eq_iff, ← armMethodOf_eq_iff, ← sensorOf_eq_iff,
    Option.ite_none_right_eq_some, Option.some.injEq, Status.mk.injEq]
  tauto

/-- DSTAT finds a triple when each digit is in its range. -/
theorem State.decodeStatus_isSome_iff (s : State) : s.decodeStatus.isSome = true ↔
    0 ≤ s.getDigit 7 ∧ s.getDigit 7 ≤ 2 ∧ 0 ≤ s.getDigit 9 ∧ s.getDigit 9 ≤ 2 ∧ 0 ≤ s.getDigit 11 ∧
      s.getDigit 11 ≤ 3 := by
  simp [State.decodeStatus]

theorem exec_dstat_of_some {s : State} {t : Status} (h : s.decodeStatus = some t) :
    exec .dstat s = .next (((s.setHstat t).setResult 1#16).emitLine rspOk) := by
  simp [exec, execDstat, h]

theorem exec_dstat_of_none {s : State} (h : s.decodeStatus = none) :
    exec .dstat s = .next ((s.setResult 0#16).emitLine rspBadValue) := by
  simp [exec, execDstat, h]

theorem digitOf_digitByte (c : BitVec 2) : digitOf (digitByte c) = c.toNat := by
  revert c
  decide

/-! ### The credential field scan (R234) -/

/-- The ssid field of the scanned bytes: up to the first ',' or the end. -/
def ssidField (l : Bytes) : Bytes := l.takeWhile fun b => b != 0x2C#8

/-- The pass field of the scanned bytes: from after the first ',' to the end. -/
def passField (l : Bytes) : Bytes := (l.dropWhile fun b => b != 0x2C#8).drop 1

theorem ssidField_comma (l : Bytes) : ssidField (0x2C#8 :: l) = [] := rfl

theorem passField_comma (l : Bytes) : passField (0x2C#8 :: l) = l := rfl

theorem ssidField_cons {b : Byte} (h : b ≠ 0x2C#8) (l : Bytes) : ssidField (b :: l) = b :: ssidField l := by
  simp [ssidField, h]

theorem passField_cons {b : Byte} (h : b ≠ 0x2C#8) (l : Bytes) : passField (b :: l) = passField l := by
  simp [passField, h]

theorem scanPass_of_fits {ss ps l : Bytes} (h : ps.length + l.length ≤ 16) :
    scanPass ss ps l = ⟨ss, ps ++ l, false⟩ := by
  induction l generalizing ps with
  | nil => simp [scanPass]
  | cons b l ih =>
    rw [List.length_cons] at h
    rw [scanPass, if_neg (by omega), ih (by simp; omega), List.append_assoc]
    rfl

theorem scanPass_ovf {ss ps l : Bytes} (hp : ps.length ≤ 16) (h : 16 < ps.length + l.length) :
    (scanPass ss ps l).ovf = true := by
  induction l generalizing ps with
  | nil => exact absurd hp (not_le.mpr (by simpa using h))
  | cons b l ih =>
    rw [List.length_cons] at h
    rw [scanPass]
    split
    · rfl
    · exact ih (by simp; omega) (by simp; omega)

/-- With `ss` of the ssid read already, the scan ends with both fields when they fit. -/
theorem scanSsid_of_fits {ss l : Bytes} (hs : ss.length + (ssidField l).length ≤ 16)
    (hp : (passField l).length ≤ 16) : scanSsid ss l = ⟨ss ++ ssidField l, passField l, false⟩ := by
  induction l generalizing ss with
  | nil => simp [scanSsid, ssidField, passField]
  | cons b l ih =>
    rw [scanSsid]
    by_cases hb : b = 0x2C#8
    · subst hb
      rw [passField_comma] at hp ⊢
      rw [if_pos rfl, scanPass_of_fits (by simpa using hp), ssidField_comma, List.append_nil]
      rfl
    · rw [ssidField_cons hb, List.length_cons] at hs
      rw [passField_cons hb] at hp ⊢
      rw [if_neg hb, if_neg (by omega), ih (by simp; omega) hp, ssidField_cons hb, List.append_assoc]
      rfl

/-- With `ss` of the ssid read already, the scan overflows when a field does not fit. -/
theorem scanSsid_ovf {ss l : Bytes} (hss : ss.length ≤ 16)
    (h : 16 < ss.length + (ssidField l).length ∨ 16 < (passField l).length) : (scanSsid ss l).ovf = true := by
  induction l generalizing ss with
  | nil => exact absurd hss (not_le.mpr (by simpa [ssidField, passField] using h))
  | cons b l ih =>
    rw [scanSsid]
    by_cases hb : b = 0x2C#8
    · subst hb
      rw [ssidField_comma, passField_comma, List.length_nil] at h
      rw [if_pos rfl]
      exact scanPass_ovf (by simp) (by simp; omega)
    · rw [ssidField_cons hb, passField_cons hb, List.length_cons] at h
      rw [if_neg hb]
      split
      · rfl
      · exact ih (by simp; omega) (by simp; omega)

/-! ### The credential registers (R233, R235, R242) -/

theorem credentialOf_len {l : Bytes} (h : l.length ≤ 16) : (credentialOf l).len.val = l.length :=
  Nat.mod_eq_of_lt (Nat.lt_succ_of_le h)

theorem credentialOf_getElem (l : Bytes) (j : Fin 16) : (credentialOf l).bytes[j] = l.getD j.val 0#8 := by
  simp [credentialOf]

theorem Credential.readByte_of_lt (c : Credential) (j : Fin 16) : c.readByte j.val = c.bytes[j] := by
  simp [Credential.readByte]

theorem Credential.readByte_of_le (c : Credential) {i : Nat} (h : 16 ≤ i) : c.readByte i = 0#8 := by
  simp [Credential.readByte, h]

/-- What DCRED makes of the block: both credential registers, CRED_OVF and RESULT written, the acknowledgement emitted. -/
def State.acceptCredentials (s : State) (c d : Credential) (ovf : Bool) : State :=
  (((s.setCredentials c d).setFlags (s.flags.putCredOvf ovf)).setResult (boolResult (!ovf))).emitLine rspOk

/-- The registers DCRED writes, field by field. -/
theorem State.acceptCredentials_eq (s : State) (c d : Credential) (ovf : Bool) : s.acceptCredentials c d ovf =
    ({ s with ssid := c, pass := d, flags := { s.flags with credOvf := ovf }, result := boolResult (!ovf) } :
      State).emitLine rspOk := rfl

@[simp] theorem State.acceptCredentials_ssid (s : State) (c d : Credential) (ovf : Bool) :
    (s.acceptCredentials c d ovf).ssid = c := by simp [State.acceptCredentials]

@[simp] theorem State.acceptCredentials_pass (s : State) (c d : Credential) (ovf : Bool) :
    (s.acceptCredentials c d ovf).pass = d := by simp [State.acceptCredentials]

/-- The acknowledgement and its EOL are 8 bytes: with room for them the block stays IDLE. -/
theorem State.acceptCredentials_phase {s : State} (hp : s.phase = .idle) (hroom : 8 + s.tx.length ≤ s.cfg.txDepth)
    (c d : Credential) (ovf : Bool) : (s.acceptCredentials c d ovf).phase = .idle := by
  rw [State.acceptCredentials, State.emitLine_phase_idle_iff (by simpa using hp)]
  simpa [rspOk] using hroom

theorem exec_dcred_of_fits {s : State} (hs : (ssidField (s.text.drop 12)).length ≤ 16)
    (hp : (passField (s.text.drop 12)).length ≤ 16) :
    exec .dcred s = .next (s.acceptCredentials (credentialOf (ssidField (s.text.drop 12)))
      (credentialOf (passField (s.text.drop 12))) false) := by
  have hscan : s.scanCredentials = ⟨ssidField (s.text.drop 12), passField (s.text.drop 12), false⟩ :=
    scanSsid_of_fits (by simpa using hs) hp
  rw [exec, execDcred, hscan]
  rfl

theorem exec_dcred_of_overflow {s : State}
    (h : 16 < (ssidField (s.text.drop 12)).length ∨ 16 < (passField (s.text.drop 12)).length) :
    exec .dcred s = .next (s.acceptCredentials (credentialOf []) (credentialOf []) true) := by
  have hovf : s.scanCredentials.ovf = true := scanSsid_ovf (by simp) (by simpa using h)
  simp only [exec, execDcred, hovf]
  rfl

theorem exec_rdcred_ssid (idx : BitVec 8) (s : State) :
    exec (.rdcred 0 idx) s = .next (s.setResult ((s.ssid.readByte idx.toNat).setWidth 16)) := rfl

theorem exec_rdcred_pass (idx : BitVec 8) (s : State) :
    exec (.rdcred 1 idx) s = .next (s.setResult ((s.pass.readByte idx.toNat).setWidth 16)) := rfl

theorem exec_rdcred_illegal {sel : BitVec 8} (h : 2 ≤ sel.toNat) (idx : BitVec 8) (s : State) :
    exec (.rdcred sel idx) s = .next s.raiseIllegal := by
  rw [exec, execRdcred, if_neg (by bv_omega), if_neg (by bv_omega)]

/-- RDCRED reads back the bytes of decoded fields, zero-padded. -/
theorem exec_rdcred_of_credentialOf {t : State} {ss ps : Bytes} (hs : t.ssid = credentialOf ss)
    (hp : t.pass = credentialOf ps) {idx : BitVec 8} (hi : idx.toNat < 16) :
    exec (.rdcred 0 idx) t = .next (t.setResult (BitVec.ofNat 16 (ss.getD idx.toNat 0#8).toNat)) ∧
      exec (.rdcred 1 idx) t = .next (t.setResult (BitVec.ofNat 16 (ps.getD idx.toNat 0#8).toNat)) := by
  have hread (l : Bytes) : (credentialOf l).readByte idx.toNat = l.getD idx.toNat 0#8 :=
    ((credentialOf l).readByte_of_lt ⟨_, hi⟩).trans (credentialOf_getElem l ⟨_, hi⟩)
  rw [exec_rdcred_ssid, exec_rdcred_pass, hs, hp, hread, hread, BitVec.ofNat_toNat, BitVec.ofNat_toNat]
  exact ⟨rfl, rfl⟩

/-! ### The credentials line (R230) -/

theorem credentialsLine_drop (ssid pass : Bytes) : (credentialsLine ssid pass).drop 12 = ssid ++ 0x2C#8 :: pass := by
  simp [credentialsLine]

/-- An ssid without ',' ends at the ',' after it. -/
theorem fields_append {ssid : Bytes} (h : 0x2C#8 ∉ ssid) (pass : Bytes) :
    ssidField (ssid ++ 0x2C#8 :: pass) = ssid ∧ passField (ssid ++ 0x2C#8 :: pass) = pass := by
  induction ssid with
  | nil => exact ⟨ssidField_comma pass, passField_comma pass⟩
  | cons b l ih =>
    obtain ⟨hb, hl⟩ : 0x2C#8 ≠ b ∧ 0x2C#8 ∉ l := by simpa using h
    obtain ⟨hssid, hpass⟩ := ih hl
    rw [List.cons_append, ssidField_cons hb.symm, passField_cons hb.symm, hssid, hpass]
    exact ⟨rfl, rfl⟩

/-! ### Single-word commands and timeouts (R240, R250) -/

theorem exec_dword (k : BitVec 4) (s : State) : exec (.dword k) s = .next (s.withKeyword k fun w =>
    if occurs w s.text then (s.setResult 1#16).emitLine rspOk else s.setResult 0#16) := rfl

/-- The unit is below 2^15, so that doubling it in 16 bits loses nothing. -/
theorem Outbound.timeout_toNat (p : Params) (m : Outbound) :
    (m.timeout p).toNat = (if m.isListTransfer then 2 else 1) * p.timeoutUnitTicks.toNat := by
  have hunit := p.timeoutUnitTicks.isLt
  unfold Outbound.timeout
  split
  · rw [BitVec.toNat_mul, BitVec.toNat_setWidth, BitVec.toNat_ofNat]
    omega
  · rw [BitVec.toNat_setWidth]
    omega

/-! ### The obligations of the protocol decoders -/

/-- Settles O39: the digits are `State.getDigit`; DSTAT finds a triple exactly when they are in range, and then the one
whose numbers they are. -/
theorem dstatValidates : Obligations.DstatValidates := by
  intro s
  refine ⟨s.getDigit, fun i => rfl, fun hrange => ?_, fun hrange => ?_⟩
  · obtain ⟨t, ht⟩ := Option.isSome_iff_exists.mp (s.decodeStatus_isSome_iff.mpr hrange)
    exact ⟨t, exec_dstat_of_some ht, (s.decodeStatus_eq_some_iff t).mp ht⟩
  · exact exec_dstat_of_none (Option.not_isSome_iff_eq_none.mp (mt s.decodeStatus_isSome_iff.mp hrange))

/-- Settles O40: the line's bytes at 7, 9 and 11 are the digits of the triple's numbers. -/
theorem statusRoundTrip : Obligations.StatusRoundTrip := by
  intro s t hcap hline
  have hlength : (statusLine t).length = 12 := rfl
  have hdigit (i : Nat) (c : BitVec 2) (hi : i < s.cap) (hread : Memory.read s.fb i = digitByte c) :
      (c.toNat : Int) = s.getDigit i := by
    rw [State.getDigit, if_pos hi, hread, digitOf_digitByte]
  refine exec_dstat_of_some ((s.decodeStatus_eq_some_iff t).mpr ⟨?_, ?_, ?_⟩)
  · exact hdigit 7 _ (by omega) (hline 7 (by omega))
  · exact hdigit 9 _ (by omega) (hline 9 (by omega))
  · exact hdigit 11 _ (by omega) (hline 11 (by omega))

/-- Settles O41: the scan's result by whether both fields fit (`exec_dcred_of_fits`, `exec_dcred_of_overflow`). -/
theorem dcredDecodesTheFields : Obligations.DcredDecodesTheFields := by
  intro s
  by_cases h : (ssidField (s.text.drop 12)).length ≤ 16 ∧ (passField (s.text.drop 12)).length ≤ 16
  · obtain ⟨hs, hp⟩ := h
    refine ⟨ssidField (s.text.drop 12), passField (s.text.drop 12), credentialOf (ssidField (s.text.drop 12)),
      credentialOf (passField (s.text.drop 12)), rfl, rfl, fun _ => ?_, by omega⟩
    refine ⟨?_, credentialOf_len hs, credentialOf_getElem _, credentialOf_len hp, credentialOf_getElem _⟩
    rw [exec_dcred_of_fits hs hp, State.acceptCredentials_eq]
    rfl
  · refine ⟨ssidField (s.text.drop 12), passField (s.text.drop 12), credentialOf [], credentialOf [], rfl, rfl,
      fun h' => absurd h' h, fun hovf => ?_⟩
    refine ⟨?_, rfl, credentialOf_getElem [], rfl, credentialOf_getElem []⟩
    rw [exec_dcred_of_overflow hovf, State.acceptCredentials_eq]
    rfl

/-- Settles O42: the fields of a credentials line are its ssid and pass, and RDCRED reads back what DCRED has decoded, two
empty fields on overflow. -/
theorem credentialsRoundTrip : Obligations.CredentialsRoundTrip := by
  intro s ssid pass hidle hroom htext hcomma
  obtain ⟨hssid, hpass⟩ := fields_append hcomma pass
  have hfits := exec_dcred_of_fits (s := s)
  have hoverflow := exec_dcred_of_overflow (s := s)
  rw [htext, credentialsLine_drop, hssid, hpass] at hfits hoverflow
  by_cases h : ssid.length ≤ 16 ∧ pass.length ≤ 16
  · obtain ⟨hs, hp⟩ := h
    refine ⟨_, hfits hs hp, State.acceptCredentials_phase hidle hroom _ _ _,
      fun idx hi => ⟨fun _ _ => ?_, by omega⟩⟩
    exact exec_rdcred_of_credentialOf (by simp) (by simp) hi
  · refine ⟨_, hoverflow (by omega), State.acceptCredentials_phase hidle hroom _ _ _,
      fun idx hi => ⟨fun hs hp => absurd ⟨hs, hp⟩ h, fun _ => ?_⟩⟩
    exact exec_rdcred_of_credentialOf (ss := []) (ps := []) (by simp) (by simp) hi

/-- Settles O43: `occurs` is being a contiguous part of the text view. -/
theorem dwordRecognises : Obligations.DwordRecognises := by
  intro s k
  rw [exec_dword]
  refine ⟨fun w hk => ?_, fun hk => ?_⟩
  · rw [State.withKeyword_some hk, ← occurs_iff]
    exact ⟨fun h => congrArg _ (if_pos h), fun h => congrArg _ (if_neg h)⟩
  · rw [State.withKeyword_none hk]
    rfl

/-- Settles O44: a legal selector reads a byte of its register, which holds no byte at or above 16; any other raises
Illegal. -/
theorem rdcredResult : Obligations.RdcredResult := by
  intro s sel idx
  refine ⟨fun j hj => ?_, fun hi hsel => ?_, fun hsel => exec_rdcred_illegal hsel idx s⟩
  · rw [exec_rdcred_ssid, exec_rdcred_pass, ← hj, Credential.readByte_of_lt, Credential.readByte_of_lt,
      BitVec.ofNat_toNat, BitVec.ofNat_toNat]
    exact ⟨rfl, rfl⟩
  · obtain rfl | rfl : sel = 0 ∨ sel = 1 := by bv_omega
    · rw [exec_rdcred_ssid, Credential.readByte_of_le _ hi]; rfl
    · rw [exec_rdcred_pass, Credential.readByte_of_le _ hi]; rfl

/-- Settles O60: the messages with a doubled timeout are the three list transfers. -/
theorem outboundTimeouts : Obligations.OutboundTimeouts := by
  intro p m
  rw [Outbound.timeout_toNat]
  cases m <;> rfl

end Sys2Proof.Machine

namespace Sys2Proof.Machine

open Sys2Proof

/-! ### The system commands (44_system.md) -/

theorem exec_nop (s : State) : exec .nop s = .next s := rfl

theorem exec_clrerr (s : State) : exec .clrerr s = .next (s.setFlags s.flags.clearErrors) := rfl

theorem State.setFlags_clearErrors (s : State) : s.setFlags s.flags.clearErrors =
    { s with flags := { s.flags with errBusy := false, errIllegal := false, rxOverrun := false } } := rfl

/-- Settles O45: NOP answers the state it is given, and CLRERR writes the flags with the three sticky ones cleared. -/
theorem nopAndClrerr : Obligations.NopAndClrerr := by
  intro s
  refine ⟨exec_nop s, ?_⟩
  rw [exec_clrerr, State.setFlags_clearErrors]

end Sys2Proof.Machine

namespace Sys2Proof.Machine

open Sys2Proof

/-! ### Every step completes (60_exceptions.md R280) -/

@[simp] theorem State.emitLine_env (s : State) (body : Bytes) : (s.emitLine body).env = s.env :=
  (SameRegisters.emitLine s body).env

/-- No command writes anything outside the block. -/
theorem CommandEffect.env {i : Instr} {s t : State} (h : CommandEffect s i t) : t.env = s.env := by
  cases h with
  | plain h => exact h.env
  | _ => simp

/-- No command faults or is refused. -/
theorem exec_completes (i : Instr) (s : State) : ∃ t, exec i s = .next t := by
  cases i <;> exact ⟨_, rfl⟩

theorem issue_completes (w : Word) (s : State) : ∃ t, issue w s = .next t := by
  rcases issue_cases w s with ⟨_, e⟩ | ⟨_, i, _, e⟩ | ⟨_, _, e⟩ <;> rw [e]
  · exact ⟨_, rfl⟩
  · exact exec_completes i s
  · exact ⟨_, rfl⟩

theorem clientWrite_completes (off : BitVec 8) (w : Word) (s : State) : ∃ t, clientWrite off w s = .next t := by
  unfold clientWrite
  split
  · exact issue_completes w s
  · exact ⟨_, rfl⟩

/-- No agent step faults or is refused: of the agents only the Client runs commands. -/
theorem runAction_completes (a : Action) (s : State) : ∃ t, runAction a s = .next t := by
  cases a with
  | writeReg off w => exact clientWrite_completes off w s
  | _ => exact ⟨_, rfl⟩

/-! ### A CMD write turned away (R283, R284) -/

/-- With PHASE = IDLE a word that is not legal has no command to run. -/
theorem clientWrite_cmd_of_illegal {s : State} {w : Word} (hidle : s.phase = .idle) (hw : legal w = false) :
    clientWrite 0#8 w s = .next s.raiseIllegal := by
  rcases issue_cases w s with ⟨hbusy, _⟩ | ⟨_, i, hd, _⟩ | ⟨_, _, e⟩
  · exact absurd hidle hbusy
  · have hlegal : legal w = true := (decode_accepts w).mp ⟨i, hd⟩
    simp [hw] at hlegal
  · exact e

/-- In any other phase no word is looked at. -/
theorem clientWrite_cmd_of_busy {s : State} (w : Word) (hbusy : s.phase ≠ .idle) :
    clientWrite 0#8 w s = .next s.dropBusy :=
  if_pos (State.busy_of hbusy)

/-! ### The sticky error flags (R282) -/

/-- No sticky error flag goes from 1 to 0. -/
structure StickyFlagsKept (s t : State) : Prop where
  errBusy    : s.flags.errBusy = true → t.flags.errBusy = true
  errIllegal : s.flags.errIllegal = true → t.flags.errIllegal = true
  rxOverrun  : s.flags.rxOverrun = true → t.flags.rxOverrun = true

theorem StickyFlagsKept.of_flags {s t : State} (h : t.flags = s.flags) : StickyFlagsKept s t := by
  constructor <;> rw [h] <;> exact id

/-- Of the commands only CLRERR clears a sticky flag. -/
theorem CommandEffect.clrerr_or_stickyFlagsKept {i : Instr} {s t : State} (h : CommandEffect s i t) :
    i = .clrerr ∨ StickyFlagsKept s t := by
  cases h with
  | clrerr => exact .inl rfl
  | plain h => exact .inr ⟨h.errBusy.trans, h.errIllegal, h.rxOverrun.trans⟩
  | dcred => exact .inr (by constructor <;> simp [Flags.putCredOvf])
  | _ => exact .inr (.of_flags (by simp))

theorem State.sequencerStep_stickyFlagsKept (s : State) : StickyFlagsKept s s.sequencerStep := by
  obtain ⟨_, _, _, _, _, _, _, _, _, hbusy, hillegal, hoverrun⟩ := s.sequencerStep_unchanged
  exact ⟨hbusy.trans, hillegal.trans, hoverrun.trans⟩

/-- PeerRx may set RX_OVERRUN and clears no flag. -/
theorem State.receive_stickyFlagsKept (s : State) (b : Byte) : StickyFlagsKept s (s.receive b) := by
  rcases s.receive_cases b with ⟨_, e⟩ | ⟨_, e⟩ <;> rw [e]
  · exact .of_flags rfl
  · exact ⟨id, id, fun _ => rfl⟩

/-- An agent step is a reset, an accepted CLRERR, or clears no sticky flag. -/
theorem ActionEffect.sticky_cases {a : Action} {s t : State} (h : ActionEffect s a t) :
    a = .reset ∨ AcceptedCommand s a .clrerr t ∨ StickyFlagsKept s t := by
  cases h with
  | reset => exact .inl rfl
  | accepted w i t hidle hd hx =>
    obtain rfl := encode_of_decode hd
    rcases (exec_effect hx).clrerr_or_stickyFlagsKept with rfl | hkept
    · exact .inr (.inl ⟨hidle, rfl, hd, hx⟩)
    · exact .inr (.inr hkept)
  | dropped => exact .inr (.inr ⟨fun _ => rfl, id, id⟩)
  | illegal => exact .inr (.inr ⟨id, fun _ => rfl, id⟩)
  | sequencer => exact .inr (.inr s.sequencerStep_stickyFlagsKept)
  | peerRx b => exact .inr (.inr (s.receive_stickyFlagsKept b))
  | peerTx =>
    obtain ⟨l, w, e, _⟩ := s.transmit_unchanged
    exact .inr (.inr (.of_flags (by rw [e]; rfl)))
  | tick => exact .inr (.inr (.of_flags (by rw [s.tick_eq_setPhase]; rfl)))
  | readReg | ignored => exact .inr (.inr (.of_flags rfl))

/-! ### The obligations of the exceptions -/

/-- Settles O46: with PHASE = IDLE the decoder accepts no illegal word, and `raise Illegal` writes ERR_ILLEGAL alone. -/
theorem illegalWordSetsOnlyErrIllegal : Obligations.IllegalWordSetsOnlyErrIllegal :=
  fun _ _ hidle hw => clientWrite_cmd_of_illegal hidle hw

/-- Settles O48: of the three kinds of agent step only a reset and an accepted CLRERR, whose word is 0x0F000000, can
clear a sticky flag. -/
theorem stickyFlagsClearedOnlyByClrerrOrReset : Obligations.StickyFlagsClearedOnlyByClrerrOrReset := by
  intro a s t h hcleared
  rcases (runAction_effect h).sticky_cases with ha | ⟨hidle, ha, _⟩ | hkept
  · exact .inl ha
  · exact .inr ⟨ha, hidle⟩
  · rcases hcleared with ⟨hs, ht⟩ | ⟨hs, ht⟩ | ⟨hs, ht⟩
    · simp [hkept.errBusy hs] at ht
    · simp [hkept.errIllegal hs] at ht
    · simp [hkept.rxOverrun hs] at ht

/-- Settles O11: a step is an agent step, and all of them complete; a command's effect keeps `cfg` and `env`. -/
theorem everyStepAndCommandCompletes : Obligations.EveryStepAndCommandCompletes := by
  refine ⟨fun s => runAction_completes _ _, fun i s => ?_⟩
  obtain ⟨t, ht⟩ := exec_completes i s
  exact ⟨t, ht, (exec_effect ht).cfg, (exec_effect ht).env⟩

/-- Settles O47: a word written while BUSY is dropped, which writes ERR_BUSY alone. -/
theorem wordWhileBusyIsDropped : Obligations.WordWhileBusyIsDropped :=
  fun _ w hbusy => clientWrite_cmd_of_busy w hbusy

end Sys2Proof.Machine

namespace Sys2Proof.Machine

open Sys2Proof

/-! ### Reset (70_reset_and_hazards.md R310) -/

theorem runAction_reset (s : State) : runAction .reset s = .next (State.resetWith s.cfg s.env) := rfl

/-! ### Whether a response line fits, so that PHASE stays IDLE (10_state.md R52) -/

section
variable {s : State} (hidle : s.phase = .idle)
include hidle

/-- RSP+OK with its EOL is 8 bytes. -/
theorem State.emitLine_rspOk_phase_idle_iff :
    (s.emitLine rspOk).phase = .idle ↔ 8 + s.tx.length ≤ s.cfg.txDepth :=
  State.emitLine_phase_idle_iff hidle rspOk

/-- RSP+BAD_VALUE with its EOL is 15 bytes. -/
theorem State.emitLine_rspBadValue_phase_idle_iff :
    (s.emitLine rspBadValue).phase = .idle ↔ 15 + s.tx.length ≤ s.cfg.txDepth :=
  State.emitLine_phase_idle_iff hidle rspBadValue

end

/-! ### PHASE after a command with a keyword operand -/

/-- A command with a legal selector runs on the one keyword it names, so its PHASE is the one of that run. -/
theorem State.withKeyword_phase_iff {s : State} {k : BitVec 4} (hk : validKeyword k = true) (f : Bytes → State)
    (p : Phase) : (s.withKeyword k f).phase = p ↔ ∃ w, s.keyword k = some w ∧ (f w).phase = p := by
  obtain ⟨w, hw⟩ := Option.isSome_iff_exists.mp ((s.keyword_isSome k).trans hk)
  simp [State.withKeyword_some hw, hw]

/-- An illegal selector keeps PHASE too: `raise Illegal` writes a flag. -/
theorem State.withKeyword_keeps_phase {s : State} {k : BitVec 4} {f : Bytes → State}
    (hf : ∀ w, (f w).phase = s.phase) : (s.withKeyword k f).phase = s.phase := by
  rcases s.withKeyword_cases k f with e | ⟨w, _, e⟩ <;> rw [e]
  · exact s.raiseIllegal_phase
  · exact hf w

/-! ### The commands that are always immediate, and those that are under a condition (R330) -/

/-- The commands that end in their issue step whatever the state: none of them writes PHASE. -/
def AlwaysImmediate : Instr → Prop
  | .send _ _ | .capture | .resp _ | .dstat | .dcred | .dword _ => False
  | _ => True

/-- A command that is always immediate keeps PHASE. -/
theorem exec_keeps_phase {i : Instr} {s t : State} (h : exec i s = .next t) (hi : AlwaysImmediate i) :
    t.phase = s.phase := by
  cases i
  case send | capture | resp | dstat | dcred | dword => exact hi.elim
  case nop | clr | getb | getd | textlen | patset | clrerr | drain | field | fieldn => cases h; rfl
  case setb idx val =>
    cases h
    obtain ⟨m, e⟩ := s.fbStore_eq_setFb idx.toNat val
    rw [e]; rfl
  case matchp | matchs => cases h; exact State.withKeyword_keeps_phase fun _ => rfl
  case patlen => cases h; split <;> rfl
  case rdcred => cases h; split_ifs <;> rfl

section
variable {s t : State}

/-- SEND leaves the block in WINDOW or in SENDTX (R201). -/
theorem exec_send_phase_ne_idle {k : BitVec 4} {T : BitVec 16} (hk : validKeyword k = true)
    (h : exec (.send k T) s = .next t) : t.phase ≠ .idle := by
  obtain ⟨w, hw⟩ := Option.isSome_iff_exists.mp ((s.keyword_isSome k).trans hk)
  rcases le_or_gt (s.text.length + 2 + s.tx.length) s.cfg.txDepth with hfits | hfull
  · rw [exec_send_of_fits hw T hfits] at h
    cases h
    exact Phase.noConfusion
  · rw [exec_send_of_full hw T hfull] at h
    cases h
    exact Phase.noConfusion

/-- CAPTURE ends at once on an empty receive FIFO and else enters SETTLE (R171). -/
theorem exec_capture_phase_idle_iff (h : exec .capture s = .next t) : t.phase = .idle ↔ s.rx = [] := by
  by_cases hrx : s.rx = []
  · rw [exec_capture_of_nil hrx] at h
    cases h
    simp [hrx]
  · rw [exec_capture_of_ne_nil hrx] at h
    cases h
    simp [hrx]

variable (hidle : s.phase = .idle)
include hidle

/-- RESP waits for room for its keyword and EOL (R209). -/
theorem exec_resp_phase_idle_iff {k : BitVec 4} (hk : validKeyword k = true) (h : exec (.resp k) s = .next t) :
    t.phase = .idle ↔ ∃ w, s.keyword k = some w ∧ w.length + 2 + s.tx.length ≤ s.cfg.txDepth := by
  cases h
  simp only [State.withKeyword_phase_iff hk, State.emitLine_phase_idle_iff hidle]

/-- DSTAT waits for room for RSP+OK or RSP+BAD_VALUE, by whether it has found a triple (R231). -/
theorem exec_dstat_phase_idle_iff (h : exec .dstat s = .next t) :
    t.phase = .idle ↔ (if s.decodeStatus.isSome then 8 else 15) + s.tx.length ≤ s.cfg.txDepth := by
  cases hd : s.decodeStatus with
  | some v =>
    rw [exec_dstat_of_some hd] at h
    cases h
    exact State.emitLine_rspOk_phase_idle_iff hidle
  | none =>
    rw [exec_dstat_of_none hd] at h
    cases h
    exact State.emitLine_rspBadValue_phase_idle_iff hidle

/-- DCRED waits for room for RSP+OK, whatever it has decoded (R235). -/
theorem exec_dcred_phase_idle_iff (h : exec .dcred s = .next t) :
    t.phase = .idle ↔ 8 + s.tx.length ≤ s.cfg.txDepth := by
  obtain ⟨_, _, _, _, _, _, e⟩ := execDcred_eq s
  rw [exec, e] at h
  cases h
  rw [State.emitLine_rspOk_phase_idle_iff (by simpa using hidle)]
  simp

/-- DWORD waits for room for RSP+OK if its keyword is in the text view, and sends nothing else (R240). -/
theorem exec_dword_phase_idle_iff {k : BitVec 4} (hk : validKeyword k = true) (h : exec (.dword k) s = .next t) :
    t.phase = .idle ↔
      ∃ w, s.keyword k = some w ∧ ((∃ p q, s.text = p ++ w ++ q) → 8 + s.tx.length ≤ s.cfg.txDepth) := by
  cases h
  rw [State.withKeyword_phase_iff hk]
  refine exists_congr fun w => and_congr_right fun _ => ?_
  rw [← occurs_iff]
  split
  case isTrue hmatch => simpa [hmatch] using State.emitLine_rspOk_phase_idle_iff (s := s.setResult 1#16) hidle
  case isFalse hno => simpa [hno] using hidle

end

/-! ### The obligations of reset and hazards -/

/-- Settles O59: of the commands only SEND, CAPTURE and the four with a response can leave IDLE, each under a condition
of its own. -/
theorem immediateCommands : Obligations.ImmediateCommands := by
  intro i s t hwf hidle h
  cases i
  case send => exact iff_of_false (exec_send_phase_ne_idle hwf h) id
  case capture => exact exec_capture_phase_idle_iff h
  case resp => exact exec_resp_phase_idle_iff hidle hwf h
  case dstat => simpa only [State.decodeStatus_isSome_iff] using exec_dstat_phase_idle_iff hidle h
  case dcred => exact exec_dcred_phase_idle_iff hidle h
  case dword => exact exec_dword_phase_idle_iff hidle hwf h
  all_goals exact iff_of_true ((exec_keeps_phase h trivial).trans hidle) trivial

/-- Settles O8: the state after reset is `State.resetWith` of the parameters and the environment, field by field. -/
theorem resetStep : Obligations.ResetStep := by
  intro s
  refine ⟨State.resetWith s.cfg s.env, runAction_reset s, fun _ => rfl, rfl, rfl, rfl, rfl, ?_, rfl, ?_, rfl, rfl, rfl,
    rfl, rfl, rfl, rfl, rfl⟩
  · intro j
    simp
  · intro j
    simp [Credential.empty]

end Sys2Proof.Machine
